-- ==== Sys2Proof/Word.lean ====
section
/-! DEFINITION. The widths of the block: byte, host word, command word, colour and host address
(00_scope.md R10, 10_state.md R22, 20_memory.md R72). -/

namespace Sys2Proof

/-- A byte (R10). -/
abbrev Byte := BitVec 8

/-- A 32-bit word of the host port (R10, R22). -/
abbrev Word := BitVec 32

/-- A 64-bit command word (R10, R91). -/
abbrev Cmd := BitVec 64

/-- A 24-bit colour, laid out `0xRRGGBB` (R72). -/
abbrev Rgb := BitVec 24

/-- A 14-bit byte address of the host port (R22). -/
abbrev HostAddr := BitVec 14

end Sys2Proof
end

