-- ==== Sys2Proof/Config.lean ====
section
/-! DEFINITION. The parameters of an implementation (00_scope.md R8) and the values the spec leaves
open (93_implementation_defined.md U1, U2), as constants without a body. -/

namespace Sys2Proof.Config

/-- The parameters of an implementation (R8): what the model takes as arguments. Log entry 7. -/
structure Params where
  /-- WIDTH: columns per row. -/
  width : Nat
  /-- HEIGHT: rows. -/
  height : Nat
  /-- RST_OPC_UPDATE: reset value of OPC.UPD (R31); any byte. -/
  rstOpcUpdate : Byte
  /-- RST_OPC_CLEAR: reset value of OPC.CLR (R31); any byte. -/
  rstOpcClear : Byte
  deriving DecidableEq, Repr

/-- ROWBYTES: bytes per row, WIDTH / 8 (R8). -/
def Params.rowBytes (p : Params) : Nat := p.width / 8

/-- The legal ranges: WIDTH a multiple of 8 from 8 to 248, HEIGHT from 1 to 255 (R8). -/
abbrev Params.legal (p : Params) : Prop :=
  p.width % 8 = 0 ∧ 8 ≤ p.width ∧ p.width ≤ 248 ∧ 1 ≤ p.height ∧ p.height ≤ 255

/-- The values for this hardware (R8). -/
def thisHardware : Params where
  width := 128
  height := 128
  rstOpcUpdate := 0x80
  rstOpcClear := 0x20

/-- The DIRTY registers' bits: eight words of 32 (R37), room for every legal HEIGHT. -/
abbrev dirtyBits : Nat := 256

/-- SRC_BYTES: size of the source buffer (R8). -/
abbrev srcBytes : Nat := 4096

/-- PAL_ENTRIES: palette entries (R8). -/
abbrev palEntries : Nat := 256

/-- Revision of the spec, as the ID register shows it (R36). -/
abbrev revision : Byte := 0x01

/-- FREE VALUE. What byte `j` of SRC holds after the `n`-th reset, until the host writes it
(R233, U1: `any value` per byte; two resets need not leave the same). Log entry 5. -/
opaque srcAtReset (n j : Nat) : Byte

/-- FREE VALUE. What entry `i` of PAL holds after the `n`-th reset, until the host writes it
(R233, U1: `any value` per entry). Log entry 5. -/
opaque palAtReset (n i : Nat) : Rgb

/-- FREE VALUE. What the `n`-th host read of FB, DIRTY or RESULT made while BUSY = 1 returns
(R241, U2: `any value` per read). Log entry 6. -/
opaque busyRead (n : Nat) : Word

end Sys2Proof.Config
end

