-- ==== Sys2Proof/Syntax.lean ====
section
/-! DEFINITION. The commands of the block, one constructor per row of spec/opcode_table.json
(30_encoding.md R94), and the assembler's lines (R99, R100). -/

namespace Sys2Proof

/-- A command. Operand fields have the width of their command-word field (R92) and are unsigned
numbers (R93); the colour operand and the flags are single bits. -/
inductive Instr where
  /-- NOP (R160). -/
  | nop
  /-- CLEAR (R179). -/
  | clear
  /-- FLUSH (R185). -/
  | flush
  /-- POINT x, y, color (R120). -/
  | point (x y : Byte) (color : Bool)
  /-- HLINE x1, x2, y, color (R122). -/
  | hline (x1 x2 y : Byte) (color : Bool)
  /-- VLINE x, y1, y2, color (R124). -/
  | vline (x y1 y2 : Byte) (color : Bool)
  /-- FILL x1, y1, x2, y2, color (R126). -/
  | fill (x1 y1 x2 y2 : Byte) (color : Bool)
  /-- BLIT with BPP8 = 0: 1 bit per pixel (R95, R130). -/
  | blit1 (srclsb palq : Bool) (x y count : Byte) (srcoff : BitVec 24)
  /-- BLIT with BPP8 = 1: 8 bits per pixel; SRCLSB must be 0 (R95, R97, R130). Log entry 13. -/
  | blit8 (srclsb palq : Bool) (x y count : Byte) (srcoff : BitVec 24)
  /-- QUANT rgb (R161). -/
  | quant (rgb : Rgb)
  /-- GLA row (R162). -/
  | gla (row : Byte)
  /-- XFORM b (R163). -/
  | xform (b : Byte)
  deriving DecidableEq, Repr

/-- One line of the assembler (R99) or a pseudo-command (R100). Operands are the numbers written,
not yet checked against their fields. -/
inductive AsmLine where
  | nop
  | clear
  | flush
  | point (x y c : Nat)
  | hline (x1 x2 y c : Nat)
  | vline (x y1 y2 c : Nat)
  | fill (x1 y1 x2 y2 c : Nat)
  /-- `BLIT.<bpp>[.LSB][.PQ] x, y, count, srcoff`. -/
  | blit (bpp : Nat) (lsb pq : Bool) (x y count srcoff : Nat)
  | quant (rgb : Nat)
  | gla (row : Nat)
  | xform (b : Nat)
  /-- Pseudo-command `INIT` (R100). -/
  | init
  /-- Pseudo-command `SET x, y` (R100). -/
  | set (x y : Nat)
  /-- Pseudo-command `RESET x, y` (R100). -/
  | reset (x y : Nat)
  /-- Pseudo-command `REFRESH` (R100). -/
  | refresh
  deriving DecidableEq, Repr

end Sys2Proof
end

