-- ==== Sys2Proof/WellFormed.lean ====
section
/-! DEFINITION. Which commands have an encoding (30_encoding.md R97). The widths of the operands are
checked by their types; the one constraint across fields is BLIT's. -/

namespace Sys2Proof

/-- BLIT.8 with SRCLSB = 1 is the one command value that has no legal command word: "for BLIT,
SRCLSB = 1 together with BPP8 = 1 also raises RSVD" (R97; R99 rejects `BLIT.8.LSB`). -/
def Instr.wellFormed : Instr → Bool
  | .nop => true
  | .clear => true
  | .flush => true
  | .point _ _ _ => true
  | .hline _ _ _ _ => true
  | .vline _ _ _ _ => true
  | .fill _ _ _ _ _ => true
  | .blit1 _ _ _ _ _ _ => true
  | .blit8 srclsb _ _ _ _ _ => !srclsb
  | .quant _ => true
  | .gla _ => true
  | .xform _ => true

end Sys2Proof
end

