-- ==== Sys2Proof/Decode.lean ====
section
/-! DEFINITION. The command word: its fields (30_encoding.md R92), the decoder (R94 to R97), the
encoder, and the assembler's operand rules (R99, R100). -/

namespace Sys2Proof

/-- The command word of a CMD_HI write: `W = {w, CMD_LO}` (R30, R90). -/
def commandWord (hi lo : Word) : Cmd := hi ++ lo

/-- The fields of a command word (R92). -/
structure Fields where
  op : BitVec 4
  col : Bool
  fl : BitVec 3
  a : Byte
  b : Byte
  c : Byte
  d : Byte
  e : BitVec 24
  deriving DecidableEq, Repr

/-- Split a command word into its fields (R92). -/
def Fields.ofWord (w : Cmd) : Fields where
  op := w.extractLsb' 0 4
  col := w.getLsbD 4
  fl := w.extractLsb' 5 3
  a := w.extractLsb' 8 8
  b := w.extractLsb' 16 8
  c := w.extractLsb' 24 8
  d := w.extractLsb' 32 8
  e := w.extractLsb' 40 24

/-- Put fields into their places of a command word (R92). -/
def Fields.toWord (f : Fields) : Cmd :=
  f.e ++ f.d ++ f.c ++ f.b ++ f.a ++ f.fl ++ BitVec.ofBool f.col ++ f.op

/-- BPP8, flag FL0 (R92, R95). -/
def Fields.bpp8 (f : Fields) : Bool := f.fl.getLsbD 0

/-- SRCLSB, flag FL1 (R92, R95). -/
def Fields.srclsb (f : Fields) : Bool := f.fl.getLsbD 1

/-- PALQ, flag FL2 (R92, R95). -/
def Fields.palq (f : Fields) : Bool := f.fl.getLsbD 2

/-- Which fields an opcode uses; the others are reserved for it (R94). -/
structure Uses where
  col : Bool := false
  fl : Bool := false
  a : Bool := false
  b : Bool := false
  c : Bool := false
  d : Bool := false
  e : Bool := false
  deriving DecidableEq, Repr

/-- Every field that is not used is zero (R97). -/
def Fields.reservedZero (f : Fields) (u : Uses) : Bool :=
  (u.col || !f.col) && (u.fl || f.fl == 0) && (u.a || f.a == 0) && (u.b || f.b == 0) &&
    (u.c || f.c == 0) && (u.d || f.d == 0) && (u.e || f.e == 0)

/-- The opcode map (R94): the fields the opcode uses and the command they make; none for the
opcodes 0xB to 0xF (R96). -/
def Fields.command (f : Fields) : Option (Uses × Instr) :=
  match f.op.toNat with
  | 0x0 => some ({}, .nop)
  | 0x1 => some ({}, .clear)
  | 0x2 => some ({}, .flush)
  | 0x3 => some ({ col := true, a := true, b := true }, .point f.a f.b f.col)
  | 0x4 => some ({ col := true, a := true, b := true, c := true }, .hline f.a f.b f.c f.col)
  | 0x5 => some ({ col := true, a := true, b := true, c := true }, .vline f.a f.b f.c f.col)
  | 0x6 => some ({ col := true, a := true, b := true, c := true, d := true },
      .fill f.a f.b f.c f.d f.col)
  | 0x7 => some ({ fl := true, a := true, b := true, c := true, e := true },
      if f.bpp8 then .blit8 f.srclsb f.palq f.a f.b f.c f.e
      else .blit1 f.srclsb f.palq f.a f.b f.c f.e)
  | 0x8 => some ({ e := true }, .quant f.e)
  | 0x9 => some ({ a := true }, .gla f.a)
  | 0xA => some ({ a := true }, .xform f.a)
  | _ => none

/-- Why a command word is no command (R96, R97). -/
inductive DecodeError where
  /-- Opcode 0xB to 0xF (R96). -/
  | illegalOp
  /-- A reserved bit is 1, or BLIT with BPP8 = 1 and SRCLSB = 1 (R97). -/
  | rsvd
  deriving DecidableEq, Repr

/-- Decode a command word. The opcode check comes before the reserved-bit check (R96, R97). -/
def decode (w : Cmd) : Except DecodeError Instr :=
  match (Fields.ofWord w).command with
  | none => .error .illegalOp
  | some (u, i) =>
    if (Fields.ofWord w).reservedZero u && i.wellFormed then .ok i else .error .rsvd

/-- The BLIT flag field `{PALQ, SRCLSB, BPP8}` (R92, R95). -/
def blitFlags (bpp8 srclsb palq : Bool) : BitVec 3 :=
  BitVec.ofBool palq ++ BitVec.ofBool srclsb ++ BitVec.ofBool bpp8

/-- The fields of a command, unused fields zero (R94). -/
def Instr.fields : Instr → Fields
  | .nop => ⟨0x0, false, 0, 0, 0, 0, 0, 0⟩
  | .clear => ⟨0x1, false, 0, 0, 0, 0, 0, 0⟩
  | .flush => ⟨0x2, false, 0, 0, 0, 0, 0, 0⟩
  | .point x y color => ⟨0x3, color, 0, x, y, 0, 0, 0⟩
  | .hline x1 x2 y color => ⟨0x4, color, 0, x1, x2, y, 0, 0⟩
  | .vline x y1 y2 color => ⟨0x5, color, 0, x, y1, y2, 0, 0⟩
  | .fill x1 y1 x2 y2 color => ⟨0x6, color, 0, x1, y1, x2, y2, 0⟩
  | .blit1 srclsb palq x y count srcoff => ⟨0x7, false, blitFlags false srclsb palq, x, y, count, 0, srcoff⟩
  | .blit8 srclsb palq x y count srcoff => ⟨0x7, false, blitFlags true srclsb palq, x, y, count, 0, srcoff⟩
  | .quant rgb => ⟨0x8, false, 0, 0, 0, 0, 0, rgb⟩
  | .gla row => ⟨0x9, false, 0, row, 0, 0, 0, 0⟩
  | .xform b => ⟨0xA, false, 0, b, 0, 0, 0, 0⟩

/-- The command word of a command (R92, R94). -/
def encode (i : Instr) : Cmd := i.fields.toWord

/-- The instruction the decoder reads from the low `nbits` bits of `w` (bits above them are 0). The
command word is bits 63:0, bit 0 the least significant (R91); a word the decoder rejects gives none. -/
def decodeTableWord (nbits w : Nat) : Option Instr :=
  match decode (BitVec.ofNat 64 (w % 2 ^ nbits)) with
  | .ok i => some i
  | .error _ => none

/-! ### The assembler (R99, R100) -/

/-- An operand that must fit a `w`-bit field (R99: "An assembler rejects an operand that does not
fit its field"). -/
def operand (w n : Nat) : Option (BitVec w) :=
  if n < 2 ^ w then some (BitVec.ofNat w n) else none

/-- The colour operand "is `0` or `1`" (R99). -/
def colorOperand (n : Nat) : Option Bool :=
  (operand 1 n).map fun c => c.getLsbD 0

/-- Assemble one line (R99), pseudo-commands by their expansion (R100); none where the assembler
rejects the line. -/
def assemble : AsmLine → Option Instr
  | .nop => some .nop
  | .clear => some .clear
  | .flush => some .flush
  | .point x y c => do return .point (← operand 8 x) (← operand 8 y) (← colorOperand c)
  | .hline x1 x2 y c => do
      return .hline (← operand 8 x1) (← operand 8 x2) (← operand 8 y) (← colorOperand c)
  | .vline x y1 y2 c => do
      return .vline (← operand 8 x) (← operand 8 y1) (← operand 8 y2) (← colorOperand c)
  | .fill x1 y1 x2 y2 c => do
      return .fill (← operand 8 x1) (← operand 8 y1) (← operand 8 x2) (← operand 8 y2)
        (← colorOperand c)
  | .blit bpp lsb pq x y count srcoff => do
      let x ← operand 8 x
      let y ← operand 8 y
      let count ← operand 8 count
      let srcoff ← operand 24 srcoff
      if bpp = 1 then some (.blit1 lsb pq x y count srcoff)
      else if bpp = 8 ∧ lsb = false then some (.blit8 false pq x y count srcoff)
      else none
  | .quant rgb => do return .quant (← operand 24 rgb)
  | .gla row => do return .gla (← operand 8 row)
  | .xform b => do return .xform (← operand 8 b)
  | .init => some .clear
  | .set x y => do return .point (← operand 8 x) (← operand 8 y) true
  | .reset x y => do return .point (← operand 8 x) (← operand 8 y) false
  | .refresh => some .flush

end Sys2Proof
end

