-- ==== Sys2Proof/Machine/State.lean ====
section
/-! DEFINITION. The state of the block (10_state.md, 70_reset_and_hazards.md R231), the events of its
environment, and the reasons a step could stop. -/

namespace Sys2Proof.Machine

/-- The outcome of a command, as STATUS.ERR records it (60_exceptions.md R210). Codes 8 to 15 are
never produced. -/
inductive ErrCode where
  /-- 0: normal completion. -/
  | ok
  /-- 1: opcode 0xB to 0xF (R96). -/
  | illegalOp
  /-- 2: a reserved bit is 1 (R97). -/
  | rsvd
  /-- 3: a coordinate out of range or a reversed range (R113, R131, R162). -/
  | bounds
  /-- 4: BLIT, 8 bits per pixel, offset no multiple of 8 (R137). -/
  | srcAlign
  /-- 5: BLIT beyond the declared source (R138). -/
  | srcRange
  /-- 6: BLIT index beyond the declared palette (R139). -/
  | palRange
  /-- 7: a bus request completed with ERR (R179, R189). -/
  | bus
  deriving DecidableEq, Repr

/-- The engine (R49): idle, or executing the accepted command word. -/
inductive Eng where
  | idle
  | exec (w : Cmd)
  deriving DecidableEq, Repr

/-- The serializer's phase (R49, R177). -/
inductive Phase where
  | idle
  | cmd
  | address
  | data
  | trailer
  deriving DecidableEq, Repr

/-- A request of the bus channel (R23). -/
inductive BusReq where
  | assert
  | byte (b : Byte)
  | deassert
  deriving DecidableEq, Repr

/-- The outcome the bus collaborator gives a request (R23, R170). -/
inductive BusOutcome where
  | ok
  | err
  deriving DecidableEq, Repr

/-- The transaction in progress: none, the clear transaction (R178), an update transaction of a FLUSH
(R180), or the refresh transaction that ends a FLUSH (R183). -/
inductive Job where
  | none
  | clear
  | update
  | refresh
  deriving DecidableEq, Repr

/-- The flush cursor (R49): rows already sent, the rows of the update transaction in progress, and
the groups still to send. Log entry 16. -/
structure Cursor where
  sent : List Nat
  current : List Nat
  later : List (List Nat)
  deriving DecidableEq, Repr

/-- One event of the environment: an access of the host (R22), an answer of the bus collaborator
(R170), a turn of the engine, or the reset input (R230). Log entry 1. -/
inductive Event where
  | hostRead (a : HostAddr)
  | hostWrite (a : HostAddr) (w : Word)
  | busDone (o : BusOutcome)
  | engine
  | reset
  deriving DecidableEq, Repr

/-- A memory of bytes: (address, byte) pairs in rising order of address. -/
abbrev Memory := List Host.Cell

/-- The palette memory: (index, entry) pairs in rising order of index (R45). -/
abbrev Palette := List (Nat × Rgb)

/-- The state of the block. STATUS.BUSY is not a field: it is 1 exactly while `eng` is EXEC (R49).
Reserved register bits are not stored: they read 0 and ignore writes (R41). Log entry 19. -/
structure State where
  /-- The implementation's parameters (R8): the argument the model takes. No step changes it. Log
  entry 7. -/
  params : Config.Params
  /-- CTRL.COALESCE (R26). -/
  coalesce : Bool
  /-- STATUS.ERR (R27). -/
  err : ErrCode
  /-- STATUS.OVR (R27). -/
  ovr : Bool
  /-- RESULT (R28). -/
  result : Word
  /-- CMD_LO (R29). -/
  cmdLo : Word
  /-- SRC_LEN.LEN (R34). -/
  srcLen : BitVec 13
  /-- PAL_LEN.LEN (R35). -/
  palLen : BitVec 9
  /-- OPC: TRB, PAD, CLR, UPD (R31). -/
  opc : Word
  /-- NOPB: NOP1, NOP0 (R32). -/
  nopb : BitVec 16
  /-- TRAIL.ROWLEN (R33). -/
  rowLen : BitVec 3
  /-- TRAIL.ENDLEN (R33). -/
  endLen : BitVec 3
  /-- FB (R42): byte `k` of row `r` at address `r * ROWBYTES + k`; an unlisted byte is 0x00. -/
  fb : Memory
  /-- DIRTY (R43): bit `r` is DIRTY[r]; bits from HEIGHT on are 0 (R37). -/
  dirty : BitVec Config.dirtyBits
  /-- PAL (R45): an unlisted entry has not been written since reset. -/
  pal : Palette
  /-- SRC (R46): an unlisted byte has not been written since reset. -/
  src : Memory
  /-- `eng` (R49). -/
  eng : Eng
  /-- `phase` (R49, R177). -/
  phase : Phase
  /-- `cs_open` (R49, R173). Log entry 8. -/
  csOpen : Bool
  /-- The bus request being presented, if any (R23, R49). -/
  pending : Option BusReq
  /-- The transaction in progress (R173). -/
  job : Job
  /-- The bytes of the transaction not yet presented, each with the phase it is sent in (R173, R177). -/
  left : List (Phase × Byte)
  /-- The transaction has failed; its DEASSERT's outcome is ignored (R173). -/
  failed : Bool
  /-- The flush cursor (R49, R185). -/
  cursor : Cursor
  /-- MODEL: the events of the environment still to come. Log entry 1. -/
  env : List Event
  /-- MODEL: the completed bus requests with their outcomes, newest first (R7). Log entry 14. -/
  busLog : List (BusReq × BusOutcome)
  /-- MODEL: the host reads with the words they returned, newest first (R22). Log entry 14. -/
  hostLog : List (HostAddr × Word)
  /-- MODEL: how many host reads have returned an unspecified value (R241). Log entry 6. -/
  freeCount : Nat
  /-- MODEL: how many resets there have been (R233). Log entry 5. -/
  resets : Nat
  deriving DecidableEq, Repr

/-- The machine after reset, of an implementation with parameters `p` (R8, R231, R232, R233); the model's
own fields as log entry 15 says, the flush cursor as log entry 16. -/
def State.resetOf (p : Config.Params) : State where
  params := p
  coalesce := true
  err := .ok
  ovr := false
  result := 0x00000000
  cmdLo := 0x00000000
  srcLen := 0
  palLen := 0
  opc := 0x00#8 ++ 0x00#8 ++ p.rstOpcClear ++ p.rstOpcUpdate
  nopb := 0x0000
  rowLen := 1
  endLen := 2
  fb := []
  dirty := 0
  pal := []
  src := []
  eng := .idle
  phase := .idle
  csOpen := false
  pending := none
  job := .none
  left := []
  failed := false
  cursor := ⟨[], [], []⟩
  env := []
  busLog := []
  hostLog := []
  freeCount := 0
  resets := 0

/-- This hardware after reset (R8, R231). -/
def State.reset : State := State.resetOf Config.thisHardware

/-- Why the machine could stop with a fault: for no reason. The spec has none (93_implementation_defined.md:
"No case of this block is `fault` in the sense of stopping the model: every error is a recorded
code"), so the type has no constructor and nothing raises one (safe). Log entry 18. -/
inductive Fault : Type
  deriving DecidableEq, Repr

/-- Why the machine could refuse a command. -/
inductive Refusal where
  /-- Raised by `exec` for a command that has no meaning yet; every command has its meaning, so
  nothing raises it (safe). -/
  | notModelled (mnemonic : String)
  deriving DecidableEq, Repr

/-- The outcome of a meaning or a step. -/
abbrev Result := Host.Outcome State Fault Refusal

end Sys2Proof.Machine
end

