-- ==== Sys2Proof/Machine/Flags.lean ====
section
/-! DEFINITION. The status flags: BUSY, ERR, OVR (10_state.md R27, R48) and the DIRTY flags (R43). -/

namespace Sys2Proof.Machine

/-- The code of an outcome in STATUS.ERR (R210). -/
def ErrCode.code : ErrCode → BitVec 4
  | .ok => 0
  | .illegalOp => 1
  | .rsvd => 2
  | .bounds => 3
  | .srcAlign => 4
  | .srcRange => 5
  | .palRange => 6
  | .bus => 7

/-- STATUS.BUSY: 1 exactly while the engine is EXEC (R27, R49). -/
def State.busy (s : State) : Bool :=
  match s.eng with
  | .idle => false
  | .exec _ => true

/-- The STATUS word: BUSY bit 0, ERR bits 7:4, OVR bit 8, the rest 0 (R27). -/
def State.status (s : State) : Word :=
  BitVec.setWidth 32 (BitVec.ofBool s.ovr ++ s.err.code ++ 0#3 ++ BitVec.ofBool s.busy)

/-- Set STATUS.OVR: a guarded write was dropped (R27, R240). -/
def State.markOverrun (s : State) : State := { s with ovr := true }

/-- The host's write to STATUS: W1C on bit 8, every other bit ignored (R27). -/
def State.writeStatus (s : State) (w : Word) : State := { s with ovr := s.ovr && !w.getLsbD 8 }

/-- DIRTY[r] (R43). -/
def State.isDirty (s : State) (r : Nat) : Bool := s.dirty.getLsbD r

/-- The rows whose DIRTY flag is 1, in increasing order (R185). -/
def State.dirtyRows (s : State) : List Nat :=
  (List.range s.params.height).filter fun r => s.isDirty r

/-- Set the flags of rows. -/
def setRows (d : BitVec Config.dirtyBits) (rows : List Nat) : BitVec Config.dirtyBits :=
  rows.foldl (fun d r => d ||| BitVec.twoPow Config.dirtyBits r) d

/-- The flags of all HEIGHT rows. -/
def allRows (p : Config.Params) : BitVec Config.dirtyBits := BitVec.setWidth _ (BitVec.allOnes p.height)

/-- Clear the flags of rows. -/
def clearRows (d : BitVec Config.dirtyBits) (rows : List Nat) : BitVec Config.dirtyBits :=
  rows.foldl (fun d r => d &&& ~~~BitVec.twoPow Config.dirtyBits r) d

/-- DIRTY[r] <- 1 (R112). -/
def State.markDirty (s : State) (r : Nat) : State := { s with dirty := setRows s.dirty [r] }

/-- DIRTY[r] <- 0 for the rows of one update transaction, together (R188). -/
def State.markClean (s : State) (rows : List Nat) : State :=
  { s with dirty := clearRows s.dirty rows }

/-- The first error in the order of the list; OK when none applies (R213). -/
def firstError : List (Bool × ErrCode) → ErrCode
  | [] => .ok
  | (applies, code) :: rest => if applies then code else firstError rest

end Sys2Proof.Machine
end

