-- ==== Sys2Proof/Machine/Lookup.lean ====
section
/-! DEFINITION. The lookup unit and the quantizer (41_quantize_lookup.md R150 to R157). -/

namespace Sys2Proof.Machine

/-- `rev8(b)`: OR over i in 0..7 of `((b >> (7 - i)) & 1) << i` (R150). -/
def rev8 (b : Byte) : Byte :=
  (List.range 8).foldl (fun acc i => acc ||| (((b >>> (7 - i)) &&& 1#8) <<< i)) 0#8

/-- `xform(b) = ~rev8(b)`, the byte sent for framebuffer byte `b` (R151). -/
def xform (b : Byte) : Byte := rev8 b ^^^ 0xFF#8

/-- `gla(r) = rev8(r + 1)`, the gate-line address of row `r` (R152). -/
def gla (r : Nat) : Byte := rev8 (BitVec.ofNat 8 (r + 1))

/-- R of a colour laid out 0xRRGGBB (R72, R155). -/
def red (rgb : Rgb) : Nat := (rgb.extractLsb' 16 8).toNat

/-- G of a colour (R72, R155). -/
def green (rgb : Rgb) : Nat := (rgb.extractLsb' 8 8).toNat

/-- B of a colour (R72, R155). -/
def blue (rgb : Rgb) : Nat := (rgb.extractLsb' 0 8).toNat

/-- The weighted sum `S` (R155). -/
def lumaSum (rgb : Rgb) : Nat := red rgb * 19661 + green rgb * 38666 + blue rgb * 7209

/-- `luma(rgb) = S / 65536` (R155). -/
def luma (rgb : Rgb) : Nat := lumaSum rgb / 65536

/-- `quant(rgb) = S / (65536 * 128)`, 0 or 1 (R155). -/
def quant (rgb : Rgb) : Nat := lumaSum rgb / (65536 * 128)

end Sys2Proof.Machine
end

