-- ==== Sys2Proof/Machine/Memory.lean ====
section
/-! DEFINITION. The memories as lists in rising order: finding, putting and deleting an entry, the
framebuffer's bytes and rows (10_state.md R42, 00_scope.md R12), and the canonical form. Log entry 12. -/

namespace Sys2Proof.Machine

/-- The entry at `x`, if one is listed. -/
def find {α : Type} : List (Nat × α) → Nat → Option α
  | [], _ => none
  | (a, v) :: m, x => if x = a then some v else find m x

/-- List `v` at `x`, in rising order. -/
def put {α : Type} : List (Nat × α) → Nat → α → List (Nat × α)
  | [], x, v => [(x, v)]
  | (a, u) :: m, x, v =>
    if x < a then (x, v) :: (a, u) :: m
    else if x = a then (x, v) :: m
    else (a, u) :: put m x v

/-- Take the entry at `x` off the list. -/
def del {α : Type} : List (Nat × α) → Nat → List (Nat × α)
  | [], _ => []
  | (a, u) :: m, x => if x = a then del m x else (a, u) :: del m x

/-! ### The framebuffer -/

/-- Address of byte `k` of row `r` (R40, R42). -/
def fbOffset (p : Config.Params) (r k : Nat) : Nat := r * p.rowBytes + k

/-- The framebuffer byte at address `o`; 0x00 where nothing is listed (R232). -/
def fbRead (m : Memory) (o : Nat) : Byte := (find m o).getD 0

/-- Store a framebuffer byte; a 0x00 is not listed. -/
def fbWrite (m : Memory) (o : Nat) (b : Byte) : Memory :=
  if b = 0 then del m o else put m o b

/-- Pixel `FBbit(r, c)`: bit `c % 8` of byte `c / 8` of row `r` (R11, R42, R73). -/
def fbBit (p : Config.Params) (m : Memory) (r c : Nat) : Bool :=
  (fbRead m (fbOffset p r (c / 8))).getLsbD (c % 8)

/-- `MemRead(FB, r, ROWBYTES)` (R12). -/
def readRow (p : Config.Params) (m : Memory) (r : Nat) : List Byte :=
  (List.range p.rowBytes).map fun k => fbRead m (fbOffset p r k)

/-- Store bytes at consecutive addresses from `o` on. -/
def writeBytes (m : Memory) (o : Nat) : List Byte → Memory
  | [] => m
  | b :: bs => writeBytes (fbWrite m o b) (o + 1) bs

/-- `MemWrite(FB, r, ROWBYTES, v)` (R12). -/
def writeRow (p : Config.Params) (m : Memory) (r : Nat) (v : List Byte) : Memory :=
  writeBytes m (fbOffset p r 0) v

/-! ### SRC and PAL -/

/-- `MemRead(SRC, j, 1)` (R12): the byte the host wrote since reset, else a free value (R233). -/
def State.srcByte (s : State) (j : Nat) : Byte := (find s.src j).getD (Config.srcAtReset s.resets j)

/-- `MemRead(PAL, i, 3)` (R12): the entry the host wrote since reset, else a free value (R233). -/
def State.palEntry (s : State) (i : Nat) : Rgb := (find s.pal i).getD (Config.palAtReset s.resets i)

/-! ### The canonical form -/

/-- Addresses strictly rising, all below the memory's size. -/
abbrev rising {α : Type} (size : Nat) (m : List (Nat × α)) : Prop :=
  m.Pairwise (fun p q => p.1 < q.1) ∧ ∀ p ∈ m, p.1 < size

/-- The canonical form of the framebuffer: rising, inside HEIGHT × ROWBYTES, and no entry equal to
what an unlisted address reads as. -/
abbrev Memory.wf (p : Config.Params) (m : Memory) : Prop :=
  rising (p.height * p.rowBytes) m ∧ ∀ p ∈ m, p.2 ≠ 0

/-- The canonical form of the source buffer. What an unlisted byte holds is open (R233), so no entry
equals it. -/
abbrev srcWf (m : Memory) : Prop := rising Config.srcBytes m

/-- The canonical form of the palette. -/
abbrev palWf (m : Palette) : Prop := rising Config.palEntries m

end Sys2Proof.Machine
end

