-- ==== Sys2Proof/Machine/Operands.lean ====
section
/-! DEFINITION. What the operands of the commands stand for: columns and rows and their bounds
(40_raster.md R113, R131), row masks (R110), and BLIT's source cursor, indices and colours (R132 to R139).
Every operand is an unsigned number (30_encoding.md R93). -/

namespace Sys2Proof.Machine

/-! ### Bounds -/

/-- A column, or a range of columns, outside the row or reversed (R113). -/
def badColumns (p : Config.Params) (x1 x2 : Nat) : Bool := decide (x1 > x2) || decide (x2 ≥ p.width)

/-- A row, or a range of rows, outside the framebuffer or reversed (R113). -/
def badRows (p : Config.Params) (y1 y2 : Nat) : Bool := decide (y1 > y2) || decide (y2 ≥ p.height)

/-- The rows `y1 .. y2`, in increasing order. -/
def rowRange (y1 y2 : Nat) : List Nat := (List.range (y2 + 1 - y1)).map (y1 + ·)

/-! ### Row masks -/

/-- Byte `k` of a row mask: OR over b in 0..7 of `1 << b` where `x1 ≤ 8k + b ≤ x2` (R110). -/
def maskByte (x1 x2 k : Nat) : Byte :=
  (List.range 8).foldl
    (fun acc b => if x1 ≤ 8 * k + b ∧ 8 * k + b ≤ x2 then acc ||| (1#8 <<< b) else acc) 0#8

/-- `rowmask(x1, x2)` (R110). -/
def rowmask (p : Config.Params) (x1 x2 : Nat) : List Byte :=
  (List.range p.rowBytes).map (maskByte x1 x2)

/-- One byte of `compose`: bits under the mask become the colour, the others keep their value
(R111). -/
def composeByte (color : Bool) (old mask : Byte) : Byte :=
  if color then old ||| mask else old &&& ~~~mask

/-- `row[c / 8] <- (row[c / 8] & ~(1 << (c % 8))) | (color << (c % 8))` (R136, R140). -/
def setPixel (row : List Byte) (c : Nat) (color : Bool) : List Byte :=
  row.modify (c / 8) fun b =>
    (b &&& ~~~(1#8 <<< (c % 8))) ||| (BitVec.setWidth 8 (BitVec.ofBool color) <<< (c % 8))

/-- Write colours into consecutive columns from `c` on (R136). -/
def setPixels (row : List Byte) (c : Nat) : List Bool → List Byte
  | [] => row
  | color :: colors => setPixels (setPixel row c color) (c + 1) colors

/-! ### BLIT -/

/-- The operands of a BLIT as numbers and flags (R130). -/
structure Blit where
  /-- BPP8 (R95). -/
  bpp8 : Bool
  /-- SRCLSB (R95). -/
  srclsb : Bool
  /-- PALQ (R95). -/
  palq : Bool
  x : Nat
  y : Nat
  /-- count. -/
  n : Nat
  /-- sourceBitOffset. -/
  off : Nat
  deriving DecidableEq, Repr

/-- bitsPerPixel: 8 if BPP8, else 1 (R130). -/
def Blit.bpp (b : Blit) : Nat := if b.bpp8 then 8 else 1

/-- Source bit position of pixel `i`: `p_i = off + i * bpp` (R132). -/
def Blit.srcPos (b : Blit) (i : Nat) : Nat := b.off + i * b.bpp

/-- `srcidx(p)`: the index at source bit position `p` (R133). -/
def State.srcIdx (s : State) (b : Blit) (p : Nat) : Nat :=
  if b.bpp8 then (s.srcByte (p / 8)).toNat
  else
    ((s.srcByte (p / 8) >>> (if b.srclsb then p % 8 else 7 - p % 8)) &&& 1#8).toNat

/-- The indices of all pixels, `idx[i] = srcidx(off + i * bpp)` (R140). -/
def State.blitIdx (s : State) (b : Blit) : List Nat :=
  (List.range b.n).map fun i => s.srcIdx b (b.srcPos i)

/-- Colour of a pixel with index `idx`: the palette entry quantized, or with PALQ its low byte
not 0 (R134, R135). -/
def State.blitColor (s : State) (b : Blit) (idx : Nat) : Bool :=
  if b.palq then (s.palEntry idx).extractLsb' 0 8 != 0 else quant (s.palEntry idx) == 1

/-- The error of a BLIT, in the order BOUNDS, SRC_ALIGN, SRC_RANGE, PAL_RANGE (R130, R131, R137 to
R139, R213). -/
def State.blitError (s : State) (b : Blit) : ErrCode :=
  firstError [
    (decide (b.x ≥ s.params.width) || decide (b.y ≥ s.params.height)
      || decide (b.x + b.n > s.params.width), .bounds),
    (b.bpp8 && b.off % 8 != 0, .srcAlign),
    (decide (b.off + b.n * b.bpp > 8 * s.srcLen.toNat), .srcRange),
    ((s.blitIdx b).any fun idx => decide (idx ≥ s.palLen.toNat), .palRange)]

end Sys2Proof.Machine
end

