-- ==== Sys2Proof/Machine/Ops.lean ====
section
/-! DEFINITION. The operations the commands share: completing a command, raising an error, composing
rows, writing RESULT. -/

namespace Sys2Proof.Machine

/-! ### Completion and errors -/

/-- The end of a command: `STATUS.ERR <- code`, `STATUS.BUSY <- 0`, `eng <- IDLE` in one step (R90). -/
def State.finish (s : State) (code : ErrCode) : State := { s with err := code, eng := .idle }

/-- Normal completion: code 0 (R90). -/
def State.complete (s : State) : State := s.finish .ok

/-- TAKING AN EXCEPTION. `raise Error(code)` (R12, R212, R214): the command ends, STATUS.ERR records the
code, the block goes idle, and nothing else changes: no other state is saved, no mode changes and
control goes nowhere. There is no return from it (R216). -/
def State.raiseError (s : State) (code : ErrCode) : State := s.finish code

/-- A command word that does not decode: ILLEGAL_OP or RSVD, and nothing else changes (R96, R97). -/
def State.rejectWord (s : State) : DecodeError → State
  | .illegalOp => s.raiseError .illegalOp
  | .rsvd => s.raiseError .rsvd

/-- A command with checks: with code OK it has its effect and completes, with any other code it
raises that error and has no effect (R113, R114, R212). -/
def State.checked (s : State) (code : ErrCode) (effect : State → State) : Result :=
  if code = .ok then .next (effect s).complete else .next (s.raiseError code)

/-! ### RESULT -/

/-- `RESULT <- w` (R28). -/
def State.setResult (s : State) (w : Word) : State := { s with result := w }

/-! ### Rows -/

/-- `compose(r, mask, color)` on the framebuffer: one read-modify-write of the row (R111, R78). -/
def compose (p : Config.Params) (m : Memory) (r : Nat) (mask : List Byte) (color : Bool) : Memory :=
  writeRow p m r (List.zipWith (composeByte color) (readRow p m r) mask)

/-- Compose row `r` and mark it dirty (R111, R112). -/
def State.drawRow (mask : List Byte) (color : Bool) (s : State) (r : Nat) : State :=
  { s with fb := compose s.params s.fb r mask color }.markDirty r

/-- Compose and mark rows in the order given (R114). -/
def State.drawRows (s : State) (mask : List Byte) (color : Bool) (rows : List Nat) : State :=
  rows.foldl (State.drawRow mask color) s

/-- The effect of a BLIT whose checks have passed: the row is read, the pixels are written at increasing
columns, the row is written back, and DIRTY is set when there is a pixel (R136, R140, R141). -/
def State.blitRow (b : Blit) (s : State) : State :=
  let row := setPixels (readRow s.params s.fb b.y) b.x ((s.blitIdx b).map (s.blitColor b))
  let s := { s with fb := writeRow s.params s.fb b.y row }
  if b.n > 0 then s.markDirty b.y else s

/-- BLIT (R140): the checks, then the row. -/
def State.blit (s : State) (b : Blit) : Result := s.checked (s.blitError b) (State.blitRow b)

end Sys2Proof.Machine
end

