-- ==== Sys2Proof/Machine/Bus.lean ====
section
/-! DEFINITION. The serializer and the flush sequencer (42_serializer.md): the byte sequences of the
transactions, and the engine's moves on the bus channel, one request at a time. -/

namespace Sys2Proof.Machine

/-! ### Register fields of the serializer -/

/-- OPC.UPD (R31). -/
def State.upd (s : State) : Byte := s.opc.extractLsb' 0 8

/-- OPC.CLR (R31). -/
def State.clr (s : State) : Byte := s.opc.extractLsb' 8 8

/-- OPC.PAD (R31). -/
def State.pad (s : State) : Byte := s.opc.extractLsb' 16 8

/-- OPC.TRB (R31). -/
def State.trb (s : State) : Byte := s.opc.extractLsb' 24 8

/-- NOPB.NOP0 (R32). -/
def State.nop0 (s : State) : Byte := s.nopb.extractLsb' 0 8

/-- NOPB.NOP1 (R32). -/
def State.nop1 (s : State) : Byte := s.nopb.extractLsb' 8 8

/-! ### The bus channel as signals (R23) -/

/-- `bus_req`: a request is presented. -/
def State.busReq (s : State) : Bool := s.pending.isSome

/-- `bus_kind`: 0 = ASSERT, 1 = BYTE, 2 = DEASSERT; 3 is never driven. -/
def BusReq.kind : BusReq → BitVec 2
  | .assert => 0
  | .byte _ => 1
  | .deassert => 2

/-- `bus_byte`, meaningful only for BYTE. -/
def BusReq.byte? : BusReq → Option Byte
  | .assert => none
  | .byte b => some b
  | .deassert => none

/-! ### Byte sequences, each byte with the phase it is sent in (R177) -/

/-- The clear transaction `[OPC.CLR, OPC.PAD]` (R178). -/
def State.clearSeq (s : State) : List (Phase × Byte) := [(.cmd, s.clr), (.cmd, s.pad)]

/-- The refresh transaction `[NOPB.NOP0, NOPB.NOP1]` (R183). -/
def State.refreshSeq (s : State) : List (Phase × Byte) := [(.cmd, s.nop0), (.cmd, s.nop1)]

/-- `trailer(j, m)`: ENDLEN copies of TRB after the last row, ROWLEN after the others (R181). -/
def State.trailerSeq (s : State) (last : Bool) : List (Phase × Byte) :=
  List.replicate (if last then s.endLen.toNat else s.rowLen.toNat) (.trailer, s.trb)

/-- The address and the data bytes of row `r` (R180, R184). -/
def State.payloadSeq (s : State) (r : Nat) : List (Phase × Byte) :=
  (.address, gla r) :: (readRow s.params s.fb r).map fun b => (.data, xform b)

/-- The rows of an update transaction: address, data and trailer of each (R180). -/
def State.rowsSeq (s : State) : List Nat → List (Phase × Byte)
  | [] => []
  | [r] => s.payloadSeq r ++ s.trailerSeq true
  | r :: r' :: rs => s.payloadSeq r ++ s.trailerSeq false ++ s.rowsSeq (r' :: rs)

/-- `seq(L)` of an update transaction (R180, R182). -/
def State.updateSeq (s : State) (rows : List Nat) : List (Phase × Byte) :=
  (.cmd, s.upd) :: s.rowsSeq rows

/-! ### Grouping (R186) -/

/-- The maximal runs of consecutive row numbers. -/
def joinRuns : List Nat → List (List Nat)
  | [] => []
  | r :: rs =>
    match joinRuns rs with
    | (q :: run) :: runs => if q = r + 1 then (r :: q :: run) :: runs else [r] :: (q :: run) :: runs
    | runs => [r] :: runs

/-- `runs(rows, coalesce)` (R186, R187). -/
def runs (rows : List Nat) (coalesce : Bool) : List (List Nat) :=
  if coalesce then joinRuns rows else rows.map fun r => [r]

/-! ### The engine's moves on the bus channel -/

/-- Open a transaction: CmdPhase, chip-select window open, the ASSERT request presented (R173).
Log entry 8. -/
def State.openTxn (s : State) (job : Job) (seq : List (Phase × Byte)) : State :=
  { s with phase := .cmd, csOpen := true, pending := some .assert, job := job, left := seq,
           failed := false }

/-- Present the next byte in its phase, or DEASSERT when no byte is left (R173, R177), which
keeps the phase. Log entry 9. -/
def State.presentNext (s : State) : State :=
  match s.left with
  | (phase, b) :: left => { s with phase := phase, pending := some (.byte b), left := left }
  | [] => { s with pending := some .deassert }

/-- The transaction has failed: no more bytes, DEASSERT is presented and its outcome will be ignored
(R173). -/
def State.presentAbort (s : State) : State :=
  { s with pending := some .deassert, left := [], failed := true }

/-- Close the transaction: phase Idle, window closed, no request presented (R173). -/
def State.closeTxn (s : State) : State :=
  { s with phase := .idle, csOpen := false, pending := none, job := .none, left := [],
           failed := false }

/-- The flush sequencer's next transaction: an update for the next group, or the refresh when no group
is left (R185). -/
def State.nextGroup (s : State) : State :=
  match s.cursor.later with
  | rows :: later =>
    { s with cursor := { s.cursor with current := rows, later := later } }.openTxn .update
      (s.updateSeq rows)
  | [] => { s with cursor := { s.cursor with current := [] } }.openTxn .refresh s.refreshSeq

/-- The rows of the update transaction in progress have been sent: their flags are cleared together
(R188) and the cursor counts them as sent. -/
def State.groupSent (s : State) : State :=
  { s.markClean s.cursor.current with
    cursor := { s.cursor with sent := s.cursor.sent ++ s.cursor.current, current := [] } }

/-- A FLUSH has ended; the cursor is put back. -/
def State.endFlush (s : State) : State := { s with cursor := ⟨[], [], []⟩ }

/-- CLEAR's end: FB is zeroed; DIRTY is cleared on success and set on failure (R179). -/
def State.endClear (s : State) (o : BusOutcome) : State :=
  match o with
  | .ok => { s with fb := [], dirty := 0 }.complete
  | .err => { s with fb := [], dirty := allRows s.params }.raiseError .bus

/-- The command goes on after its transaction has returned `o` (R179, R185, R188, R189). -/
def State.afterTxn (s : State) (job : Job) (o : BusOutcome) : State :=
  match job, o with
  | .none, _ => s
  | .clear, o => s.endClear o
  | .update, .ok => s.groupSent.nextGroup
  | .update, .err => s.endFlush.raiseError .bus
  | .refresh, .ok => s.endFlush.complete
  | .refresh, .err => s.endFlush.raiseError .bus

/-- What a transaction returns when its DEASSERT completes with `o`: ERR when it has failed before, else
`o` (R173). -/
def State.txnOutcome (s : State) (o : BusOutcome) : BusOutcome := if s.failed then .err else o

/-- Log a completed request (R7). -/
def State.logBus (s : State) (req : BusReq) (o : BusOutcome) : State :=
  { s with busLog := (req, o) :: s.busLog }

/-- The collaborator completes the presented request with `o`, and the engine goes on to its next
request or to the end of the command (R170, R173). -/
def State.onOutcome (s : State) (o : BusOutcome) : State :=
  match s.pending with
  | none => s
  | some .deassert =>
    ((s.logBus .deassert o).closeTxn).afterTxn s.job (s.txnOutcome o)
  | some req =>
    match o with
    | .ok => (s.logBus req o).presentNext
    | .err => (s.logBus req o).presentAbort

/-- The engine goes on for as long as a request is presented and the environment's next event answers
it. Log entry 2. -/
def State.serve : List Event → State → State
  | .busDone o :: env, s =>
    match s.pending with
    | none => { s with env := .busDone o :: env }
    | some _ => State.serve env (s.onOutcome o)
  | env, s => { s with env := env }

/-- Serve the presented requests from the events at hand (R170, R172). -/
def State.drain (s : State) : State := State.serve s.env s

/-- CLEAR begins: its one transaction (R179). -/
def State.beginClear (s : State) : State := s.openTxn .clear s.clearSeq

/-- FLUSH begins: the groups of the dirty rows, then their transactions (R185). -/
def State.beginFlush (s : State) : State :=
  { s with cursor := ⟨[], [], runs s.dirtyRows s.coalesce⟩ }.nextGroup

end Sys2Proof.Machine
end

