-- ==== Sys2Proof/Machine/HostPort.lean ====
section
/-! DEFINITION. The host port: the address map, reads and writes of every register and window
(10_state.md R22 to R41, 20_memory.md R71, R76, 70_reset_and_hazards.md R240, R241), and the acceptance of a
command (30_encoding.md R90). -/

namespace Sys2Proof.Machine

/-- What a host address selects (R25). -/
inductive Target where
  | id
  | ctrl
  | status
  | result
  | cmdLo
  | cmdHi
  | srcLen
  | palLen
  | opc
  | nopb
  | trail
  /-- DIRTYj. -/
  | dirty (j : Nat)
  /-- Word `i` of the PAL window. -/
  | pal (i : Nat)
  /-- Word `k` of the SRCBUF window. -/
  | src (k : Nat)
  /-- Word `k` of the FB window. -/
  | fb (k : Nat)
  | unmapped
  deriving DecidableEq, Repr

/-- The word a host address goes to: `a & 0x3FFC` (R22, R76). -/
def wordAddress (a : HostAddr) : Nat := (a &&& 0x3FFC#14).toNat

/-- The registers at offsets 0x000 to 0x028, by word number; none beyond (R25). -/
def registerTarget : Nat → Target
  | 0 => .id
  | 1 => .ctrl
  | 2 => .status
  | 3 => .result
  | 4 => .cmdLo
  | 5 => .cmdHi
  | 6 => .srcLen
  | 7 => .palLen
  | 8 => .opc
  | 9 => .nopb
  | 10 => .trail
  | _ => .unmapped

/-- The address map by word offset (R25). -/
def targetAt (o : Nat) : Target :=
  if o < 0x040 then registerTarget (o / 4)
  else if o < 0x060 then .dirty ((o - 0x040) / 4)
  else if o < 0x400 then .unmapped
  else if o < 0x800 then .pal ((o - 0x400) / 4)
  else if o < 0x1000 then .unmapped
  else if o < 0x2000 then .src ((o - 0x1000) / 4)
  else .fb ((o - 0x2000) / 4)

/-- What a host address selects (R22, R25). -/
def target (a : HostAddr) : Target := targetAt (wordAddress a)

/-- The targets whose writes are guarded (R25, R240). -/
def Target.guarded : Target → Bool
  | .ctrl => true
  | .cmdLo => true
  | .cmdHi => true
  | .srcLen => true
  | .palLen => true
  | .opc => true
  | .nopb => true
  | .trail => true
  | .pal _ => true
  | .src _ => true
  | .id => false
  | .status => false
  | .result => false
  | .dirty _ => false
  | .fb _ => false
  | .unmapped => false

/-- The targets whose reads are unspecified while BUSY = 1 (R241). -/
def Target.busyUnspecified : Target → Bool
  | .result => true
  | .dirty _ => true
  | .fb _ => true
  | _ => false

/-! ### Reads -/

/-- ID: ROWBYTES, HEIGHT, 0x00, revision (R36). -/
def idWord (p : Config.Params) : Word :=
  Config.revision ++ 0x00#8 ++ BitVec.ofNat 8 p.height ++ BitVec.ofNat 8 p.rowBytes

/-- The TRAIL word: ROWLEN bits 2:0, ENDLEN bits 6:4, the rest 0 (R33). -/
def State.trail (s : State) : Word := BitVec.setWidth 32 (s.endLen ++ 0#1 ++ s.rowLen)

/-- DIRTYj: bit `i` is DIRTY[32j + i] where 32j + i < HEIGHT, else 0 (R37). -/
def State.dirtyWord (s : State) (j : Nat) : Word :=
  BitVec.setWidth 32 ((s.dirty &&& allRows s.params) >>> (32 * j))

/-- Four bytes as a word, the byte at the lowest address in bits 7:0 (R71). -/
def wordOfBytes (byte : Nat → Byte) : Word := byte 3 ++ byte 2 ++ byte 1 ++ byte 0

/-- Byte `n` of a word: bits 8n+7 down to 8n (R71). -/
def byteOfWord (w : Word) (n : Nat) : Byte := w.extractLsb' (8 * n) 8

/-- Byte `o` of the FB window; 0 beyond the framebuffer (R40). -/
def State.fbWindowByte (s : State) (o : Nat) : Byte :=
  if o < s.params.height * s.params.rowBytes then fbRead s.fb o else 0

/-- The current value of a target (R25 to R41). CMD_HI and unmapped offsets read 0 (R30, R41). -/
def State.readTarget (s : State) : Target → Word
  | .id => idWord s.params
  | .ctrl => BitVec.setWidth 32 (BitVec.ofBool s.coalesce)
  | .status => s.status
  | .result => s.result
  | .cmdLo => s.cmdLo
  | .cmdHi => 0
  | .srcLen => BitVec.setWidth 32 s.srcLen
  | .palLen => BitVec.setWidth 32 s.palLen
  | .opc => s.opc
  | .nopb => BitVec.setWidth 32 s.nopb
  | .trail => s.trail
  | .dirty j => s.dirtyWord j
  | .pal i => BitVec.setWidth 32 (s.palEntry i)
  | .src k => wordOfBytes fun n => s.srcByte (4 * k + n)
  | .fb k => wordOfBytes fun n => s.fbWindowByte (4 * k + n)
  | .unmapped => 0

/-- Log the word a host read returned. -/
def State.logRead (s : State) (a : HostAddr) (w : Word) : State :=
  { s with hostLog := (a, w) :: s.hostLog }

/-- HostRead(a) (R22): the current value, or while BUSY = 1 an unspecified value of FB, DIRTY and
RESULT (R241). No read changes the block's state (R79). -/
def State.hostRead (s : State) (a : HostAddr) : State :=
  if s.busy && (target a).busyUnspecified then
    { s.logRead a (Config.busyRead s.freeCount) with freeCount := s.freeCount + 1 }
  else s.logRead a (s.readTarget (target a))

/-! ### Writes -/

/-- Acceptance of the command word W: `eng <- EXEC(W)`, BUSY <- 1, `STATUS.ERR <- 0` (R90). -/
def State.accept (s : State) (w : Cmd) : State := { s with eng := .exec w, err := .ok }

/-- `SRC[4k+n] <- w[8n+7:8n]` for n = 0..3 (R39). -/
def State.writeSrcWord (s : State) (k : Nat) (w : Word) : State :=
  { s with src := put (put (put (put s.src (4 * k) (byteOfWord w 0)) (4 * k + 1) (byteOfWord w 1))
      (4 * k + 2) (byteOfWord w 2)) (4 * k + 3) (byteOfWord w 3) }

/-- `PAL[i] <- w[23:0]` (R38). -/
def State.writePalWord (s : State) (i : Nat) (w : Word) : State :=
  { s with pal := put s.pal i (w.extractLsb' 0 24) }

/-- A host write that is not dropped (R26 to R41). -/
def State.writeTarget (s : State) (w : Word) : Target → State
  | .id => s
  | .ctrl => { s with coalesce := w.getLsbD 0 }
  | .status => s.writeStatus w
  | .result => s
  | .cmdLo => { s with cmdLo := w }
  | .cmdHi => s.accept (commandWord w s.cmdLo)
  | .srcLen => { s with srcLen := BitVec.ofNat 13 (min w.toNat Config.srcBytes) }
  | .palLen => { s with palLen := BitVec.ofNat 9 (min w.toNat Config.palEntries) }
  | .opc => { s with opc := w }
  | .nopb => { s with nopb := w.extractLsb' 0 16 }
  | .trail => { s with rowLen := w.extractLsb' 0 3, endLen := w.extractLsb' 4 3 }
  | .dirty _ => s
  | .pal i => s.writePalWord i w
  | .src k => s.writeSrcWord k w
  | .fb _ => s
  | .unmapped => s

/-- HostWrite(a, w) (R22): a guarded write while BUSY = 1 is dropped and sets OVR (R25, R240). -/
def State.hostWrite (s : State) (a : HostAddr) (w : Word) : State :=
  if s.busy && (target a).guarded then s.markOverrun else s.writeTarget w (target a)

/-- The two writes that issue a command word, CMD_LO then CMD_HI (R91, R101's `ISSUE W`). -/
def issue (w : Cmd) : List Event :=
  [.hostWrite 0x010 (w.extractLsb' 0 32), .hostWrite 0x014 (w.extractLsb' 32 32)]

end Sys2Proof.Machine
end

