-- ==== Sys2Proof/Machine/Agents.lean ====
section
/-! DEFINITION. Who moves next (00_scope.md R16, log entry 1), reset (70_reset_and_hazards.md R230), and how
a command word comes to be the accepted command (log entry 11). -/

namespace Sys2Proof.Machine

/-- Reset while the machine runs (R230): every element of the block takes its reset value, the
running command is abandoned and a presented request is withdrawn. The parameters stay, and so do the
environment's events to come and the logs; the reset count goes up, so that PAL and SRC hold new
unspecified values (R233). Log entries 10 and 20. -/
def State.blockReset (s : State) : State :=
  { State.resetOf s.params with
    env := s.env, busLog := s.busLog, hostLog := s.hostLog, freeCount := s.freeCount,
    resets := s.resets + 1 }

/-- A move: the engine starts the accepted command, or the move is done. -/
inductive Move where
  | start (w : Cmd) (s : State)
  | done (s : State)
  deriving DecidableEq, Repr

/-- The engine's move (R90, R172, R222): it starts an accepted command; idle, or waiting for an answer, it
changes nothing. Log entry 4. -/
def State.engineMove (s : State) : Move :=
  match s.eng, s.pending with
  | .exec w, none => .start w s
  | _, _ => .done s

/-- An answer of the bus collaborator is the next event: it completes the presented request; an
accepted command is started first, so that it can present one; with no request to come it is
dropped. Log entry 3. -/
def State.answerMove (s : State) : Move :=
  match s.eng, s.pending with
  | .exec w, none => .start w s
  | .idle, none => .done { s with env := s.env.tail }
  | _, some _ => .done s.drain

/-- The next move: that of the next event; the engine's when there is none. Log entry 1. -/
def State.nextMove (s : State) : Move :=
  match s.env with
  | [] => s.engineMove
  | .hostRead a :: env => .done ({ s with env := env }.hostRead a)
  | .hostWrite a w :: env => .done ({ s with env := env }.hostWrite a w)
  | .busDone _ :: _ => s.answerMove
  | .engine :: env => { s with env := env }.engineMove
  | .reset :: env => .done { s with env := env }.blockReset

/-- The engine's turn comes next: unless the next event already lets the engine move, one is put
first. -/
def engineFirst : List Event → List Event
  | [] => []
  | .busDone o :: env => .busDone o :: env
  | env => .engine :: env

/-- `w` is the accepted command word and the engine has not begun it (R90); its turn is next. -/
def State.withAccepted (s : State) (w : Cmd) : State :=
  { s.closeTxn.accept w with env := engineFirst s.env }

/-- The engine performs a command word that does not decode (R96, R97), by its error. -/
def rejectCommand (e : DecodeError) (s : State) : Result := .next (s.rejectWord e)

end Sys2Proof.Machine
end

