-- ==== Sys2Proof/Machine/Query.lean ====
section
/-! DEFINITION. The meanings of NOP, QUANT, GLA and XFORM (41_quantize_lookup.md R160 to R163). -/

namespace Sys2Proof.Machine

/-- NOP: nothing (R160). -/
def execNop (s : State) : Result := .next s.complete

/-- `zext_32({luma[7:0], 7'b0, quant[0]})` (R161). -/
def quantResult (rgb : Rgb) : Word :=
  BitVec.setWidth 32 (BitVec.ofNat 8 (luma rgb) ++ 0#7 ++ BitVec.ofNat 1 (quant rgb))

/-- QUANT (R161). -/
def execQuant (rgb : Rgb) (s : State) : Result := .next (s.setResult (quantResult rgb)).complete

/-- GLA (R162). -/
def execGla (row : Byte) (s : State) : Result :=
  s.checked (firstError [(badRows s.params row.toNat row.toNat, .bounds)])
    fun s => s.setResult (BitVec.setWidth 32 (gla row.toNat))

/-- XFORM (R163). -/
def execXform (b : Byte) (s : State) : Result :=
  .next (s.setResult (BitVec.setWidth 32 (xform b))).complete

end Sys2Proof.Machine
end

