-- ==== Sys2Proof/Machine/Raster.lean ====
section
/-! DEFINITION. The meanings of POINT, HLINE, VLINE, FILL and the two rows of BLIT (40_raster.md). -/

namespace Sys2Proof.Machine

/-- POINT (R120). -/
def execPoint (x y : Byte) (color : Bool) (s : State) : Result :=
  s.checked
    (firstError [(badColumns s.params x.toNat x.toNat || badRows s.params y.toNat y.toNat, .bounds)])
    fun s => s.drawRows (rowmask s.params x.toNat x.toNat) color [y.toNat]

/-- HLINE (R122). -/
def execHline (x1 x2 y : Byte) (color : Bool) (s : State) : Result :=
  s.checked
    (firstError [(badColumns s.params x1.toNat x2.toNat || badRows s.params y.toNat y.toNat, .bounds)])
    fun s => s.drawRows (rowmask s.params x1.toNat x2.toNat) color [y.toNat]

/-- VLINE (R124). -/
def execVline (x y1 y2 : Byte) (color : Bool) (s : State) : Result :=
  s.checked
    (firstError [(badColumns s.params x.toNat x.toNat || badRows s.params y1.toNat y2.toNat, .bounds)])
    fun s => s.drawRows (rowmask s.params x.toNat x.toNat) color (rowRange y1.toNat y2.toNat)

/-- FILL (R126). -/
def execFill (x1 y1 x2 y2 : Byte) (color : Bool) (s : State) : Result :=
  s.checked
    (firstError [(badColumns s.params x1.toNat x2.toNat || badRows s.params y1.toNat y2.toNat, .bounds)])
    fun s => s.drawRows (rowmask s.params x1.toNat x2.toNat) color (rowRange y1.toNat y2.toNat)

/-- The operands of BLIT.1 as numbers (R130). -/
def blit1Args (srclsb palq : Bool) (x y count : Byte) (srcoff : BitVec 24) : Blit :=
  ⟨false, srclsb, palq, x.toNat, y.toNat, count.toNat, srcoff.toNat⟩

/-- The operands of BLIT.8 as numbers (R130). -/
def blit8Args (palq : Bool) (x y count : Byte) (srcoff : BitVec 24) : Blit :=
  ⟨true, false, palq, x.toNat, y.toNat, count.toNat, srcoff.toNat⟩

/-- BLIT with BPP8 = 0 (R130, R140). -/
def execBlit1 (srclsb palq : Bool) (x y count : Byte) (srcoff : BitVec 24) (s : State) : Result :=
  s.blit (blit1Args srclsb palq x y count srcoff)

/-- BLIT with BPP8 = 1 (R130, R140). With SRCLSB = 1 it raises RSVD before any other check (R97, R213). -/
def execBlit8 (srclsb palq : Bool) (x y count : Byte) (srcoff : BitVec 24) (s : State) : Result :=
  if srclsb then .next (s.raiseError .rsvd) else s.blit (blit8Args palq x y count srcoff)

end Sys2Proof.Machine
end

