-- ==== Sys2Proof/Machine/Serializer.lean ====
section
/-! DEFINITION. The meanings of CLEAR and FLUSH (42_serializer.md R179, R185). Both run as far as the
collaborator's answers reach; a request not answered yet stays presented and the command stays in
progress (R172), to be carried on by the step when the answer comes. Log entry 2. -/

namespace Sys2Proof.Machine

/-- CLEAR (R179). -/
def execClear (s : State) : Result := .next s.beginClear.drain

/-- FLUSH (R185). -/
def execFlush (s : State) : Result := .next s.beginFlush.drain

end Sys2Proof.Machine
end

