-- ==== Sys2Proof/Machine/Dispatch.lean ====
section
/-! DEFINITION. Each command's meaning. -/

namespace Sys2Proof.Machine

/-- The meaning of a command (30_encoding.md R90, R94). -/
def exec (i : Instr) (s : State) : Host.Outcome State Fault Refusal :=
  match i with
  | .nop => Sys2Proof.Machine.execNop s
  | .clear => Sys2Proof.Machine.execClear s
  | .flush => Sys2Proof.Machine.execFlush s
  | .point x y color => Sys2Proof.Machine.execPoint x y color s
  | .hline x1 x2 y color => Sys2Proof.Machine.execHline x1 x2 y color s
  | .vline x y1 y2 color => Sys2Proof.Machine.execVline x y1 y2 color s
  | .fill x1 y1 x2 y2 color => Sys2Proof.Machine.execFill x1 y1 x2 y2 color s
  | .blit1 srclsb palq x y count srcoff => Sys2Proof.Machine.execBlit1 srclsb palq x y count srcoff s
  | .blit8 srclsb palq x y count srcoff => Sys2Proof.Machine.execBlit8 srclsb palq x y count srcoff s
  | .quant rgb => Sys2Proof.Machine.execQuant rgb s
  | .gla row => Sys2Proof.Machine.execGla row s
  | .xform b => Sys2Proof.Machine.execXform b s

end Sys2Proof.Machine
end

