-- ==== Sys2Proof/Machine/Step.lean ====
section
/-! DEFINITION. One step of the machine (log entries 1 and 2), and a command placed where the step takes its
next one from (log entry 11). -/

namespace Sys2Proof.Machine

/-- The engine performs the accepted command word: the decode checks, then the rule of its opcode
(30_encoding.md R90, R96, R97). -/
def runCommand (w : Cmd) (s : State) : Result :=
  match decode w with
  | .ok i => exec i s
  | .error e => rejectCommand e s

/-- One step: the next move. Steps are not time (R245, log entry 17). -/
def step (s : State) : Host.Outcome State Fault Refusal :=
  match s.nextMove with
  | .start w s => runCommand w s
  | .done s => .next s

/-- The command word whose low `nbits` bits are those of `w` is the accepted command, and the next step
performs it. The block fetches nothing (R21): the accepted word of `eng` is where the engine takes
its command from (R90). Log entry 11. -/
def State.withFetchWord (s : State) (nbits w : Nat) : State :=
  s.withAccepted (BitVec.ofNat 64 (w % 2 ^ nbits))

end Sys2Proof.Machine
end

