-- ==== Sys2Proof/Safety.lean ====
section
/-! DEFINITION. What counts as a good state, and the spec's pseudocode of transactions read on a list of
outcomes, for claims to be stated against. -/

namespace Sys2Proof.Machine

/-! ### The command word as the spec's tables give it -/

/-- The bits of a command word that must be 0, per opcode (R97's table, as 64-bit masks). -/
def reservedMask : Nat → Cmd
  | 0x0 => 0xFFFFFFFFFFFFFFF0
  | 0x1 => 0xFFFFFFFFFFFFFFF0
  | 0x2 => 0xFFFFFFFFFFFFFFF0
  | 0x3 => 0xFFFFFFFFFF0000E0
  | 0x4 => 0xFFFFFFFF000000E0
  | 0x5 => 0xFFFFFFFF000000E0
  | 0x6 => 0xFFFFFF00000000E0
  | 0x7 => 0x000000FF00000010
  | 0x8 => 0x000000FFFFFFFFF0
  | 0x9 => 0xFFFFFFFFFFFF00F0
  | 0xA => 0xFFFFFFFFFFFF00F0
  | _ => 0

/-- `c` is a colour operand, `0` or `1` (R99). -/
def isColor (c : Nat) : Bool := decide (c < 2)

/-- `n` fits an 8-bit field. -/
def fits8 (n : Nat) : Bool := decide (n < 256)

/-- `n` fits a 24-bit field. -/
def fits24 (n : Nat) : Bool := decide (n < 16777216)

/-- The lines an assembler accepts: every operand fits its field, `<bpp>` is 1 or 8, and the
combination is not `BLIT.8.LSB` (R99). -/
def acceptable : AsmLine → Bool
  | .nop => true
  | .clear => true
  | .flush => true
  | .point x y c => fits8 x && fits8 y && isColor c
  | .hline x1 x2 y c => fits8 x1 && fits8 x2 && fits8 y && isColor c
  | .vline x y1 y2 c => fits8 x && fits8 y1 && fits8 y2 && isColor c
  | .fill x1 y1 x2 y2 c => fits8 x1 && fits8 y1 && fits8 x2 && fits8 y2 && isColor c
  | .blit bpp lsb _ x y count srcoff =>
    fits8 x && fits8 y && fits8 count && fits24 srcoff && (bpp == 1 || bpp == 8 && !lsb)
  | .quant rgb => fits24 rgb
  | .gla row => fits8 row
  | .xform b => fits8 b
  | .init => true
  | .set x y => fits8 x && fits8 y
  | .reset x y => fits8 x && fits8 y
  | .refresh => true

/-- The command word of a line as R99 and R100 give it: OP, COL at bit 4, the BLIT flags at bits 5, 6
and 7, A, B, C, D, E at bits 8, 16, 24, 32, 40 (R92). -/
def lineWord : AsmLine → Nat
  | .nop => 0
  | .clear => 1
  | .flush => 2
  | .point x y c => 3 + c * 2 ^ 4 + x * 2 ^ 8 + y * 2 ^ 16
  | .hline x1 x2 y c => 4 + c * 2 ^ 4 + x1 * 2 ^ 8 + x2 * 2 ^ 16 + y * 2 ^ 24
  | .vline x y1 y2 c => 5 + c * 2 ^ 4 + x * 2 ^ 8 + y1 * 2 ^ 16 + y2 * 2 ^ 24
  | .fill x1 y1 x2 y2 c =>
    6 + c * 2 ^ 4 + x1 * 2 ^ 8 + y1 * 2 ^ 16 + x2 * 2 ^ 24 + y2 * 2 ^ 32
  | .blit bpp lsb pq x y count srcoff =>
    7 + (if bpp = 8 then 2 ^ 5 else 0) + (if lsb then 2 ^ 6 else 0) + (if pq then 2 ^ 7 else 0) +
      x * 2 ^ 8 + y * 2 ^ 16 + count * 2 ^ 24 + srcoff * 2 ^ 40
  | .quant rgb => 8 + rgb * 2 ^ 40
  | .gla row => 9 + row * 2 ^ 8
  | .xform b => 10 + b * 2 ^ 8
  | .init => 1
  | .set x y => 3 + 2 ^ 4 + x * 2 ^ 8 + y * 2 ^ 16
  | .reset x y => 3 + x * 2 ^ 8 + y * 2 ^ 16
  | .refresh => 2

/-! ### Moves -/

/-- The engine's turn has come at `s` with the accepted and not yet begun command word `w`, and `t` is
`s` with the turn taken: there is no event, or the next event is an answer that finds no request
presented (it stays), or the next event is the turn itself (it is consumed). -/
def engineTurn (s : State) (w : Cmd) (t : State) : Prop :=
  s.eng = .exec w ∧ s.pending = none ∧
    ((s.env = [] ∨ ∃ o env, s.env = .busDone o :: env) ∧ t = s ∨
      ∃ env, s.env = .engine :: env ∧ t = { s with env := env })

/-- A reset is the next event. -/
def resetNext (s : State) : Prop := ∃ env, s.env = .reset :: env

/-- The commands that write FB (R44). -/
def writesFb : Instr → Bool
  | .point _ _ _ => true
  | .hline _ _ _ _ => true
  | .vline _ _ _ _ => true
  | .fill _ _ _ _ _ => true
  | .blit1 _ _ _ _ _ _ => true
  | .blit8 _ _ _ _ _ _ => true
  | .clear => true
  | .flush => false
  | .nop => false
  | .quant _ => false
  | .gla _ => false
  | .xform _ => false

/-- The state a command leaves; `s` itself if it answered no next state. -/
def after (i : Instr) (s : State) : State :=
  match exec i s with
  | .next t => t
  | .fault _ => s
  | .refused _ => s

/-- The state a sequence of commands leaves. -/
def afterAll (is : List Instr) (s : State) : State := is.foldl (fun s i => after i s) s

/-! ### Good states -/

/-- The rows of an update transaction (R180): consecutive and at least one. -/
def consecutive : List Nat → Bool
  | [] => false
  | [_] => true
  | r :: r' :: rs => decide (r' = r + 1) && consecutive (r' :: rs)

/-- The accepted command, when there is one and its word decodes. -/
def State.command (s : State) : Option Instr :=
  match s.eng with
  | .idle => none
  | .exec w =>
    match decode w with
    | .ok i => some i
    | .error _ => none

/-- The transaction in progress, whole (R178, R180, R183). -/
def State.txnSeq (s : State) : List (Phase × Byte) :=
  match s.job with
  | .none => []
  | .clear => s.clearSeq
  | .update => s.updateSeq s.cursor.current
  | .refresh => s.refreshSeq

/-- The parameters are legal, the memories are in canonical form and the declared lengths are legal. -/
structure State.StorageInv (s : State) : Prop where
  /-- WIDTH and HEIGHT are in R8's ranges. -/
  legal : s.params.legal
  /-- FB is in canonical form. -/
  fbWf : Memory.wf s.params s.fb
  /-- No flag from HEIGHT on is set (R37). -/
  dirtyLt : ∀ r, s.params.height ≤ r → s.isDirty r = false
  /-- SRC is in canonical form. -/
  srcWf : srcWf s.src
  /-- PAL is in canonical form. -/
  palWf : palWf s.pal
  /-- SRC_LEN.LEN is a legal value (R34). -/
  srcLenLe : s.srcLen.toNat ≤ Config.srcBytes
  /-- PAL_LEN.LEN is a legal value (R35). -/
  palLenLe : s.palLen.toNat ≤ Config.palEntries

/-- The engine's hidden state hangs together (R49). -/
structure State.ChannelInv (s : State) : Prop where
  /-- While BUSY = 1, ERR reads 0 (R27). -/
  busyErr : s.busy = true → s.err = .ok
  /-- No transaction without a presented request (R49, R173, R231). -/
  quiet : s.pending = none →
    s.csOpen = false ∧ s.phase = .idle ∧ s.job = .none ∧ s.left = [] ∧ s.failed = false ∧
      s.cursor = ⟨[], [], []⟩
  /-- A presented request belongs to a transaction of the running CLEAR or FLUSH, inside its
  chip-select window (R84, R173, R176). -/
  framed : s.pending ≠ none →
    s.csOpen = true ∧ s.phase ≠ .idle ∧
      (s.job = .clear ∧ s.command = some .clear ∧ s.cursor = ⟨[], [], []⟩ ∨
        (s.job = .update ∨ s.job = .refresh) ∧ s.command = some .flush)
  /-- Bytes are sent in a phase of the transaction (R177). -/
  leftPhases : ∀ p ∈ s.left, p.1 ≠ .idle
  /-- ASSERT is presented in CmdPhase (R173, R177). -/
  assertPhase : s.pending = some .assert → s.phase = .cmd
  /-- DEASSERT comes last (R173). -/
  deassertLast : s.pending = some .deassert → s.left = []
  /-- A failed transaction presents nothing but its DEASSERT (R173). -/
  failedLast : s.failed = true → s.pending = some .deassert
  /-- What has been presented of the transaction and what is left make up the transaction, and a byte is
  presented in its phase (R173, R177). -/
  sequence : s.pending ≠ none → s.failed = false →
    ∃ presented, s.txnSeq = presented ++ s.left ∧ (s.pending = some .assert → presented = []) ∧
      ∀ b, s.pending = some (.byte b) → presented.getLast? = some (s.phase, b)
  /-- The flush cursor accounts for every dirty row (R185, R188): the rows of the update in progress,
  then those of the groups still to send. -/
  cursorRows : s.job = .update ∨ s.job = .refresh →
    s.dirtyRows = s.cursor.current ++ s.cursor.later.flatten
  /-- Rows counted as sent are clean (R188). -/
  cursorSent : ∀ r ∈ s.cursor.sent, s.isDirty r = false
  /-- An update transaction carries consecutive rows (R180, R187), and so will every later one. -/
  cursorRuns : s.job = .update →
    consecutive s.cursor.current = true ∧ ∀ g ∈ s.cursor.later, consecutive g = true
  /-- The refresh transaction is the last one of a FLUSH (R185). -/
  cursorRefresh : s.job = .refresh → s.cursor.current = [] ∧ s.cursor.later = []

/-- The invariant: what every state of the block that a run reaches has. -/
structure State.Inv (s : State) : Prop where
  storage : s.StorageInv
  channel : s.ChannelInv

/-! ### The pseudocode of R173, R180 and R185 on a list of outcomes -/

/-- What a run of the pseudocode gives, with the completed requests and their outcomes in order. -/
inductive Ran (σ α : Type) where
  /-- It has returned: its result, the requests, the outcomes not used. -/
  | done (result : α) (trace : List (BusReq × BusOutcome)) (rest : List BusOutcome)
  /-- The outcomes have run out: the call has not returned (R172). The request being presented, what is
  known then, the requests completed. -/
  | waits (req : BusReq) (so : σ) (trace : List (BusReq × BusOutcome))
  deriving DecidableEq, Repr

/-- Put requests before those of a run. -/
def Ran.after {σ α : Type} (before : List (BusReq × BusOutcome)) : Ran σ α → Ran σ α
  | .done result trace rest => .done result (before ++ trace) rest
  | .waits req so trace => .waits req so (before ++ trace)

/-- The requests of `Txn` from one on (R173): after the last of `qs` comes the DEASSERT, whose outcome is
the result; an ERR is followed by a DEASSERT whose outcome is ignored, and the result is ERR. While it
waits: the requests to come before the DEASSERT. -/
def sendRequests : List BusReq → List BusOutcome → Ran (List BusReq) BusOutcome
  | [], o :: os => .done o [(.deassert, o)] os
  | [], [] => .waits .deassert [] []
  | q :: qs, [] => .waits q qs []
  | q :: qs, .ok :: os => (sendRequests qs os).after [(q, .ok)]
  | q :: _, [.err] => .waits .deassert [] [(q, .err)]
  | q :: _, .err :: o :: os => .done .err [(q, .err), (.deassert, o)] os

/-- `Txn(seq)` (R173). -/
def txn (seq : List Byte) (os : List BusOutcome) : Ran (List BusReq) BusOutcome :=
  sendRequests (.assert :: seq.map .byte) os

/-- `trailer(j, m)` (R181). -/
def State.trailerBytes (s : State) (j m : Nat) : List Byte :=
  List.replicate (if j < m then s.rowLen.toNat else s.endLen.toNat) s.trb

/-- What is sent for row `r` besides its trailer: `[gla(r)] ++ [xform(FB[r][k])]` (R180, R184). -/
def State.payloadBytes (s : State) (r : Nat) : List Byte := gla r :: (readRow s.params s.fb r).map xform

/-- `seq(L)` (R180). -/
def State.updateBytes (s : State) (rows : List Nat) : List Byte :=
  s.upd :: rows.zipIdx.flatMap fun (r, j) => s.payloadBytes r ++ s.trailerBytes j (rows.length - 1)

/-- The loop of FLUSH over its groups and the final refresh, from DIRTY flags `d` on: the code, the DIRTY
flags left, the requests (R185, R188, R189). While it waits: the requests to come before the
transaction's DEASSERT, and the DIRTY flags. -/
def State.flushGroups (s : State) :
    List (List Nat) → BitVec Config.dirtyBits → List BusOutcome →
      Ran (List BusReq × BitVec Config.dirtyBits) (ErrCode × BitVec Config.dirtyBits)
  | [], d, os =>
    match txn [s.nop0, s.nop1] os with
    | .done o trace rest => .done (if o = .ok then .ok else .bus, d) trace rest
    | .waits req left trace => .waits req (left, d) trace
  | rows :: groups, d, os =>
    match txn (s.updateBytes rows) os with
    | .done .err trace rest => .done (.bus, d) trace rest
    | .done .ok trace rest => (s.flushGroups groups (clearRows d rows) rest).after trace
    | .waits req left trace => .waits req (left, d) trace

/-- A transaction whose requests all completed OK (R173). -/
def okFrame (seq : List Byte) : List (BusReq × BusOutcome) :=
  (.assert, .ok) :: seq.map (fun b => (.byte b, .ok)) ++ [(.deassert, .ok)]

/-- The requests that complete a transaction in progress, all OK: the presented one, the bytes left, the
DEASSERT (R173). -/
def State.restOk (s : State) : List (BusReq × BusOutcome) :=
  match s.pending with
  | none => []
  | some .deassert => [(.deassert, .ok)]
  | some q => (q, .ok) :: s.left.map (fun p => (.byte p.2, .ok)) ++ [(.deassert, .ok)]

/-- The groups of rows a FLUSH has still to begin: all of them while it has not begun (R185). -/
def State.groupsToCome (s : State) : List (List Nat) :=
  if s.pending = none then runs s.dirtyRows s.coalesce else s.cursor.later

/-- A transaction has failed among completed requests. -/
def anyErr (trace : List (BusReq × BusOutcome)) : Bool := trace.any fun p => p.2 == .err

/-- No answer is the next event. -/
def noAnswerNext (env : List Event) : Prop := ∀ o, env.head? ≠ some (.busDone o)

/-- Follow requests in order through chip-select windows: from outside or inside a window (`true`), where
the requests leave it; none where a request stands on the wrong side (R84, R173, R176). -/
def scanFrames : Bool → List BusReq → Option Bool
  | inside, [] => some inside
  | false, .assert :: qs => scanFrames true qs
  | true, .byte _ :: qs => scanFrames true qs
  | true, .deassert :: qs => scanFrames false qs
  | _, _ :: _ => none

/-- The completed requests have left the channel inside a window: the presented request is a byte or the
DEASSERT. -/
def State.insideWindow (s : State) : Bool :=
  match s.pending with
  | none => false
  | some .assert => false
  | some (.byte _) => true
  | some .deassert => true

/-- The outcomes of a whole FLUSH that all are OK: 2 + 1 + |L| (1 + ROWBYTES) + (|L| - 1) ROWLEN + ENDLEN
for each group, and 4 for the refresh (R246). -/
def State.flushRequests (s : State) (groups : List (List Nat)) : Nat :=
  (groups.map fun g =>
    2 + 1 + g.length * (1 + s.params.rowBytes) + (g.length - 1) * s.rowLen.toNat +
      s.endLen.toNat).sum + 4

/-- Bus answers as events of the environment. -/
def answers (os : List BusOutcome) : List Event := os.map .busDone

end Sys2Proof.Machine
end

