-- ==== Sys2Proof/Certificates/Slice0/Obligations.lean ====
section
/-! DEFINITION. What is stated about the block, for the provers. Every statement names the rules of spec/ it
comes from. -/

open Sys2Proof Sys2Proof.Machine

/-! ### The command word -/

/-- R92, R94: the decoder gives back every well-formed command from its command word. -/
def Obligations.DecodeEncodeRoundTrip : Prop :=
  ∀ i : Instr, i.wellFormed = true → decode (encode i) = .ok i

/-- R91, R97, R98: a word that decodes has that one meaning: it is the command word of the command it
decodes to. -/
def Obligations.EncodeDecodeRoundTrip : Prop :=
  ∀ (w : Cmd) (i : Instr), decode w = .ok i → i.wellFormed = true ∧ encode i = w

/-- R96: a word with W[3:0] ≥ 0xB raises ILLEGAL_OP, code 1, and changes nothing else, whatever its
other bits. -/
def Obligations.IllegalOpcodeRejected : Prop :=
  ∀ w : Cmd, (w.extractLsb' 0 4).toNat ≥ 0xB →
    decode w = .error .illegalOp ∧ ErrCode.illegalOp.code = 1 ∧
      ∀ s, runCommand w s = .next { s with err := .illegalOp, eng := .idle }

/-- R97: for an opcode 0x0 to 0xA, a 1 in the mask of the rule's table, or BLIT with W[5] = W[6] = 1,
raises RSVD, code 2, and changes nothing else; every other such word decodes to a command. -/
def Obligations.ReservedBitsRejected : Prop :=
  ∀ w : Cmd, (w.extractLsb' 0 4).toNat ≤ 0xA →
    let reserved := w &&& reservedMask (w.extractLsb' 0 4).toNat ≠ 0 ∨
      (w.extractLsb' 0 4).toNat = 7 ∧ w.getLsbD 5 = true ∧ w.getLsbD 6 = true
    (decode w = .error .rsvd ↔ reserved) ∧ (¬reserved → ∃ i, decode w = .ok i) ∧
    ErrCode.rsvd.code = 2 ∧
    (decode w = .error .rsvd → ∀ s, runCommand w s = .next { s with err := .rsvd, eng := .idle })

/-- 95_test_vectors.md: command words of every family decode to the commands they stand for. -/
def Obligations.SampleWordsDecode : Prop :=
  decode 0x0000000000000000 = .ok .nop ∧
  decode 0x0000000000000001 = .ok .clear ∧
  decode 0x0000000000000002 = .ok .flush ∧
  decode 0x0000000000030A13 = .ok (.point 10 3 true) ∧
  decode 0x0000000000110514 = .ok (.hline 5 17 0 true) ∧
  decode 0x0000000004020915 = .ok (.vline 9 2 4 true) ∧
  decode 0x000000020B010416 = .ok (.fill 4 1 11 2 true) ∧
  decode 0x000003000D000547 = .ok (.blit1 true false 5 0 13 3) ∧
  decode 0x00000800030508A7 = .ok (.blit8 false true 8 5 3 8) ∧
  decode 0xFF7A000000000008 = .ok (.quant 0xFF7A00) ∧
  decode 0x0000000000007F09 = .ok (.gla 127) ∧
  decode 0x000000000000E00A = .ok (.xform 0xE0)

/-- R99, R100: the assembler accepts exactly the lines whose operands fit their fields and that are not
`BLIT.8.LSB`, and gives the command whose word is the one the tables give; pseudo-commands by
their expansion. -/
def Obligations.AssemblerFollowsSyntaxTable : Prop :=
  ∀ l : AsmLine, (assemble l).isSome = acceptable l ∧
    ∀ i, assemble l = some i → i.wellFormed = true ∧ (encode i).toNat = lineWord l

/-! ### The step -/

/-- R90: when the engine's turn has come, the step is the accepted word's meaning at the state with the turn
taken, or its error where the word does not decode. When the turn comes is the model's choice (log
entry 1). -/
def Obligations.StepRunsDecodedCommand : Prop :=
  ∀ (s t : State) (w : Cmd), engineTurn s w t →
    (∀ i : Instr, decode w = .ok i → step s = exec i t) ∧
    (decode w = .error .illegalOp → step s = .next { t with err := .illegalOp, eng := .idle }) ∧
    (decode w = .error .rsvd → step s = .next { t with err := .rsvd, eng := .idle })

/-- R30, R90: a host write of `w` to CMD_HI while BUSY = 0 accepts the command word `{w, CMD_LO}`:
`eng <- EXEC(W)`, BUSY <- 1, ERR <- 0, and nothing else changes. -/
def Obligations.CommandAccepted : Prop :=
  ∀ (s : State) (a : HostAddr) (w : Word) (env : List Event),
    s.env = .hostWrite a w :: env → s.busy = false → a.toNat / 4 * 4 = 0x014 →
      ∃ t, step s = .next t ∧
        t = { s with env := env, eng := .exec (w ++ s.cmdLo), err := .ok } ∧ t.busy = true

/-- No case of the block is a fault (93_implementation_defined.md) and every command has its meaning, so every
step answers a next state. That a step of a block whose request is not answered does so too is the model's
choice where 93_implementation_defined.md U4 says stuck (log entry 4); that nothing refuses is log entry
18. -/
def Obligations.EveryStepAnswersNext : Prop := ∀ s : State, ∃ t, step s = .next t

/-- R172: a command whose request is not answered stays as it is through every host access and every
turn of the engine, with BUSY = 1; only OVR and the model's own logs and events move. A reset ends it. -/
def Obligations.UnansweredRequestHangs : Prop :=
  ∀ s t : State, s.Inv → s.pending ≠ none → step s = .next t →
    (s.env.head? ≠ some .reset → noAnswerNext s.env →
      t.busy = true ∧ t = { s with
        env := s.env.tail, ovr := t.ovr, hostLog := t.hostLog, freeCount := t.freeCount }) ∧
    (s.env.head? = some .reset → t.busy = false ∧ t.pending = none)

/-! ### The host port -/

/-- R240: a write to a guarded target while BUSY = 1 is dropped: the target keeps its value, no command is
issued, and OVR is set. -/
def Obligations.GuardedWriteDropped : Prop :=
  ∀ (s : State) (a : HostAddr) (w : Word) (env : List Event),
    s.env = .hostWrite a w :: env → s.busy = true →
    (a.toNat / 4 * 4 ∈ [0x004, 0x010, 0x014, 0x018, 0x01C, 0x020, 0x024, 0x028] ∨
      0x400 ≤ a.toNat ∧ a.toNat < 0x800 ∨ 0x1000 ≤ a.toNat ∧ a.toNat < 0x2000) →
      step s = .next { s with env := env, ovr := true }

/-- R41: a write to ID, RESULT, DIRTY0-7, the FB window or an unmapped offset is ignored and does not
set OVR, at any time; an unmapped offset reads 0. -/
def Obligations.ReadOnlyWritesIgnored : Prop :=
  ∀ (s : State) (a : HostAddr) (env : List Event),
    (a.toNat / 4 * 4 = 0x000 ∨ a.toNat / 4 * 4 = 0x00C ∨ 0x02C ≤ a.toNat ∧ a.toNat < 0x400 ∨
      0x800 ≤ a.toNat ∧ a.toNat < 0x1000 ∨ 0x2000 ≤ a.toNat) →
    (∀ w, s.env = .hostWrite a w :: env → step s = .next { s with env := env }) ∧
    (s.env = .hostRead a :: env →
      0x02C ≤ a.toNat ∧ a.toNat < 0x040 ∨ 0x060 ≤ a.toNat ∧ a.toNat < 0x400 ∨
        0x800 ≤ a.toNat ∧ a.toNat < 0x1000 →
      step s = .next { s with env := env, hostLog := (a, 0) :: s.hostLog })

/-- R26, R27, R29, R31 to R35: what a write to each register stores while BUSY = 0, reserved bits ignored; a
write to STATUS is never dropped: bit 8 = 1 clears OVR, every other bit is ignored. -/
def Obligations.RegisterWritesStore : Prop :=
  ∀ (s : State) (a : HostAddr) (w : Word) (env : List Event), s.env = .hostWrite a w :: env →
    (a.toNat / 4 * 4 = 0x008 →
      step s = .next { s with env := env, ovr := if w.getLsbD 8 then false else s.ovr }) ∧
    (s.busy = false →
      (a.toNat / 4 * 4 = 0x004 → step s = .next { s with env := env, coalesce := w.getLsbD 0 }) ∧
      (a.toNat / 4 * 4 = 0x010 → step s = .next { s with env := env, cmdLo := w }) ∧
      (a.toNat / 4 * 4 = 0x018 → ∃ n : BitVec 13, n.toNat = min w.toNat 4096 ∧
        step s = .next { s with env := env, srcLen := n }) ∧
      (a.toNat / 4 * 4 = 0x01C → ∃ n : BitVec 9, n.toNat = min w.toNat 256 ∧
        step s = .next { s with env := env, palLen := n }) ∧
      (a.toNat / 4 * 4 = 0x020 → step s = .next { s with env := env, opc := w }) ∧
      (a.toNat / 4 * 4 = 0x024 → step s = .next { s with env := env, nopb := w.setWidth 16 }) ∧
      (a.toNat / 4 * 4 = 0x028 → step s
        = .next { s with env := env, rowLen := w.extractLsb' 0 3, endLen := w.extractLsb' 4 3 }))

/-- R38, R39, R71: a word written to the PAL or SRCBUF window while BUSY = 0 stores the entry, or the four
bytes with the lowest in bits 7:0, and nothing else. -/
def Obligations.WindowWritesStore : Prop :=
  ∀ (s : State) (a : HostAddr) (w : Word) (env : List Event),
    s.env = .hostWrite a w :: env → s.busy = false →
    (0x400 ≤ a.toNat → a.toNat < 0x800 → ∃ m : Palette,
      step s = .next { s with env := env, pal := m } ∧
      ∀ i, ({ s with pal := m } : State).palEntry i
        = if i = (a.toNat - 0x400) / 4 then w.setWidth 24 else s.palEntry i) ∧
    (0x1000 ≤ a.toNat → a.toNat < 0x2000 → ∃ m : Memory,
      step s = .next { s with env := env, src := m } ∧
      ∀ j, ({ s with src := m } : State).srcByte j
        = if j / 4 = (a.toNat - 0x1000) / 4 then w.extractLsb' (8 * (j % 4)) 8 else s.srcByte j)

/-- R79: no host read has a side effect: it adds the word it returns to the log, and at most counts an
unspecified value as used. -/
def Obligations.HostReadHasNoSideEffect : Prop :=
  ∀ (s : State) (a : HostAddr) (env : List Event), s.env = .hostRead a :: env →
    ∃ (w : Word) (n : Nat),
      step s = .next { s with env := env, hostLog := (a, w) :: s.hostLog, freeCount := n }

/-- R25 to R36, R241: what a read of each register returns at any time, BUSY or not: the fields at their
bits and 0 in every reserved bit; CMD_HI reads 0. -/
def Obligations.RegisterReadsReturn : Prop :=
  ∀ (s : State) (a : HostAddr) (env : List Event), s.env = .hostRead a :: env →
    ∃ t, step s = .next t ∧ ∀ w, t.hostLog.head? = some (a, w) →
      (a.toNat / 4 * 4 = 0x000 → s.params.legal →
        w.toNat = s.params.rowBytes + s.params.height * 2 ^ 8 + 1 * 2 ^ 24) ∧
      (a.toNat / 4 * 4 = 0x004 → w.toNat = s.coalesce.toNat) ∧
      (a.toNat / 4 * 4 = 0x008 →
        w.toNat = s.busy.toNat + s.err.code.toNat * 2 ^ 4 + s.ovr.toNat * 2 ^ 8) ∧
      (a.toNat / 4 * 4 = 0x010 → w = s.cmdLo) ∧
      (a.toNat / 4 * 4 = 0x014 → w = 0) ∧
      (a.toNat / 4 * 4 = 0x018 → w.toNat = s.srcLen.toNat) ∧
      (a.toNat / 4 * 4 = 0x01C → w.toNat = s.palLen.toNat) ∧
      (a.toNat / 4 * 4 = 0x020 → w = s.opc) ∧
      (a.toNat / 4 * 4 = 0x024 → w.toNat = s.nopb.toNat) ∧
      (a.toNat / 4 * 4 = 0x028 → w.toNat = s.rowLen.toNat + s.endLen.toNat * 2 ^ 4)

/-- R28, R37 to R40, R71, R73, R241: what a read of RESULT, of DIRTYj and of an FB word returns while
BUSY = 0 (0 beyond the framebuffer), and what a read of a palette entry and of a SRCBUF word returns at any
time, bit by bit. -/
def Obligations.WindowReadsReturn : Prop :=
  ∀ (s : State) (a : HostAddr) (env : List Event), s.env = .hostRead a :: env →
    ∃ t, step s = .next t ∧ ∀ w, t.hostLog.head? = some (a, w) →
      (s.busy = false → a.toNat / 4 * 4 = 0x00C → w = s.result) ∧
      (s.busy = false → 0x040 ≤ a.toNat → a.toNat < 0x060 → ∀ i < 32,
        w.getLsbD i = (decide (32 * ((a.toNat - 0x040) / 4) + i < s.params.height)
          && s.isDirty (32 * ((a.toNat - 0x040) / 4) + i))) ∧
      (s.busy = false → 0x2000 ≤ a.toNat → ∀ i < 32,
        let o := (a.toNat - 0x2000) / 4 * 4 + i / 8
        w.getLsbD i = (decide (o < s.params.height * s.params.rowBytes)
          && fbBit s.params s.fb (o / s.params.rowBytes) (8 * (o % s.params.rowBytes) + i % 8))) ∧
      (0x400 ≤ a.toNat → a.toNat < 0x800 →
        w.toNat = (s.palEntry ((a.toNat - 0x400) / 4)).toNat) ∧
      (0x1000 ≤ a.toNat → a.toNat < 0x2000 → ∀ n < 4,
        w.extractLsb' (8 * n) 8 = s.srcByte (4 * ((a.toNat - 0x1000) / 4) + n))

/-! ### Reset -/

/-- R8, R231, R232: the values of the state elements of this hardware after reset, and the two values that
are parameters after reset of any implementation. -/
def Obligations.ResetValues : Prop :=
  (State.reset.params.legal ∧ State.reset.params.width = 128 ∧ State.reset.params.height = 128 ∧
    State.reset.params.rowBytes = 16) ∧
  State.reset.readTarget (target 0x000) = 0x01008010 ∧
  State.reset.readTarget (target 0x004) = 0x00000001 ∧
  State.reset.readTarget (target 0x008) = 0x00000000 ∧
  State.reset.readTarget (target 0x00C) = 0x00000000 ∧
  State.reset.readTarget (target 0x010) = 0x00000000 ∧
  State.reset.readTarget (target 0x018) = 0 ∧
  State.reset.readTarget (target 0x01C) = 0 ∧
  State.reset.readTarget (target 0x020) = 0x00002080 ∧
  State.reset.readTarget (target 0x024) = 0x00000000 ∧
  State.reset.readTarget (target 0x028) = 0x00000021 ∧
  (∀ o, fbRead State.reset.fb o = 0x00) ∧ (∀ r, State.reset.isDirty r = false) ∧
  State.reset.eng = .idle ∧ State.reset.phase = .idle ∧ State.reset.csOpen = false ∧
  State.reset.pending = none ∧
  ∀ p : Config.Params, (State.resetOf p).params = p ∧
    (State.resetOf p).opc = 0x00#16 ++ p.rstOpcClear ++ p.rstOpcUpdate

/-- R230, R231: a reset gives every element of the block its reset value, whatever was running; no bus
request is completed by it. The model's own fields `env`, `busLog`, `hostLog`, `freeCount` and
`resets` are the model's choice (log entries 10 and 15), and so is the empty flush cursor, to which R231
gives no value (log entry 16). The parameters stay (log entry 7). -/
def Obligations.ResetRestoresBlock : Prop :=
  ∀ (s : State) (env : List Event), s.env = .reset :: env →
    step s = .next { State.resetOf s.params with
      env := env, busLog := s.busLog, hostLog := s.hostLog, freeCount := s.freeCount,
      resets := s.resets + 1 }

/-! ### The lookup unit and the quantizer -/

/-- R150, R151: bit `i` of `rev8(b)` is bit `7 - i` of `b`; rev8 is its own inverse and a bijection.
xform(b) = ~rev8(b) is a bijection, xform(0xFF) = 0x00, xform(0x00) = 0xFF, and it is the byte sent for
framebuffer byte b: bit `7 - j` of the byte sent for byte k of row r is the complement of column 8k + j. -/
def Obligations.SentBytesReverseAndInvert : Prop :=
  (∀ (b : Byte) (i : Nat), i < 8 → (rev8 b).getLsbD i = b.getLsbD (7 - i)) ∧
  (∀ b : Byte, rev8 (rev8 b) = b) ∧ Function.Bijective rev8 ∧
  (∀ b : Byte, xform b = ~~~rev8 b) ∧
  Function.Bijective xform ∧ xform 0xFF = 0x00 ∧ xform 0x00 = 0xFF ∧
  ∀ (s : State) (r k j : Nat), k < s.params.rowBytes → j < 8 →
    ∃ b, (s.payloadSeq r)[k + 1]? = some (.data, b) ∧
      b.getLsbD (7 - j) = !fbBit s.params s.fb r (8 * k + j)

/-- R153: no two rows map to one gate-line address, and no row to 0x00. -/
def Obligations.GateLineAddressInjective : Prop :=
  ∀ p : Config.Params, p.legal →
    (∀ r r', r < p.height → r' < p.height → gla r = gla r' → r = r') ∧
    ∀ r, r < p.height → gla r ≠ 0x00

/-- R155 to R157: the quantizer of a colour 0xRRGGBB: its sum, which never overflows 24 bits, luma and the
bit as quotients of the sum, which computing luma first and dividing by 128 gives too, and the threshold
forms with their consequences. -/
def Obligations.QuantizerThreshold : Prop :=
  (∀ rgb : Rgb,
    let sum := rgb.toNat / 2 ^ 16 * 19661 + rgb.toNat / 2 ^ 8 % 2 ^ 8 * 38666 + rgb.toNat % 2 ^ 8 * 7209
    sum ≤ 16711680 ∧ 16711680 < 2 ^ 24 ∧ lumaSum rgb = sum ∧ luma rgb = sum / 65536 ∧
      luma rgb ≤ 255 ∧ quant rgb = sum / (65536 * 128) ∧ quant rgb ≤ 1 ∧ luma rgb / 128 = quant rgb ∧
      (quant rgb = 1 ↔ sum ≥ 8388608) ∧ (quant rgb = 1 ↔ luma rgb ≥ 128)) ∧
  lumaSum 0xFFFFFF = 16711680 ∧
  quant 0x000000 = 0 ∧ quant 0xFFFFFF = 1 ∧ lumaSum 0x808080 = 8388608 ∧ quant 0x808080 = 1 ∧
  quant 0x7F7F7F = 0 ∧
  (∀ rgb : Rgb, green rgb = 0 → lumaSum rgb ≤ 6851850 ∧ quant rgb = 0) ∧
  lumaSum 0xFF00FF = 6851850 ∧
  (∀ rgb : Rgb, red rgb = 0 → blue rgb = 0 → (quant rgb = 1 ↔ green rgb ≥ 217))

/-! ### NOP and the queries -/

/-- R160: NOP leaves every state element unchanged but for its completion: ERR = 0, BUSY = 0. -/
def Obligations.NopDoesNothing : Prop :=
  ∀ s : State, exec .nop s = .next { s with err := .ok, eng := .idle }

/-- R155, R161: QUANT of 0xRRGGBB writes luma = S / 65536 into RESULT[15:8] and the bit S / (65536 * 128)
into RESULT[0], with S = R * 19661 + G * 38666 + B * 7209, and nothing else. -/
def Obligations.QuantWritesResult : Prop :=
  ∀ (s : State) (rgb : Rgb),
    let sum := rgb.toNat / 2 ^ 16 * 19661 + rgb.toNat / 2 ^ 8 % 2 ^ 8 * 38666 + rgb.toNat % 2 ^ 8 * 7209
    exec (.quant rgb) s
      = .next { s with result := BitVec.ofNat 32 (sum / 65536 * 2 ^ 8 + sum / (65536 * 128)),
                       err := .ok, eng := .idle }

/-- R152, R162: GLA writes the gate-line address of a row, rev8(row + 1), into RESULT, or raises BOUNDS and
leaves RESULT unchanged when row ≥ HEIGHT. -/
def Obligations.GlaWritesResult : Prop :=
  ∀ (s : State) (row : Byte),
    (row.toNat < s.params.height →
      gla row.toNat = rev8 (BitVec.ofNat 8 (row.toNat + 1)) ∧
      exec (.gla row) s
        = .next { s with result := (rev8 (BitVec.ofNat 8 (row.toNat + 1))).setWidth 32, err := .ok,
                         eng := .idle }) ∧
    (row.toNat ≥ s.params.height →
      exec (.gla row) s = .next { s with err := .bounds, eng := .idle })

/-- R163: XFORM writes the transformed byte into RESULT, and nothing else. -/
def Obligations.XformWritesResult : Prop :=
  ∀ (s : State) (b : Byte),
    exec (.xform b) s
      = .next { s with result := (~~~rev8 b).setWidth 32, err := .ok, eng := .idle }

/-! ### The raster commands -/

/-- R110: the bit of a row mask for column `c` is 1 exactly when x1 ≤ c ≤ x2. -/
def Obligations.RowmaskBits : Prop :=
  ∀ (p : Config.Params) (x1 x2 : Nat), p.legal → x1 ≤ x2 → x2 < p.width →
    (rowmask p x1 x2).length = p.rowBytes ∧
    ∀ c, c < p.width →
      (((rowmask p x1 x2)[c / 8]?).getD 0).getLsbD (c % 8) = decide (x1 ≤ c ∧ c ≤ x2)

/-- R111: bits of row `r` where the mask is 1 become the colour, bits where it is 0 keep their value, and
no other row changes. -/
def Obligations.ComposeFollowsMask : Prop :=
  ∀ (p : Config.Params) (m : Memory) (r : Nat) (mask : List Byte) (color : Bool), p.legal →
    mask.length = p.rowBytes →
    (∀ r' c, c < p.width →
      fbBit p (compose p m r mask color) r' c
        = if r' = r ∧ ((mask[c / 8]?).getD 0).getLsbD (c % 8) = true then color
          else fbBit p m r' c) ∧
    ∀ o, o / p.rowBytes ≠ r → fbRead (compose p m r mask color) o = fbRead m o

/-- R120: POINT in range sets or clears exactly one pixel and marks its row dirty; every other pixel, byte,
flag and field is unchanged. -/
def Obligations.PointDrawsOnePixel : Prop :=
  ∀ (s : State) (x y : Byte) (color : Bool), s.params.legal →
    x.toNat < s.params.width → y.toNat < s.params.height →
    ∃ (m : Memory) (d : BitVec Config.dirtyBits),
      exec (.point x y color) s
        = .next { s with fb := m, dirty := d, err := .ok, eng := .idle } ∧
      (∀ r c, c < s.params.width →
        fbBit s.params m r c = if r = y.toNat ∧ c = x.toNat then color else fbBit s.params s.fb r c) ∧
      (∀ o, o / s.params.rowBytes ≠ y.toNat → fbRead m o = fbRead s.fb o) ∧
      ∀ r, d.getLsbD r = (s.isDirty r || decide (r = y.toNat))

/-- R122: HLINE in range makes columns x1..x2 of row y the colour and marks the row dirty; everything
else is unchanged. -/
def Obligations.HlineDrawsColumns : Prop :=
  ∀ (s : State) (x1 x2 y : Byte) (color : Bool), s.params.legal →
    x1.toNat ≤ x2.toNat → x2.toNat < s.params.width → y.toNat < s.params.height →
    ∃ (m : Memory) (d : BitVec Config.dirtyBits),
      exec (.hline x1 x2 y color) s
        = .next { s with fb := m, dirty := d, err := .ok, eng := .idle } ∧
      (∀ r c, c < s.params.width →
        fbBit s.params m r c
          = if r = y.toNat ∧ x1.toNat ≤ c ∧ c ≤ x2.toNat then color else fbBit s.params s.fb r c) ∧
      (∀ o, o / s.params.rowBytes ≠ y.toNat → fbRead m o = fbRead s.fb o) ∧
      ∀ r, d.getLsbD r = (s.isDirty r || decide (r = y.toNat))

/-- R124: VLINE in range makes column x of rows y1..y2 the colour and marks these rows dirty; everything
else is unchanged. -/
def Obligations.VlineDrawsRows : Prop :=
  ∀ (s : State) (x y1 y2 : Byte) (color : Bool), s.params.legal →
    x.toNat < s.params.width → y1.toNat ≤ y2.toNat → y2.toNat < s.params.height →
    ∃ (m : Memory) (d : BitVec Config.dirtyBits),
      exec (.vline x y1 y2 color) s
        = .next { s with fb := m, dirty := d, err := .ok, eng := .idle } ∧
      (∀ r c, c < s.params.width →
        fbBit s.params m r c
          = if (y1.toNat ≤ r ∧ r ≤ y2.toNat) ∧ c = x.toNat then color else fbBit s.params s.fb r c) ∧
      (∀ o, ¬(y1.toNat ≤ o / s.params.rowBytes ∧ o / s.params.rowBytes ≤ y2.toNat) →
        fbRead m o = fbRead s.fb o) ∧
      ∀ r, d.getLsbD r = (s.isDirty r || decide (y1.toNat ≤ r ∧ r ≤ y2.toNat))

/-- R126: FILL in range makes the rectangle the colour and marks its rows dirty; everything else is
unchanged. -/
def Obligations.FillDrawsRectangle : Prop :=
  ∀ (s : State) (x1 y1 x2 y2 : Byte) (color : Bool), s.params.legal →
    x1.toNat ≤ x2.toNat → x2.toNat < s.params.width → y1.toNat ≤ y2.toNat →
    y2.toNat < s.params.height →
    ∃ (m : Memory) (d : BitVec Config.dirtyBits),
      exec (.fill x1 y1 x2 y2 color) s
        = .next { s with fb := m, dirty := d, err := .ok, eng := .idle } ∧
      (∀ r c, c < s.params.width →
        fbBit s.params m r c
          = if (y1.toNat ≤ r ∧ r ≤ y2.toNat) ∧ x1.toNat ≤ c ∧ c ≤ x2.toNat then color
            else fbBit s.params s.fb r c) ∧
      (∀ o, ¬(y1.toNat ≤ o / s.params.rowBytes ∧ o / s.params.rowBytes ≤ y2.toNat) →
        fbRead m o = fbRead s.fb o) ∧
      ∀ r, d.getLsbD r = (s.isDirty r || decide (y1.toNat ≤ r ∧ r ≤ y2.toNat))

/-- R113, R131: a raster command whose coordinates are out of range or whose range is reversed raises
BOUNDS, code 3, and changes nothing else. -/
def Obligations.BadCoordinatesRejected : Prop :=
  ErrCode.bounds.code = 3 ∧
  ∀ (s : State) (a b c d : Byte) (color : Bool),
    (a.toNat ≥ s.params.width ∨ b.toNat ≥ s.params.height →
      exec (.point a b color) s = .next { s with err := .bounds, eng := .idle }) ∧
    (a.toNat > b.toNat ∨ a.toNat ≥ s.params.width ∨ b.toNat ≥ s.params.width ∨
        c.toNat ≥ s.params.height →
      exec (.hline a b c color) s = .next { s with err := .bounds, eng := .idle }) ∧
    (a.toNat ≥ s.params.width ∨ b.toNat > c.toNat ∨ b.toNat ≥ s.params.height ∨
        c.toNat ≥ s.params.height →
      exec (.vline a b c color) s = .next { s with err := .bounds, eng := .idle }) ∧
    (a.toNat > c.toNat ∨ a.toNat ≥ s.params.width ∨ c.toNat ≥ s.params.width ∨ b.toNat > d.toNat ∨
        b.toNat ≥ s.params.height ∨ d.toNat ≥ s.params.height →
      exec (.fill a b c d color) s = .next { s with err := .bounds, eng := .idle }) ∧
    ∀ (srclsb palq : Bool) (srcoff : BitVec 24),
      a.toNat ≥ s.params.width ∨ b.toNat ≥ s.params.height ∨ a.toNat + c.toNat > s.params.width →
        exec (.blit1 srclsb palq a b c srcoff) s = .next { s with err := .bounds, eng := .idle } ∧
        exec (.blit8 false palq a b c srcoff) s = .next { s with err := .bounds, eng := .idle }

/-- R121: after POINT c, r, 1 the bit at (r, c) is 1, after POINT c, r, 0 it is 0, and no other bit of
row r changes. -/
def Obligations.PointRoundTrip : Prop :=
  ∀ (s : State) (c r : Byte) (color : Bool), s.params.legal →
    c.toNat < s.params.width → r.toNat < s.params.height →
    fbBit s.params (after (.point c r color) s).fb r.toNat c.toNat = color ∧
    ∀ c' : Nat, c' < s.params.width → c' ≠ c.toNat →
      fbBit s.params (after (.point c r color) s).fb r.toNat c' = fbBit s.params s.fb r.toNat c'

/-- R123: two horizontal lines with color 1 leave the union of their ranges set; a line of color 0 clears no
pixel outside its exact range. -/
def Obligations.OverlappingLines : Prop :=
  ∀ (s : State) (a1 a2 b1 b2 y : Byte), s.params.legal →
    a1.toNat ≤ a2.toNat → a2.toNat < s.params.width → b1.toNat ≤ b2.toNat →
    b2.toNat < s.params.width → y.toNat < s.params.height → ∀ c, c < s.params.width →
      (a1.toNat ≤ c ∧ c ≤ a2.toNat ∨ b1.toNat ≤ c ∧ c ≤ b2.toNat →
        fbBit s.params (afterAll [.hline a1 a2 y true, .hline b1 b2 y true] s).fb y.toNat c = true) ∧
      (∀ r, fbBit s.params s.fb r c = true → ¬(r = y.toNat ∧ b1.toNat ≤ c ∧ c ≤ b2.toNat) →
        fbBit s.params (after (.hline b1 b2 y false) s).fb r c = true)

/-- R125: VLINE x, y1, y2, c leaves FB and DIRTY as the sequence POINT x, y, c for y = y1 .. y2 would. -/
def Obligations.VlineIsPoints : Prop :=
  ∀ (s : State) (x y1 y2 : Byte) (color : Bool),
    x.toNat < s.params.width → y1.toNat ≤ y2.toNat → y2.toNat < s.params.height →
    let t := after (.vline x y1 y2 color) s
    let t' := afterAll ((List.range' y1.toNat (y2.toNat + 1 - y1.toNat)).map fun y =>
      .point x (BitVec.ofNat 8 y) color) s
    t.fb = t'.fb ∧ t.dirty = t'.dirty

/-- R127: FILL x1, y1, x2, y2, c leaves FB and DIRTY as HLINE x1, x2, y, c for y = y1 .. y2 would; with
x1 = x2, as POINT x1, y, c for y = y1 .. y2 would. -/
def Obligations.FillIsLines : Prop :=
  ∀ (s : State) (x1 y1 x2 y2 : Byte) (color : Bool),
    x1.toNat ≤ x2.toNat → x2.toNat < s.params.width → y1.toNat ≤ y2.toNat →
    y2.toNat < s.params.height →
    let t := after (.fill x1 y1 x2 y2 color) s
    let rows := List.range' y1.toNat (y2.toNat + 1 - y1.toNat)
    let lines := afterAll (rows.map fun y => .hline x1 x2 (BitVec.ofNat 8 y) color) s
    let points := afterAll (rows.map fun y => .point x1 (BitVec.ofNat 8 y) color) s
    (t.fb = lines.fb ∧ t.dirty = lines.dirty) ∧
      (x1 = x2 → t.fb = points.fb ∧ t.dirty = points.dirty)

/-- R130, R132 to R136, R140: BLIT.1 whose checks pass copies the colour of each pixel's palette entry into
columns x .. x+count-1 of row y and marks the row dirty when there is a pixel; everything else is
unchanged. The index of pixel i is the source bit at position srcoff + i, from bit 7 down, or with
SRCLSB from bit 0 up. -/
def Obligations.BlitOneBitCopiesPixels : Prop :=
  ∀ (s : State) (srclsb palq : Bool) (x y count : Byte) (srcoff : BitVec 24), s.params.legal →
    let index := fun i : Nat =>
      ((s.srcByte ((srcoff.toNat + i) / 8)).getLsbD
        (if srclsb then (srcoff.toNat + i) % 8 else 7 - (srcoff.toNat + i) % 8)).toNat
    let color := fun i : Nat =>
      if palq then decide ((s.palEntry (index i)).toNat % 256 ≠ 0)
      else decide (quant (s.palEntry (index i)) = 1)
    x.toNat < s.params.width → y.toNat < s.params.height →
    x.toNat + count.toNat ≤ s.params.width →
    srcoff.toNat + count.toNat ≤ 8 * s.srcLen.toNat →
    (∀ i < count.toNat, index i < s.palLen.toNat) →
    ∃ (m : Memory) (d : BitVec Config.dirtyBits),
      exec (.blit1 srclsb palq x y count srcoff) s
        = .next { s with fb := m, dirty := d, err := .ok, eng := .idle } ∧
      (∀ r c, c < s.params.width →
        fbBit s.params m r c
          = if r = y.toNat ∧ x.toNat ≤ c ∧ c < x.toNat + count.toNat then color (c - x.toNat)
            else fbBit s.params s.fb r c) ∧
      (∀ o, o / s.params.rowBytes ≠ y.toNat → fbRead m o = fbRead s.fb o) ∧
      ∀ r, d.getLsbD r = (s.isDirty r || decide (r = y.toNat ∧ 0 < count.toNat))

/-- R130, R132 to R136, R140: BLIT.8 whose checks pass: as BLIT.1, the index of pixel i is the source byte
srcoff / 8 + i. -/
def Obligations.BlitEightBitCopiesPixels : Prop :=
  ∀ (s : State) (palq : Bool) (x y count : Byte) (srcoff : BitVec 24), s.params.legal →
    let index := fun i : Nat => (s.srcByte (srcoff.toNat / 8 + i)).toNat
    let color := fun i : Nat =>
      if palq then decide ((s.palEntry (index i)).toNat % 256 ≠ 0)
      else decide (quant (s.palEntry (index i)) = 1)
    x.toNat < s.params.width → y.toNat < s.params.height →
    x.toNat + count.toNat ≤ s.params.width → srcoff.toNat % 8 = 0 →
    srcoff.toNat + count.toNat * 8 ≤ 8 * s.srcLen.toNat →
    (∀ i < count.toNat, index i < s.palLen.toNat) →
    ∃ (m : Memory) (d : BitVec Config.dirtyBits),
      exec (.blit8 false palq x y count srcoff) s
        = .next { s with fb := m, dirty := d, err := .ok, eng := .idle } ∧
      (∀ r c, c < s.params.width →
        fbBit s.params m r c
          = if r = y.toNat ∧ x.toNat ≤ c ∧ c < x.toNat + count.toNat then color (c - x.toNat)
            else fbBit s.params s.fb r c) ∧
      (∀ o, o / s.params.rowBytes ≠ y.toNat → fbRead m o = fbRead s.fb o) ∧
      ∀ r, d.getLsbD r = (s.isDirty r || decide (r = y.toNat ∧ 0 < count.toNat))

/-- R131, R137, R138, R139, R213: the errors of BLIT, the first that applies in the order RSVD (BLIT.8 with
SRCLSB), BOUNDS, SRC_ALIGN, SRC_RANGE, PAL_RANGE; each changes nothing else. -/
def Obligations.BlitErrorsInOrder : Prop :=
  ∀ (s : State) (srclsb palq : Bool) (x y count : Byte) (srcoff : BitVec 24),
    let out := x.toNat ≥ s.params.width ∨ y.toNat ≥ s.params.height ∨
      x.toNat + count.toNat > s.params.width
    let raised := fun code : ErrCode =>
      Host.Outcome.next (φ := Fault) (ρ := Refusal) { s with err := code, eng := .idle }
    (out → exec (.blit1 srclsb palq x y count srcoff) s = raised .bounds) ∧
    (¬out → srcoff.toNat + count.toNat > 8 * s.srcLen.toNat →
      exec (.blit1 srclsb palq x y count srcoff) s = raised .srcRange) ∧
    (¬out → srcoff.toNat + count.toNat ≤ 8 * s.srcLen.toNat →
      (∃ i < count.toNat,
        ((s.srcByte ((srcoff.toNat + i) / 8)).getLsbD
          (if srclsb then (srcoff.toNat + i) % 8 else 7 - (srcoff.toNat + i) % 8)).toNat
            ≥ s.palLen.toNat) →
      exec (.blit1 srclsb palq x y count srcoff) s = raised .palRange) ∧
    exec (.blit8 true palq x y count srcoff) s = raised .rsvd ∧
    (out → exec (.blit8 false palq x y count srcoff) s = raised .bounds) ∧
    (¬out → srcoff.toNat % 8 ≠ 0 →
      exec (.blit8 false palq x y count srcoff) s = raised .srcAlign) ∧
    (¬out → srcoff.toNat % 8 = 0 → srcoff.toNat + count.toNat * 8 > 8 * s.srcLen.toNat →
      exec (.blit8 false palq x y count srcoff) s = raised .srcRange) ∧
    (¬out → srcoff.toNat % 8 = 0 → srcoff.toNat + count.toNat * 8 ≤ 8 * s.srcLen.toNat →
      (∃ i < count.toNat, (s.srcByte (srcoff.toNat / 8 + i)).toNat ≥ s.palLen.toNat) →
      exec (.blit8 false palq x y count srcoff) s = raised .palRange)

/-! ### The serializer, CLEAR and FLUSH -/

/-- R182: an update transaction of m + 1 rows carries 1 + (m + 1) (1 + ROWBYTES) + m ROWLEN + ENDLEN
bytes. -/
def Obligations.UpdateByteCount : Prop :=
  ∀ (s : State) (rows : List Nat) (m : Nat), rows.length = m + 1 →
    (s.updateSeq rows).length
      = 1 + (m + 1) * (1 + s.params.rowBytes) + m * s.rowLen.toNat + s.endLen.toNat

/-- R184: the address and data bytes a burst sends for its j-th row equal those a single-row update of
that row sends. -/
def Obligations.BurstPayloadIdentity : Prop :=
  ∀ (s : State) (rows : List Nat) (j r : Nat), rows[j]? = some r →
    (((s.updateSeq rows).drop (1 + j * (1 + s.params.rowBytes + s.rowLen.toNat))).take
        (1 + s.params.rowBytes)).map Prod.snd
      = (((s.updateSeq [r]).drop 1).take (1 + s.params.rowBytes)).map Prod.snd

/-- R186: without COALESCE every row is a group of its own; with it the groups are runs of consecutive
rows, in order, together all the rows, and no two neighbouring runs could be one. -/
def Obligations.GroupsAreMaximalRuns : Prop :=
  ∀ rows : List Nat,
    runs rows false = rows.map (fun r => [r]) ∧
    (runs rows true).flatten = rows ∧
    (∀ g ∈ runs rows true, g ≠ [] ∧ ∀ j, j + 1 < g.length → g[j + 1]? = (g[j]?).map (· + 1)) ∧
    (runs rows true).IsChain fun g h => ∀ a ∈ g.getLast?, ∀ b ∈ h.head?, b ≠ a + 1

/-- R179: CLEAR whose four requests all complete OK sends ASSERT, OPC.CLR, OPC.PAD, DEASSERT, leaves FB and
DIRTY zero, and completes; everything else but the closed channel is unchanged. -/
def Obligations.ClearSucceeds : Prop :=
  ∀ (s : State) (env : List Event),
    s.env = answers [.ok, .ok, .ok, .ok] ++ env →
      exec .clear s = .next { s with
        fb := [], dirty := 0, err := .ok, eng := .idle,
        phase := .idle, csOpen := false, pending := none, job := .none, left := [], failed := false,
        env := env,
        busLog := (.deassert, .ok) :: (.byte (s.opc.extractLsb' 16 8), .ok) ::
          (.byte (s.opc.extractLsb' 8 8), .ok) :: (.assert, .ok) :: s.busLog }

/-- R170, R173, R179: CLEAR follows its pseudocode on every list of answers. When it has returned: on success
FB and DIRTY are zero, on failure FB is zero, every DIRTY flag is 1 and the code is BUS. When the answers
have run out: the pseudocode's request is presented, its remaining bytes are left, in CmdPhase, BUSY and ERR
are as they were, and FB and DIRTY are untouched (cs_open while ASSERT or DEASSERT is presented: log entry
8; the phase while DEASSERT is: log entry 9). -/
def Obligations.ClearFollowsPseudocode : Prop :=
  ∀ (s : State) (os : List BusOutcome) (env : List Event), s.env = answers os ++ env →
    match txn [s.opc.extractLsb' 8 8, s.opc.extractLsb' 16 8] os with
    | .done o trace rest =>
      exec .clear s = .next { s with
        fb := [], dirty := if o = .ok then 0 else allRows s.params,
        err := if o = .ok then .ok else .bus, eng := .idle,
        phase := .idle, csOpen := false, pending := none, job := .none, left := [], failed := false,
        env := answers rest ++ env, busLog := trace.reverse ++ s.busLog }
    | .waits req remaining trace =>
      noAnswerNext env → ∃ left : List (Phase × Byte),
        left.map (fun p => BusReq.byte p.2) = remaining ∧ (∀ p ∈ left, p.1 = .cmd) ∧
        exec .clear s = .next { s with
          phase := .cmd, csOpen := true, pending := some req, job := .clear, left := left,
          failed := anyErr trace, env := env, busLog := trace.reverse ++ s.busLog }

/-- R170, R173, R185, R186, R188, R189: FLUSH follows its pseudocode on every list of answers: the groups of the
dirty rows in order, the flags of each group cleared when its transaction has returned OK, an abort with
BUS at the first failed transaction, the refresh last; FB is unchanged, and the cursor is put back to empty
(log entry 16). When the answers have run out: the pseudocode's request is presented, its remaining bytes
are left, BUSY and ERR are as they were, and the flags of the groups sent so far, and no others, are
cleared (cs_open while ASSERT or DEASSERT is presented: log entry 8). -/
def Obligations.FlushFollowsPseudocode : Prop :=
  ∀ (s : State) (os : List BusOutcome) (env : List Event), s.env = answers os ++ env →
    match s.flushGroups (runs s.dirtyRows s.coalesce) s.dirty os with
    | .done (code, d) trace rest =>
      exec .flush s = .next { s with
        dirty := d, err := code, eng := .idle,
        phase := .idle, csOpen := false, pending := none, job := .none, left := [], failed := false,
        cursor := ⟨[], [], []⟩, env := answers rest ++ env, busLog := trace.reverse ++ s.busLog }
    | .waits req (remaining, d) trace =>
      noAnswerNext env → ∃ (phase : Phase) (job : Job) (left : List (Phase × Byte)) (cursor : Cursor),
        left.map (fun p => BusReq.byte p.2) = remaining ∧ (job = .update ∨ job = .refresh) ∧
        exec .flush s = .next { s with
          dirty := d, phase := phase, csOpen := true, pending := some req, job := job, left := left,
          failed := anyErr trace, cursor := cursor, env := env, busLog := trace.reverse ++ s.busLog }

/-- R170, R172: answers that come later do what they would have done at once. What CLEAR or FLUSH leaves when
it has run out of answers, and what a later step leaves that has, goes on with more answers as if all had
been there at the beginning: with the two statements before this one, a CLEAR or FLUSH served over any
number of steps does what R179, R185, R188 and R189 say. -/
def Obligations.AnswersMayComeLater : Prop :=
  ∀ (s t : State) (os os' : List BusOutcome) (env : List Event), os' ≠ [] → t.pending ≠ none →
    (∀ i : Instr, i = .clear ∨ i = .flush → exec i { s with env := answers os } = .next t →
      step { t with env := answers os' ++ env } = exec i { s with env := answers (os ++ os') ++ env }) ∧
    (s.pending ≠ none → os ≠ [] → step { s with env := answers os } = .next t →
      step { t with env := answers os' ++ env } = step { s with env := answers (os ++ os') ++ env })

/-- R177: the opcode of an update, both bytes of a clear and both bytes of a refresh transaction are sent in
CmdPhase, gate-line addresses in AddressPhase, row bytes in DataPhase, trailers in TrailerPhase; and in every
good state a presented byte is the next of its transaction, in that byte's phase, the rest being left. -/
def Obligations.BytesSentInTheirPhases : Prop :=
  (∀ s : State,
    s.clearSeq = [(.cmd, s.opc.extractLsb' 8 8), (.cmd, s.opc.extractLsb' 16 8)] ∧
    s.refreshSeq = [(.cmd, s.nopb.extractLsb' 0 8), (.cmd, s.nopb.extractLsb' 8 8)] ∧
    ∀ rows : List Nat, s.updateSeq rows
      = (.cmd, s.opc.extractLsb' 0 8) :: rows.zipIdx.flatMap fun (r, j) =>
          (.address, gla r) :: ((readRow s.params s.fb r).map fun b => (Phase.data, xform b)) ++
            List.replicate (if j + 1 < rows.length then s.rowLen.toNat else s.endLen.toNat)
              (.trailer, s.opc.extractLsb' 24 8)) ∧
  ∀ (s : State) (b : Byte), s.Inv → s.pending = some (.byte b) →
    ∃ presented, presented ++ (s.phase, b) :: s.left = match s.job with
      | .none => []
      | .clear => s.clearSeq
      | .update => s.updateSeq s.cursor.current
      | .refresh => s.refreshSeq

/-- R185, R190, R191, R246: FLUSH whose requests all complete OK makes exactly the number of requests the
bound gives, sends one frame for each group and the refresh frame, clears every DIRTY flag and completes;
FB is unchanged, and the cursor is put back to empty (log entry 16). With no dirty row these are exactly
the four requests of the refresh transaction. -/
def Obligations.FlushSucceeds : Prop :=
  ∀ (s : State) (env : List Event), s.StorageInv →
    let ends := fun log : List (BusReq × BusOutcome) =>
      Host.Outcome.next (φ := Fault) (ρ := Refusal) { s with
        dirty := 0, err := .ok, eng := .idle,
        phase := .idle, csOpen := false, pending := none, job := .none, left := [], failed := false,
        cursor := ⟨[], [], []⟩, env := env, busLog := log.reverse ++ s.busLog }
    (s.env = answers (List.replicate (s.flushRequests (runs s.dirtyRows s.coalesce)) .ok) ++ env →
      exec .flush s = ends (((runs s.dirtyRows s.coalesce).flatMap fun g => okFrame (s.updateBytes g)) ++
        okFrame [s.nop0, s.nop1])) ∧
    (s.dirty = 0 → s.env = answers [.ok, .ok, .ok, .ok] ++ env →
      exec .flush s = ends [(.assert, .ok), (.byte (s.nopb.extractLsb' 0 8), .ok),
        (.byte (s.nopb.extractLsb' 8 8), .ok), (.deassert, .ok)])

/-- R188, R189: when an update transaction of a FLUSH returns ERR after earlier ones succeeded, the flags
of its rows stay, the rows of the earlier ones stay cleared, nothing more is sent, and the command
ends with BUS; when the refresh returns ERR, the cleared flags stay cleared and it ends with BUS. The
cursor is put back to empty (log entry 16). -/
def Obligations.FlushFailureKeepsRows : Prop :=
  ∀ (s : State) (env : List Event) (os : List BusOutcome) (trace : List (BusReq × BusOutcome)),
    s.StorageInv →
    let groups := runs s.dirtyRows s.coalesce
    let sent := fun done : List (List Nat) => done.flatMap fun g => okFrame (s.updateBytes g)
    let quietAfter := fun (d : BitVec Config.dirtyBits) (log : List (BusReq × BusOutcome)) =>
      Host.Outcome.next (φ := Fault) (ρ := Refusal) { s with
        dirty := d, err := .bus, eng := .idle,
        phase := .idle, csOpen := false, pending := none, job := .none, left := [], failed := false,
        cursor := ⟨[], [], []⟩, env := env, busLog := log.reverse ++ s.busLog }
    (∀ (done : List (List Nat)) (g : List Nat) (later : List (List Nat)),
      groups = done ++ g :: later → txn (s.updateBytes g) os = .done .err trace [] →
      s.env = answers (List.replicate (sent done).length .ok ++ os) ++ env →
        exec .flush s = quietAfter (clearRows s.dirty done.flatten) (sent done ++ trace)) ∧
    (txn [s.nop0, s.nop1] os = .done .err trace [] →
      s.env = answers (List.replicate (sent groups).length .ok ++ os) ++ env →
        exec .flush s = quietAfter 0 (sent groups ++ trace))

/-- R84, R173, R176: from every good state, the requests a step completes continue the chip-select
windows: bytes only inside a window, one DEASSERT for every ASSERT, no window inside another. -/
def Obligations.StepKeepsFrames : Prop :=
  ∀ s t : State, s.Inv → ¬resetNext s → step s = .next t →
    ∃ new : List (BusReq × BusOutcome),
      t.busLog = new.reverse ++ s.busLog ∧
      scanFrames s.insideWindow (new.map Prod.fst) = some t.insideWindow

/-! ### The whole machine -/

/-- The reset state has the invariant, for every legal choice of the parameters (R8, R231). The empty flush
cursor and the empty hidden fields of a transaction at reset are the model's (log entries 15 and 16). -/
def Obligations.ResetHasInvariant : Prop :=
  State.reset.Inv ∧ ∀ p : Config.Params, p.legal → (State.resetOf p).Inv

/-- Every step keeps the invariant and the parameters: legal parameters, canonical memories, legal lengths,
no flag beyond HEIGHT, ERR = 0 while BUSY, hidden state that agrees (R8, R27, R34, R35, R37, R49, R173,
R177, R188). That cs_open is 1 and the phase not Idle while ASSERT or DEASSERT is presented is log entries 8
and 9, the empty cursor of a block without a request log entry 16. -/
def Obligations.StepKeepsInvariant : Prop :=
  ∀ s t : State, s.Inv → step s = .next t → t.Inv ∧ t.params = s.params

/-- R43, R112: when a step changes a pixel of a row, the row is dirty afterwards, unless the step left all
of FB zero and no row dirty: a successful CLEAR, or a reset. -/
def Obligations.ChangedRowIsDirty : Prop :=
  ∀ s t : State, s.Inv → step s = .next t → ∀ r c, r < s.params.height → c < s.params.width →
    fbBit s.params t.fb r c ≠ fbBit s.params s.fb r c →
      t.isDirty r = true ∨
        t.fb = [] ∧ t.dirty = 0 ∧ (resetNext s ∨ s.command = some .clear ∧ t.err = .ok)

/-- R44: a step that is no reset changes FB only when the command in progress is POINT, HLINE, VLINE, FILL,
BLIT or CLEAR, and DIRTY only when it is one of these or FLUSH; host accesses change neither. -/
def Obligations.OnlyDrawingWritesFramebuffer : Prop :=
  ∀ s t : State, s.Inv → ¬resetNext s → step s = .next t →
    (t.fb ≠ s.fb → ∃ i, s.command = some i ∧ writesFb i = true) ∧
    (t.dirty ≠ s.dirty →
      ∃ i, s.command = some i ∧ (writesFb i = true ∨ i = .flush)) ∧
    (∀ e, s.env.head? = some e → (∃ a, e = .hostRead a) ∨ (∃ a w, e = .hostWrite a w) →
      t.fb = s.fb ∧ t.dirty = s.dirty)

/-- R43, R188: a DIRTY flag is cleared by a step only in a reset, in a CLEAR that completes OK, or in a FLUSH
among whose requests the step completes, all OK, an update transaction that carries the row, up to and with
its DEASSERT: the rest of the one in progress, or a whole one of the groups to come. -/
def Obligations.DirtyClearedOnlyByTransmission : Prop :=
  ∀ s t : State, s.Inv → step s = .next t → ∀ r, s.isDirty r = true → t.isDirty r = false →
    resetNext s ∨
      s.command = some .clear ∧ t.err = .ok ∧ t.busy = false ∨
      s.command = some .flush ∧ ∃ new : List (BusReq × BusOutcome), t.busLog = new.reverse ++ s.busLog ∧
        ((s.job = .update ∧ s.failed = false ∧ r ∈ s.cursor.current ∧ ∃ later, new = s.restOk ++ later) ∨
          ∃ g before later, g ∈ s.groupsToCome ∧ r ∈ g ∧
            new = before ++ okFrame (s.updateBytes g) ++ later)

/-- R28: a step that is no reset changes RESULT only when the command in progress is QUANT, GLA or
XFORM and it completes without error. -/
def Obligations.OnlyQueriesWriteResult : Prop :=
  ∀ s t : State, ¬resetNext s → step s = .next t → t.result ≠ s.result →
    t.err = .ok ∧ t.busy = false ∧ ∃ i, s.command = some i ∧
      ((∃ rgb, i = .quant rgb) ∨ (∃ row, i = .gla row) ∨ ∃ b, i = .xform b)

/-- R90, R216: STATUS.ERR keeps its code: a step changes it only in a reset, at the end of the accepted command,
or by accepting a command, which sets it to 0. -/
def Obligations.ErrorCodeKept : Prop :=
  ∀ s t : State, s.Inv → step s = .next t → t.err ≠ s.err →
    resetNext s ∨ s.busy = true ∧ t.busy = false ∨
      ∃ a w env, s.env = .hostWrite a w :: env ∧ a.toNat / 4 * 4 = 0x014 ∧ s.busy = false ∧
        t.err = .ok

/-- R222: an idle block keeps every element: a turn of its engine changes nothing but the model's list of
events, and neither does an answer that finds no request (log entry 3). -/
def Obligations.IdleBlockKeepsState : Prop :=
  ∀ s : State, s.busy = false →
    (s.env = [] → step s = .next s) ∧
    ∀ env : List Event,
      (s.env = .engine :: env → step s = .next { s with env := env }) ∧
      ∀ o : BusOutcome, s.pending = none → s.env = .busDone o :: env →
        step s = .next { s with env := env }

/-- R79, R82, R240: a host access while a command is running does not disturb it: whatever answers follow, the
command goes on as it would have without the access; a write can change only OVR, a read only the model's
own log and count. -/
def Obligations.HostAccessDoesNotDisturbCommand : Prop :=
  ∀ (s : State) (a : HostAddr) (w : Word) (env : List Event), s.busy = true →
    State.serve env (s.hostWrite a w)
      = { State.serve env s with ovr := (s.hostWrite a w).ovr } ∧
    State.serve env (s.hostRead a)
      = { State.serve env s with
          hostLog := (s.hostRead a).hostLog, freeCount := (s.hostRead a).freeCount }
end

