-- ==== Sys2Proof/Laws/Memory.lean ====
section
/-! SUPPORT. The laws of the memories: reading after writing, and the canonical form kept. -/

namespace Sys2Proof.Machine

/-! ### Finding after putting and deleting: in every list, sorted or not -/

@[simp] theorem find_nil {α : Type} (x : Nat) : find ([] : List (Nat × α)) x = none := rfl

@[simp] theorem find_put {α : Type} (m : List (Nat × α)) (x y : Nat) (v : α) :
    find (put m x v) y = if y = x then some v else find m y := by
  induction m with
  | nil => simp [put, find]
  | cons p m ih =>
    obtain ⟨a, u⟩ := p
    simp only [put]
    split
    · simp [find]
    · split
      · subst x; simp [find]; split <;> rfl
      · simp only [find, ih]; grind

@[simp] theorem find_del {α : Type} (m : List (Nat × α)) (x y : Nat) :
    find (del m x) y = if y = x then none else find m y := by
  induction m with
  | nil => simp [del]
  | cons p m ih =>
    obtain ⟨a, u⟩ := p
    simp only [del]
    split <;> simp only [find, ih] <;> grind

/-! ### The canonical form of a list -/

theorem rising_nil {α : Type} (size : Nat) : rising size ([] : List (Nat × α)) := by simp [rising]

theorem mem_put {α : Type} {m : List (Nat × α)} {x : Nat} {v : α} {p : Nat × α}
    (h : p ∈ put m x v) : p = (x, v) ∨ p ∈ m := by
  induction m with
  | nil => simpa [put] using h
  | cons q m ih =>
    obtain ⟨a, u⟩ := q
    simp only [put] at h
    split at h
    · grind
    · split at h
      · grind
      · grind

theorem mem_del {α : Type} {m : List (Nat × α)} {x : Nat} {p : Nat × α} (h : p ∈ del m x) :
    p ∈ m := by
  induction m with
  | nil => simp [del] at h
  | cons q m ih =>
    obtain ⟨a, u⟩ := q
    simp only [del] at h
    split at h <;> grind

theorem rising_put {α : Type} {size : Nat} {m : List (Nat × α)} (h : rising size m) {x : Nat}
    (hx : x < size) (v : α) : rising size (put m x v) := by
  refine ⟨?_, fun p hp => ?_⟩
  · have hm := h.1
    clear h
    induction m with
    | nil => simp [put]
    | cons q m ih =>
      obtain ⟨a, u⟩ := q
      obtain ⟨hq, ht⟩ := List.pairwise_cons.1 hm
      simp only [put]
      split
      · refine List.pairwise_cons.2 ⟨fun p hp => ?_, hm⟩
        rcases List.mem_cons.1 hp with rfl | hp
        · assumption
        · exact lt_trans ‹x < a› (hq p hp)
      · split
        · subst x; exact List.pairwise_cons.2 ⟨hq, ht⟩
        · refine List.pairwise_cons.2 ⟨fun p hp => ?_, ih ht⟩
          rcases mem_put hp with rfl | hp
          · simp only; omega
          · exact hq p hp
  · rcases mem_put hp with rfl | hp
    · exact hx
    · exact h.2 p hp

theorem rising_del {α : Type} {size : Nat} {m : List (Nat × α)} (h : rising size m) (x : Nat) :
    rising size (del m x) := by
  refine ⟨?_, fun p hp => h.2 p (mem_del hp)⟩
  have hm := h.1
  clear h
  induction m with
  | nil => simp [del]
  | cons q m ih =>
    obtain ⟨a, u⟩ := q
    obtain ⟨hq, ht⟩ := List.pairwise_cons.1 hm
    simp only [del]
    split
    · exact ih ht
    · exact List.pairwise_cons.2 ⟨fun p hp => hq p (mem_del hp), ih ht⟩

/-- Two rising lists that find the same everywhere are the same list: equal memories are equal
data. -/
theorem rising_ext {α : Type} {size : Nat} {m m' : List (Nat × α)} (h : rising size m)
    (h' : rising size m') (hf : ∀ x, find m x = find m' x) : m = m' := by
  obtain ⟨h, -⟩ := h
  obtain ⟨h', -⟩ := h'
  have notfound : ∀ {k : List (Nat × α)} {x : Nat}, (∀ p ∈ k, x < p.1) → find k x = none := by
    intro k x hk
    induction k with
    | nil => rfl
    | cons q k ih =>
      have := hk q (by simp)
      simp only [find]
      rw [if_neg (by omega)]
      exact ih fun p hp => hk p (by simp [hp])
  induction m generalizing m' with
  | nil =>
    cases m' with
    | nil => rfl
    | cons q m' => have := hf q.1; simp [find] at this
  | cons q m ih =>
    cases m' with
    | nil => have := hf q.1; simp [find] at this
    | cons q' m' =>
      obtain ⟨a, u⟩ := q
      obtain ⟨a', u'⟩ := q'
      obtain ⟨hq, ht⟩ := List.pairwise_cons.1 h
      obtain ⟨hq', ht'⟩ := List.pairwise_cons.1 h'
      have haa : a = a' := by
        rcases Nat.lt_trichotomy a a' with hlt | heq | hgt
        · have := hf a
          rw [notfound (k := (a', u') :: m') (by
            intro p hp
            rcases List.mem_cons.1 hp with rfl | hp
            · exact hlt
            · exact lt_trans hlt (hq' p hp))] at this
          simp [find] at this
        · exact heq
        · have := hf a'
          rw [notfound (k := (a, u) :: m) (by
            intro p hp
            rcases List.mem_cons.1 hp with rfl | hp
            · exact hgt
            · exact lt_trans hgt (hq p hp))] at this
          simp [find] at this
      subst haa
      have huu : u = u' := by simpa [find] using hf a
      subst huu
      congr 1
      refine ih (fun x => ?_) ht ht'
      have hx := hf x
      simp only [find] at hx
      split at hx
      · subst x; rw [notfound hq, notfound hq']
      · exact hx

/-! ### The framebuffer -/

@[simp] theorem fbRead_nil (o : Nat) : fbRead [] o = 0 := rfl

@[simp] theorem fbRead_fbWrite (m : Memory) (o o' : Nat) (b : Byte) :
    fbRead (fbWrite m o b) o' = if o' = o then b else fbRead m o' := by
  unfold fbRead fbWrite
  split <;> simp only [find_del, find_put] <;> split <;> simp_all

theorem fbWrite_wf {p : Config.Params} {m : Memory} (h : m.wf p) {o : Nat}
    (ho : o < p.height * p.rowBytes) (b : Byte) : (fbWrite m o b).wf p := by
  unfold fbWrite
  split
  · exact ⟨rising_del h.1 o, fun p hp => h.2 p (mem_del hp)⟩
  · refine ⟨rising_put h.1 ho b, fun p hp => ?_⟩
    rcases mem_put hp with rfl | hp
    · assumption
    · exact h.2 p hp

theorem find_mem {α : Type} {m : List (Nat × α)} {x : Nat} {v : α} (h : find m x = some v) :
    (x, v) ∈ m := by
  induction m with
  | nil => simp at h
  | cons q m ih =>
    obtain ⟨a, u⟩ := q
    simp only [find] at h
    split at h <;> simp_all

/-- Two framebuffers in canonical form with the same bytes are equal. -/
theorem fb_ext {p : Config.Params} {m m' : Memory} (h : m.wf p) (h' : m'.wf p)
    (hr : ∀ o, fbRead m o = fbRead m' o) : m = m' := by
  refine rising_ext h.1 h'.1 fun x => ?_
  have hx := hr x
  unfold fbRead at hx
  cases hf : find m x with
  | none =>
    cases hf' : find m' x with
    | none => rfl
    | some b' =>
      rw [hf, hf'] at hx
      exact absurd hx.symm (by simpa using h'.2 _ (find_mem hf'))
  | some b =>
    cases hf' : find m' x with
    | none =>
      rw [hf, hf'] at hx
      exact absurd hx (by simpa using h.2 _ (find_mem hf))
    | some b' => rw [hf, hf'] at hx; simpa using hx

theorem fbRead_writeBytes (m : Memory) (o : Nat) (bs : List Byte) (x : Nat) :
    fbRead (writeBytes m o bs) x = if o ≤ x then (bs[x - o]?).getD (fbRead m x) else fbRead m x := by
  induction bs generalizing m o with
  | nil => simp [writeBytes]
  | cons b bs ih =>
    simp only [writeBytes, ih, fbRead_fbWrite]
    rcases Nat.lt_trichotomy x o with h | h | h
    · rw [if_neg (by omega), if_neg (by omega), if_neg (by omega)]
    · subst h; simp
    · obtain ⟨d, rfl⟩ := Nat.exists_eq_add_of_lt h
      rw [if_pos (by omega), if_neg (by omega), if_pos (by omega)]
      rw [show o + d + 1 - (o + 1) = d by omega, show o + d + 1 - o = d + 1 by omega]
      simp

theorem writeBytes_wf {p : Config.Params} {m : Memory} (h : m.wf p) {o : Nat} {bs : List Byte}
    (ho : o + bs.length ≤ p.height * p.rowBytes) : (writeBytes m o bs).wf p := by
  induction bs generalizing m o with
  | nil => exact h
  | cons b bs ih =>
    simp only [List.length_cons] at ho
    exact ih (fbWrite_wf h (by omega) b) (by omega)

@[simp] theorem readRow_length (p : Config.Params) (m : Memory) (r : Nat) :
    (readRow p m r).length = p.rowBytes := by
  simp [readRow]

theorem readRow_get? (p : Config.Params) (m : Memory) (r k : Nat) :
    (readRow p m r)[k]? = if k < p.rowBytes then some (fbRead m (fbOffset p r k)) else none := by
  simp only [readRow, List.getElem?_map]
  split <;> simp_all

/-- What `writeRow` does: the row's bytes are those written, every other byte is unchanged. -/
theorem fbRead_writeRow (p : Config.Params) (m : Memory) (r : Nat) (v : List Byte)
    (hv : v.length = p.rowBytes) (r' k : Nat) (hk : k < p.rowBytes) :
    fbRead (writeRow p m r v) (fbOffset p r' k)
      = if r' = r then (v[k]?).getD 0 else fbRead m (fbOffset p r' k) := by
  unfold writeRow
  rw [fbRead_writeBytes]
  unfold fbOffset
  generalize p.rowBytes = n at *
  rcases Nat.lt_trichotomy r' r with hlt | rfl | hgt
  · have := Nat.mul_le_mul_right n (Nat.succ_le_of_lt hlt)
    rw [Nat.succ_mul] at this
    rw [if_neg (by omega), if_neg (by omega)]
  · rw [if_pos (by omega), if_pos rfl, show r' * n + k - (r' * n + 0) = k by omega,
      List.getElem?_eq_getElem (by omega)]
    simp
  · have := Nat.mul_le_mul_right n (Nat.succ_le_of_lt hgt)
    rw [Nat.succ_mul] at this
    rw [if_pos (by omega), if_neg (by omega), List.getElem?_eq_none (by omega)]
    simp

/-- Bytes outside the row written are unchanged. -/
theorem fbRead_writeRow_outside (p : Config.Params) (m : Memory) (r : Nat) (v : List Byte)
    (hv : v.length = p.rowBytes) (o : Nat) (ho : o / p.rowBytes ≠ r) :
    fbRead (writeRow p m r v) o = fbRead m o := by
  rcases Nat.eq_zero_or_pos p.rowBytes with h0 | hpos
  · rw [h0, List.length_eq_zero_iff] at hv
    subst hv
    rfl
  · have h := fbRead_writeRow p m r v hv (o / p.rowBytes) (o % p.rowBytes) (Nat.mod_lt _ hpos)
    rw [if_neg ho] at h
    have : fbOffset p (o / p.rowBytes) (o % p.rowBytes) = o := Nat.div_add_mod' o _
    rwa [this] at h

theorem writeRow_wf {p : Config.Params} {m : Memory} (h : m.wf p) {r : Nat}
    (hr : r < p.height) {v : List Byte} (hv : v.length = p.rowBytes) : (writeRow p m r v).wf p := by
  refine writeBytes_wf h ?_
  have : fbOffset p r 0 + v.length = (r + 1) * p.rowBytes := by
    rw [hv]; unfold fbOffset; ring
  rw [this]
  exact Nat.mul_le_mul_right _ hr

end Sys2Proof.Machine
end

