-- ==== Sys2Proof/Laws/Raster.lean ====
section
/-! SUPPORT. The laws of the raster unit: row masks, composition, pixels, DIRTY flags. -/

namespace Sys2Proof.Machine

/-! ### Bits -/

theorem getLsbD_one_shiftLeft (n b : Nat) :
    (1#8 <<< n).getLsbD b = (decide (b < 8) && decide (b = n)) := by
  rw [BitVec.getLsbD_shiftLeft, BitVec.getLsbD_one, Bool.eq_iff_iff]
  simp only [Bool.and_eq_true, Bool.not_eq_true', decide_eq_true_eq, decide_eq_false_iff_not]
  omega

/-- The bits of an OR of `1 << b` over the `b` with a property. -/
theorem getLsbD_foldl_or (p : Nat → Prop) [DecidablePred p] (n b : Nat) :
    ((List.range n).foldl (fun acc b => if p b then acc ||| (1#8 <<< b) else acc) 0#8).getLsbD b
      = (decide (b < 8) && decide (b < n) && decide (p b)) := by
  induction n with
  | zero => simp
  | succ n ih =>
    rw [List.range_succ, List.foldl_append]
    simp only [List.foldl_cons, List.foldl_nil]
    split
    · rw [BitVec.getLsbD_or, ih, getLsbD_one_shiftLeft, Bool.eq_iff_iff]
      simp only [Bool.or_eq_true, Bool.and_eq_true, decide_eq_true_eq]
      grind
    · rw [ih, Bool.eq_iff_iff]
      simp only [Bool.and_eq_true, decide_eq_true_eq]
      grind

theorem maskByte_bit (x1 x2 k b : Nat) (hb : b < 8) :
    (maskByte x1 x2 k).getLsbD b = decide (x1 ≤ 8 * k + b ∧ 8 * k + b ≤ x2) := by
  have := getLsbD_foldl_or (fun b => x1 ≤ 8 * k + b ∧ 8 * k + b ≤ x2) 8 b
  simpa [maskByte, hb] using this

@[simp] theorem rowmask_length (p : Config.Params) (x1 x2 : Nat) : (rowmask p x1 x2).length = p.rowBytes := by
  simp [rowmask]

theorem rowmask_get (p : Config.Params) (x1 x2 k : Nat) (hk : k < p.rowBytes) :
    (rowmask p x1 x2)[k]? = some (maskByte x1 x2 k) := by
  unfold rowmask
  rw [List.getElem?_map, List.getElem?_range hk]
  rfl

/-- Bit `b` of a composed byte. -/
theorem composeByte_bit (color : Bool) (old mask : Byte) (b : Nat) (hb : b < 8) :
    (composeByte color old mask).getLsbD b = if mask.getLsbD b then color else old.getLsbD b := by
  unfold composeByte
  cases color <;> cases h : mask.getLsbD b <;>
    simp only [if_true, if_false, BitVec.getLsbD_or, BitVec.getLsbD_and, BitVec.getLsbD_not, h, hb,
      decide_true, Bool.not_true, Bool.not_false, Bool.and_false, Bool.and_true, Bool.or_false,
      Bool.or_true, Bool.false_eq_true]

/-! ### Composition -/

theorem compose_length (p : Config.Params) (m : Memory) (r : Nat) (mask : List Byte) (color : Bool)
    (hm : mask.length = p.rowBytes) :
    (List.zipWith (composeByte color) (readRow p m r) mask).length = p.rowBytes := by
  simp [hm]

/-- What `compose` does to a byte of the framebuffer (R111). -/
theorem fbRead_compose (p : Config.Params) (m : Memory) (r : Nat) (mask : List Byte) (color : Bool)
    (hm : mask.length = p.rowBytes) (r' k : Nat) (hk : k < p.rowBytes) :
    fbRead (compose p m r mask color) (fbOffset p r' k)
      = if r' = r then composeByte color (fbRead m (fbOffset p r k)) ((mask[k]?).getD 0)
        else fbRead m (fbOffset p r' k) := by
  unfold compose
  rw [fbRead_writeRow _ _ _ _ (compose_length p m r mask color hm) _ _ hk]
  split
  · rw [List.getElem?_zipWith, readRow_get?, if_pos hk, List.getElem?_eq_getElem (by omega)]
    simp
  · rfl

/-- Bytes outside the row composed are unchanged (R111). -/
theorem fbRead_compose_outside (p : Config.Params) (m : Memory) (r : Nat) (mask : List Byte) (color : Bool)
    (hm : mask.length = p.rowBytes) (o : Nat) (ho : o / p.rowBytes ≠ r) :
    fbRead (compose p m r mask color) o = fbRead m o :=
  fbRead_writeRow_outside p m r _ (compose_length p m r mask color hm) o ho

/-- A legal row is whole bytes (R8). -/
theorem rowBytes_mul {p : Config.Params} (hp : p.legal) : 8 * p.rowBytes = p.width := by
  have := hp.1
  unfold Config.Params.rowBytes
  omega

theorem column_byte {p : Config.Params} (hp : p.legal) {c : Nat} (hc : c < p.width) :
    c / 8 < p.rowBytes := by
  have := rowBytes_mul hp
  omega

/-- Pixels after composing the row mask of columns `x1 .. x2` into row `r` (R110, R111). -/
theorem fbBit_compose_rowmask {p : Config.Params} (hp : p.legal) (m : Memory) (r x1 x2 : Nat)
    (color : Bool) (r' c : Nat)
    (hc : c < p.width) :
    fbBit p (compose p m r (rowmask p x1 x2) color) r' c
      = if r' = r ∧ x1 ≤ c ∧ c ≤ x2 then color else fbBit p m r' c := by
  have hk := column_byte hp hc
  have hb : c % 8 < 8 := Nat.mod_lt _ (by decide)
  have hdm : 8 * (c / 8) + c % 8 = c := Nat.div_add_mod c 8
  unfold fbBit
  rw [fbRead_compose p m r _ color (rowmask_length p x1 x2) r' _ hk]
  by_cases hr : r' = r
  · subst r'
    rw [if_pos rfl, composeByte_bit _ _ _ _ hb, rowmask_get _ _ _ _ hk]
    simp only [Option.getD_some, maskByte_bit _ _ _ _ hb, hdm, true_and, decide_eq_true_eq]
  · rw [if_neg hr, if_neg (by tauto)]

theorem compose_wf {p : Config.Params} {m : Memory} (h : m.wf p) {r : Nat} (hr : r < p.height)
    {mask : List Byte}
    (hm : mask.length = p.rowBytes) (color : Bool) : (compose p m r mask color).wf p :=
  writeRow_wf h hr (compose_length p m r mask color hm)

/-! ### Single pixels -/

@[simp] theorem setPixel_length (row : List Byte) (c : Nat) (color : Bool) :
    (setPixel row c color).length = row.length := by
  simp [setPixel]

/-- Pixel `c` of a row of bytes (R42). -/
def rowBit (row : List Byte) (c : Nat) : Bool := ((row[c / 8]?).getD 0).getLsbD (c % 8)

theorem setPixel_bit (row : List Byte) (c : Nat) (color : Bool) (c' : Nat)
    (hc : c' < 8 * row.length) :
    rowBit (setPixel row c color) c' = if c' = c then color else rowBit row c' := by
  have hb : c' % 8 < 8 := Nat.mod_lt _ (by decide)
  have hk : c' / 8 < row.length := by omega
  unfold rowBit setPixel
  rw [List.getElem?_modify, List.getElem?_eq_getElem hk]
  by_cases hb' : c / 8 = c' / 8
  · simp only [if_pos hb', Functor.map, Option.map_some, Option.getD_some, BitVec.getLsbD_or,
      BitVec.getLsbD_and, BitVec.getLsbD_not, BitVec.getLsbD_shiftLeft,
      BitVec.getLsbD_setWidth, BitVec.getLsbD_ofBool]
    by_cases he : c' = c
    · subst he; simp [hb]
    · rw [if_neg he]
      by_cases hlt : c' % 8 < c % 8
      · simp [hb, hlt]
      · have : c' % 8 - c % 8 ≠ 0 := by omega
        simp [hb, this]
  · rw [if_neg (by rintro rfl; exact hb' rfl)]
    simp [hb']

@[simp] theorem setPixels_length (row : List Byte) (c : Nat) (colors : List Bool) :
    (setPixels row c colors).length = row.length := by
  induction colors generalizing row c with
  | nil => rfl
  | cons color colors ih => simp [setPixels, ih]

/-- What `setPixels` does to a pixel of the row (R136). -/
theorem setPixels_bit (row : List Byte) (c : Nat) (colors : List Bool) (c' : Nat)
    (hc : c' < 8 * row.length) :
    rowBit (setPixels row c colors) c'
      = if c ≤ c' then (colors[c' - c]?).getD (rowBit row c') else rowBit row c' := by
  induction colors generalizing row c with
  | nil => simp [setPixels]
  | cons color colors ih =>
    simp only [setPixels]
    rw [ih _ _ (by simpa using hc), setPixel_bit _ _ _ _ hc]
    rcases Nat.lt_trichotomy c' c with h | h | h
    · rw [if_neg (by omega), if_neg (by omega), if_neg (by omega)]
    · subst h; simp
    · obtain ⟨d, rfl⟩ := Nat.exists_eq_add_of_lt h
      rw [if_pos (by omega), if_neg (by omega), if_pos (by omega)]
      rw [show c + d + 1 - (c + 1) = d by omega, show c + d + 1 - c = d + 1 by omega]
      simp

theorem rowBit_readRow {p : Config.Params} (hp : p.legal) (m : Memory) (r c : Nat) (hc : c < p.width) :
    rowBit (readRow p m r) c = fbBit p m r c := by
  unfold rowBit fbBit
  rw [readRow_get?, if_pos (column_byte hp hc)]
  rfl

/-- Pixels after a row is written whole. -/
theorem fbBit_writeRow {p : Config.Params} (hp : p.legal) (m : Memory) (r : Nat)
    (v : List Byte) (hv : v.length = p.rowBytes)
    (r' c : Nat) (hc : c < p.width) :
    fbBit p (writeRow p m r v) r' c = if r' = r then rowBit v c else fbBit p m r' c := by
  unfold fbBit
  rw [fbRead_writeRow p m r v hv r' _ (column_byte hp hc)]
  split <;> rfl

/-! ### DIRTY flags -/

theorem getLsbD_setRows (d : BitVec Config.dirtyBits) (rows : List Nat) (r : Nat) :
    (setRows d rows).getLsbD r
      = (d.getLsbD r || (decide (r < Config.dirtyBits) && decide (r ∈ rows))) := by
  induction rows generalizing d with
  | nil => simp [setRows]
  | cons q rows ih =>
    have := ih (d ||| BitVec.twoPow Config.dirtyBits q)
    simp only [setRows, List.foldl_cons] at this ⊢
    rw [this, BitVec.getLsbD_or, BitVec.getLsbD_twoPow, Bool.eq_iff_iff]
    simp only [Bool.or_eq_true, Bool.and_eq_true, decide_eq_true_eq, List.mem_cons]
    grind

theorem getLsbD_clearRows (d : BitVec Config.dirtyBits) (rows : List Nat) (r : Nat) :
    (clearRows d rows).getLsbD r = (d.getLsbD r && decide (r ∉ rows)) := by
  induction rows generalizing d with
  | nil => simp [clearRows]
  | cons q rows ih =>
    have := ih (d &&& ~~~BitVec.twoPow Config.dirtyBits q)
    simp only [clearRows, List.foldl_cons] at this ⊢
    rw [this, BitVec.getLsbD_and, BitVec.getLsbD_not, BitVec.getLsbD_twoPow]
    have hd : d.getLsbD r = true → r < Config.dirtyBits := BitVec.lt_of_getLsbD
    rw [Bool.eq_iff_iff]
    simp only [Bool.and_eq_true, Bool.not_eq_true', Bool.and_eq_false_imp, decide_eq_true_eq,
      decide_eq_false_iff_not, List.mem_cons]
    grind

/-- Setting rows one after another is setting them together. -/
theorem setRows_append (d : BitVec Config.dirtyBits) (xs ys : List Nat) :
    setRows d (xs ++ ys) = setRows (setRows d xs) ys := by simp [setRows]

theorem mem_rowRange {y1 y2 r : Nat} : r ∈ rowRange y1 y2 ↔ y1 ≤ r ∧ r ≤ y2 := by
  simp only [rowRange, List.mem_map, List.mem_range]
  constructor
  · rintro ⟨a, ha, rfl⟩; omega
  · rintro ⟨h1, h2⟩; exact ⟨r - y1, by omega, by omega⟩

theorem mem_dirtyRows {s : State} {r : Nat} :
    r ∈ s.dirtyRows ↔ r < s.params.height ∧ s.isDirty r = true := by
  simp [State.dirtyRows]

/-! ### Drawing rows: everything `drawRows` does -/

theorem drawRows_eq (s : State) (mask : List Byte) (color : Bool) (rows : List Nat) :
    s.drawRows mask color rows
      = { s with fb := rows.foldl (fun m r => compose s.params m r mask color) s.fb,
                 dirty := setRows s.dirty rows } := by
  induction rows generalizing s with
  | nil => rfl
  | cons r rows ih =>
    have := ih (State.drawRow mask color s r)
    simp only [State.drawRows, List.foldl_cons] at this ⊢
    rw [this]
    rfl

/-- Pixels after rows are composed with one row mask. -/
theorem fbBit_composeRows {p : Config.Params} (hp : p.legal) (m : Memory) (x1 x2 : Nat)
    (color : Bool) (rows : List Nat) (r c : Nat)
    (hc : c < p.width) :
    fbBit p (rows.foldl (fun m r => compose p m r (rowmask p x1 x2) color) m) r c
      = if r ∈ rows ∧ x1 ≤ c ∧ c ≤ x2 then color else fbBit p m r c := by
  induction rows generalizing m with
  | nil => simp
  | cons q rows ih =>
    simp only [List.foldl_cons]
    rw [ih, fbBit_compose_rowmask hp _ _ _ _ _ _ _ hc]
    simp only [List.mem_cons]
    grind

/-- Bytes outside the rows composed are unchanged. -/
theorem fbRead_composeRows_outside (p : Config.Params) (m : Memory) (mask : List Byte) (color : Bool)
    (hm : mask.length = p.rowBytes) (rows : List Nat) (o : Nat)
    (ho : o / p.rowBytes ∉ rows) :
    fbRead (rows.foldl (fun m r => compose p m r mask color) m) o = fbRead m o := by
  induction rows generalizing m with
  | nil => rfl
  | cons q rows ih =>
    simp only [List.mem_cons, not_or] at ho
    simp only [List.foldl_cons]
    rw [ih _ ho.2, fbRead_compose_outside _ _ _ _ _ hm _ ho.1]

theorem composeRows_wf {p : Config.Params} {m : Memory} (h : m.wf p) {mask : List Byte}
    (hm : mask.length = p.rowBytes) (color : Bool) {rows : List Nat}
    (hr : ∀ r ∈ rows, r < p.height) :
    Memory.wf p (rows.foldl (fun m r => compose p m r mask color) m) := by
  induction rows generalizing m with
  | nil => exact h
  | cons q rows ih =>
    exact ih (compose_wf h (hr q (by simp)) hm color) fun r hr' => hr r (by simp [hr'])

/-! ### Checks -/

/-- What a checked command does: its effect and code OK, or the error and nothing else. -/
theorem checked_ok (s : State) (effect : State → State) :
    s.checked .ok effect = .next (effect s).complete := rfl

theorem checked_error (s : State) (code : ErrCode) (effect : State → State) (h : code ≠ .ok) :
    s.checked code effect = .next (s.raiseError code) := by
  simp [State.checked, h]

theorem firstError_single (applies : Bool) (code : ErrCode) :
    firstError [(applies, code)] = if applies then code else .ok := by
  cases applies <;> rfl

theorem badColumns_eq_false {p : Config.Params} {x1 x2 : Nat} :
    badColumns p x1 x2 = false ↔ x1 ≤ x2 ∧ x2 < p.width := by
  simp [badColumns]

theorem badRows_eq_false {p : Config.Params} {y1 y2 : Nat} :
    badRows p y1 y2 = false ↔ y1 ≤ y2 ∧ y2 < p.height := by
  simp [badRows]

/-- What a BLIT whose checks passed does, whole. -/
theorem blitRow_eq (b : Blit) (s : State) :
    s.blitRow b
      = { s with
          fb := writeRow s.params s.fb b.y
            (setPixels (readRow s.params s.fb b.y) b.x ((s.blitIdx b).map (s.blitColor b))),
          dirty := if b.n > 0 then setRows s.dirty [b.y] else s.dirty } := by
  unfold State.blitRow
  by_cases h : b.n > 0
  · simp only [h, if_true]; rfl
  · simp only [h, if_false]

/-- Pixels after a BLIT's row is written (R136). -/
theorem fbBit_blitRow (b : Blit) (s : State) (r c : Nat) (hp : s.params.legal)
    (hc : c < s.params.width) :
    fbBit s.params (s.blitRow b).fb r c
      = if r = b.y ∧ b.x ≤ c ∧ c < b.x + b.n then
          s.blitColor b (s.srcIdx b (b.srcPos (c - b.x)))
        else fbBit s.params s.fb r c := by
  rw [blitRow_eq]
  simp only
  rw [fbBit_writeRow hp _ _ _ (by simp) _ _ hc]
  by_cases hr : r = b.y
  · subst hr
    rw [if_pos rfl, setPixels_bit _ _ _ _ (by rw [readRow_length, rowBytes_mul hp]; exact hc),
      rowBit_readRow hp _ _ _ hc]
    simp only [State.blitIdx, List.map_map, List.getElem?_map]
    by_cases h1 : b.x ≤ c
    · by_cases h2 : c < b.x + b.n
      · rw [List.getElem?_range (by omega)]
        simp [h1, h2]
      · rw [List.getElem?_eq_none (by simp; omega)]
        simp [h2]
    · simp [h1]
  · simp [hr]

theorem fbRead_blitRow_outside (b : Blit) (s : State) (o : Nat) (ho : o / s.params.rowBytes ≠ b.y) :
    fbRead (s.blitRow b).fb o = fbRead s.fb o := by
  rw [blitRow_eq]
  exact fbRead_writeRow_outside _ _ _ _ (by simp) _ ho

end Sys2Proof.Machine
end

