-- ==== Sys2Proof/Laws/Bus.lean ====
section
/-! SUPPORT. The laws of the serializer: what serving a list of answers does, transaction by
transaction. -/

namespace Sys2Proof.Machine

/-! ### Serving -/

theorem serve_nil (s : State) : State.serve [] s = { s with env := [] } := by
  simp [State.serve]

/-- An answer to a presented request is consumed. -/
theorem serve_answer (s : State) (o : BusOutcome) (env : List Event) (h : s.pending ≠ none) :
    State.serve (.busDone o :: env) s = State.serve env (s.onOutcome o) := by
  cases hp : s.pending with
  | none => exact absurd hp h
  | some q => simp [State.serve, hp]

/-- With no request presented, serving stops and leaves the events. -/
theorem serve_quiet (s : State) (env : List Event) (h : s.pending = none) :
    State.serve env s = { s with env := env } := by
  cases env with
  | nil => simp [State.serve]
  | cons e env => cases e <;> simp [State.serve, h]

/-- The first event that is no answer stops serving. -/
theorem serve_other (s : State) (e : Event) (env : List Event) (h : ∀ o, e ≠ .busDone o) :
    State.serve (e :: env) s = { s with env := e :: env } := by
  cases e with
  | busDone o => exact absurd rfl (h o)
  | _ => simp [State.serve]

/-! ### Answering one request -/

theorem onOutcome_ok (s : State) (q : BusReq) (h : s.pending = some q) (hq : q ≠ .deassert) :
    s.onOutcome .ok = (s.logBus q .ok).presentNext := by
  cases q <;> simp_all [State.onOutcome]

theorem onOutcome_err (s : State) (q : BusReq) (h : s.pending = some q) (hq : q ≠ .deassert) :
    s.onOutcome .err = (s.logBus q .err).presentAbort := by
  cases q <;> simp_all [State.onOutcome]

theorem onOutcome_deassert (s : State) (o : BusOutcome) (h : s.pending = some .deassert) :
    s.onOutcome o = ((s.logBus .deassert o).closeTxn).afterTxn s.job (s.txnOutcome o) := by
  simp [State.onOutcome, h]

/-- The bytes of a transaction still to send, as requests. -/
def leftRequests (left : List (Phase × Byte)) : List BusReq := left.map fun p => .byte p.2

/-- Put completed requests, given in order, on the log. -/
def State.logAll (s : State) (trace : List (BusReq × BusOutcome)) : State :=
  { s with busLog := trace.reverse ++ s.busLog }

/-- The transaction in progress has completed the requests of `trace` and waits on `req`. -/
def State.waitsOn (s : State) (trace : List (BusReq × BusOutcome)) (phase : Phase) (req : BusReq)
    (left : List (Phase × Byte)) : State :=
  { s.logAll trace with phase := phase, pending := some req, left := left, failed := anyErr trace }

/-- Answers served by `s`, whose transaction in progress runs as `run` says: it goes on with the
transaction's result, or waits. -/
def State.servedAs (s : State) (left : List (Phase × Byte)) (os : List BusOutcome) (env : List Event) :
    Ran (List BusReq) BusOutcome → Prop
  | .done o trace rest =>
    State.serve (answers os ++ env) s
      = State.serve (answers rest ++ env) (((s.logAll trace).closeTxn).afterTxn s.job o)
  | .waits req remaining trace =>
    ∃ phase left', leftRequests left' = remaining ∧ (phase = s.phase ∨ ∃ p ∈ left, phase = p.1) ∧
      (∀ p ∈ left', p ∈ left) ∧
      State.serve (answers os ++ env) s = State.serve env (s.waitsOn trace phase req left')

@[simp] theorem anyErr_nil : anyErr [] = false := rfl

@[simp] theorem anyErr_ok (q : BusReq) (trace : List (BusReq × BusOutcome)) :
    anyErr ((q, .ok) :: trace) = anyErr trace := rfl

@[simp] theorem anyErr_err (q : BusReq) (trace : List (BusReq × BusOutcome)) :
    anyErr ((q, .err) :: trace) = true := rfl

theorem anyErr_append (before trace : List (BusReq × BusOutcome)) :
    anyErr (before ++ trace) = (anyErr before || anyErr trace) := List.any_append

/-- A transaction that returns OK has had no ERR (R173). -/
theorem sendRequests_ok {qs : List BusReq} {os rest : List BusOutcome}
    {trace : List (BusReq × BusOutcome)} (h : sendRequests qs os = .done .ok trace rest) :
    anyErr trace = false := by
  induction qs generalizing os trace with
  | nil =>
    cases os with
    | nil => cases h
    | cons o os => cases h; rfl
  | cons q qs ih =>
    match os with
    | [] => cases h
    | [.err] => cases h
    | .err :: o :: os => cases h
    | .ok :: os =>
      simp only [sendRequests] at h
      cases hr : sendRequests qs os with
      | done o trace' rest' => rw [hr] at h; cases h; exact (show anyErr trace' = false from ih hr)
      | waits req so trace' => rw [hr] at h; cases h

/-- Without an answer the presented request waits. -/
theorem servedAs_nil (s : State) (q : BusReq) (env : List Event) (hp : s.pending = some q)
    (hf : s.failed = false) : s.servedAs s.left [] env (.waits q (leftRequests s.left) []) :=
  ⟨s.phase, s.left, rfl, Or.inl rfl, fun _ h => h, by
    obtain ⟨⟩ := s; simp_all [State.waitsOn, State.logAll, answers]⟩

/-- An ERR is followed by a DEASSERT whose outcome is ignored (R173). -/
theorem servedAs_err (s : State) (q : BusReq) (left : List (Phase × Byte)) (qs : List BusReq)
    (os : List BusOutcome) (env : List Event) (hp : s.pending = some q) (hq : q ≠ .deassert) :
    s.servedAs left (.err :: os) env (sendRequests (q :: qs) (.err :: os)) := by
  cases os with
  | nil =>
    refine ⟨s.phase, [], rfl, Or.inl rfl, by simp, ?_⟩
    simp only [answers, List.map_cons, List.cons_append]
    rw [serve_answer _ _ _ (by simp [hp]), onOutcome_err _ _ hp hq]
    rfl
  | cons o os =>
    simp only [State.servedAs, sendRequests, answers, List.map_cons, List.cons_append]
    rw [serve_answer _ _ _ (by simp [hp]), onOutcome_err _ _ hp hq,
      serve_answer _ _ _ (by simp [State.presentAbort]), onOutcome_deassert _ _ rfl]
    simp [State.txnOutcome, State.presentAbort, State.logBus, State.logAll, State.closeTxn]

/-- Serving a transaction in progress is running the pseudocode of `Txn` (R173). -/
theorem serve_sendRequests (left : List (Phase × Byte)) (s : State) (q : BusReq)
    (os : List BusOutcome) (env : List Event)
    (hp : s.pending = some q) (hq : q ≠ .deassert) (hl : s.left = left) (hf : s.failed = false) :
    s.servedAs left os env (sendRequests (q :: leftRequests left) os) := by
  induction left generalizing s q os with
  | nil =>
    match os with
    | [] => exact hl ▸ servedAs_nil s q env hp hf
    | .err :: os' => exact servedAs_err s q _ _ os' env hp hq
    | .ok :: os' =>
      have h' : (s.logBus q .ok).presentNext = { s.logBus q .ok with pending := some .deassert } := by
        simp [State.presentNext, State.logBus, hl]
      cases os' with
      | nil =>
        refine ⟨s.phase, [], rfl, Or.inl rfl, by simp, ?_⟩
        simp only [answers, List.map_cons, List.cons_append]
        rw [serve_answer _ _ _ (by simp [hp]), onOutcome_ok _ _ hp hq, h']
        obtain ⟨⟩ := s
        simp_all [State.waitsOn, State.logAll, State.logBus]
      | cons o os =>
        simp only [leftRequests, List.map_nil, sendRequests, Ran.after, State.servedAs, answers,
          List.map_cons, List.cons_append]
        rw [serve_answer _ _ _ (by simp [hp]), onOutcome_ok _ _ hp hq, h',
          serve_answer _ _ _ (by simp), onOutcome_deassert _ _ rfl]
        simp [State.txnOutcome, State.logBus, hf, State.logAll, State.closeTxn]
  | cons p left ih =>
    match os with
    | [] => exact hl ▸ servedAs_nil s q env hp hf
    | .err :: os' => exact servedAs_err s q _ _ os' env hp hq
    | .ok :: os' =>
      have h' : (s.logBus q .ok).presentNext
          = { s.logBus q .ok with phase := p.1, pending := some (.byte p.2), left := left } := by
        simp [State.presentNext, State.logBus, hl]
      have hs : State.serve (answers (.ok :: os') ++ env) s = State.serve (answers os' ++ env)
          { s.logBus q .ok with phase := p.1, pending := some (.byte p.2), left := left } := by
        simp only [answers, List.map_cons, List.cons_append]
        rw [serve_answer _ _ _ (by simp [hp]), onOutcome_ok _ _ hp hq, h']
      have step := ih { s.logBus q .ok with phase := p.1, pending := some (.byte p.2), left := left }
        (.byte p.2) os' rfl (by simp) rfl hf
      change s.servedAs (p :: left) (.ok :: os') env
        ((sendRequests (.byte p.2 :: leftRequests left) os').after [(q, .ok)])
      cases hr : sendRequests (.byte p.2 :: leftRequests left) os' with
      | done o trace rest =>
        rw [hr] at step
        simp only [Ran.after, State.servedAs] at step ⊢
        rw [hs, step]
        simp [State.logBus, State.logAll, State.closeTxn]
      | waits req remaining trace =>
        rw [hr] at step
        obtain ⟨phase, left', h1, h2, h3, h4⟩ := step
        refine ⟨phase, left', h1, ?_, fun x hx => List.mem_cons_of_mem _ (h3 x hx), ?_⟩
        · rcases h2 with h2 | ⟨x, hx, h2⟩
          · exact Or.inr ⟨p, by simp, h2⟩
          · exact Or.inr ⟨x, by simp [hx], h2⟩
        · rw [hs, h4]
          simp [State.waitsOn, State.logBus, State.logAll]

/-- Serving a transaction just opened is running `Txn(seq)` (R173). -/
theorem serve_openTxn (s : State) (job : Job) (seq : List (Phase × Byte))
    (os : List BusOutcome) (env : List Event) :
    (s.openTxn job seq).servedAs seq os env (txn (seq.map Prod.snd) os) := by
  have := serve_sendRequests seq (s.openTxn job seq) .assert os env rfl (by simp) rfl rfl
  simpa [txn, leftRequests, Function.comp_def] using this

/-! ### The bytes of an update transaction -/

theorem payloadSeq_bytes (s : State) (r : Nat) :
    (s.payloadSeq r).map Prod.snd = s.payloadBytes r := by
  simp [State.payloadSeq, State.payloadBytes]

theorem rowsSeq_bytes (s : State) (rows : List Nat) (j m : Nat) (hm : j + rows.length = m + 1) :
    (s.rowsSeq rows).map Prod.snd
      = (rows.zipIdx j).flatMap fun (r, j) => s.payloadBytes r ++ s.trailerBytes j m := by
  induction rows generalizing j with
  | nil => simp [State.rowsSeq]
  | cons r rows ih =>
    cases rows with
    | nil =>
      have : j = m := by simpa using hm
      simp [State.rowsSeq, payloadSeq_bytes, State.trailerSeq, State.trailerBytes, this]
    | cons r' rows =>
      have hlt : j < m := by simp only [List.length_cons] at hm; omega
      have := ih (j + 1) (by simp only [List.length_cons] at hm ⊢; omega)
      rw [List.zipIdx_cons, List.flatMap_cons, ← this]
      simp [State.rowsSeq, payloadSeq_bytes, State.trailerSeq, State.trailerBytes, hlt]

/-- The serializer's bytes are `seq(L)` of the spec (R180). -/
theorem updateSeq_bytes (s : State) (rows : List Nat) (h : rows ≠ []) :
    (s.updateSeq rows).map Prod.snd = s.updateBytes rows := by
  have hl : rows.length ≠ 0 := by simpa using h
  simp only [State.updateSeq, State.updateBytes, List.map_cons]
  rw [rowsSeq_bytes s rows 0 (rows.length - 1) (by omega)]

/-! ### Grouping -/

theorem joinRuns_flatten (rows : List Nat) : (joinRuns rows).flatten = rows := by
  induction rows with
  | nil => rfl
  | cons r rows ih =>
    simp only [joinRuns]
    split
    · rename_i q run runs heq
      rw [heq] at ih
      split <;> simpa using ih
    · rename_i x hx
      cases hj : joinRuns rows with
      | nil => rw [hj] at ih; simpa using ih
      | cons g gs =>
        rw [hj] at ih
        simpa using ih

theorem joinRuns_consecutive (rows : List Nat) : ∀ g ∈ joinRuns rows, consecutive g = true := by
  induction rows with
  | nil => simp [joinRuns]
  | cons r rows ih =>
    simp only [joinRuns]
    split
    · rename_i q run runs heq
      rw [heq] at ih
      split
      · rename_i hq
        intro g hg
        rcases List.mem_cons.1 hg with rfl | hg
        · simp [consecutive, hq]
          simpa [hq] using ih (q :: run) (by simp)
        · exact ih g (by simp [hg])
      · intro g hg
        rcases List.mem_cons.1 hg with rfl | hg
        · rfl
        · exact ih g hg
    · intro g hg
      rcases List.mem_cons.1 hg with rfl | hg
      · rfl
      · exact ih g hg

theorem runs_flatten (rows : List Nat) (c : Bool) : (runs rows c).flatten = rows := by
  cases c
  · simp only [runs, Bool.false_eq_true, if_false]
    induction rows with
    | nil => rfl
    | cons r rows ih => simpa using ih
  · exact joinRuns_flatten rows

theorem runs_consecutive (rows : List Nat) (c : Bool) : ∀ g ∈ runs rows c, consecutive g = true := by
  cases c
  · intro g hg
    simp only [runs, Bool.false_eq_true, if_false, List.mem_map] at hg
    obtain ⟨r, -, rfl⟩ := hg
    rfl
  · exact joinRuns_consecutive rows

theorem consecutive_ne_nil {rows : List Nat} (h : consecutive rows = true) : rows ≠ [] := by
  rintro rfl; simp [consecutive] at h

/-! ### FLUSH and CLEAR -/

/-- What the bytes on the wire depend on is the same: OPC, NOPB, TRAIL, FB and the parameters. -/
structure State.sameWire (s t : State) : Prop where
  params : s.params = t.params
  opc : s.opc = t.opc
  nopb : s.nopb = t.nopb
  rowLen : s.rowLen = t.rowLen
  endLen : s.endLen = t.endLen
  fb : s.fb = t.fb

theorem updateBytes_congr {s t : State} (h : s.sameWire t) (rows : List Nat) :
    s.updateBytes rows = t.updateBytes rows := by
  simp only [State.updateBytes, State.payloadBytes, State.trailerBytes, State.upd, State.trb, h.params,
    h.opc, h.rowLen, h.endLen, h.fb]

theorem clearSeq_congr {s t : State} (h : s.sameWire t) : s.clearSeq = t.clearSeq := by
  simp only [State.clearSeq, State.clr, State.pad, h.opc]

theorem refreshSeq_congr {s t : State} (h : s.sameWire t) : s.refreshSeq = t.refreshSeq := by
  simp only [State.refreshSeq, State.nop0, State.nop1, h.nopb]

theorem updateSeq_congr {s t : State} (h : s.sameWire t) (rows : List Nat) :
    s.updateSeq rows = t.updateSeq rows := by
  have hp : ∀ r, s.payloadSeq r = t.payloadSeq r := fun r => by
    simp only [State.payloadSeq, h.params, h.fb]
  have ht : ∀ l, s.trailerSeq l = t.trailerSeq l := fun l => by
    simp only [State.trailerSeq, State.trb, h.opc, h.rowLen, h.endLen]
  have hr : s.rowsSeq rows = t.rowsSeq rows := by
    induction rows with
    | nil => rfl
    | cons r rows ih => cases rows <;> simp_all [State.rowsSeq]
  simp only [State.updateSeq, State.upd, h.opc, hr]

/-- A FLUSH's requests depend on the wire's bytes only. -/
theorem flushGroups_congr {s t : State} (h : s.sameWire t) (groups : List (List Nat))
    (d : BitVec Config.dirtyBits) (os : List BusOutcome) :
    s.flushGroups groups d os = t.flushGroups groups d os := by
  induction groups generalizing d os with
  | nil => simp only [State.flushGroups, State.nop0, State.nop1, h.nopb]
  | cons rows groups ih => simp only [State.flushGroups, updateBytes_congr h, ih]

/-- The state of the block's hidden part when no transaction is in progress (R231). -/
def State.quieted (s : State) : State := s.closeTxn.endFlush

/-- Answers served by `t`, a FLUSH in progress that began a group at `s` and whose rest runs as `run` says. -/
def State.flushedAs (s t : State) (os : List BusOutcome) (env : List Event) :
    Ran (List BusReq × BitVec Config.dirtyBits) (ErrCode × BitVec Config.dirtyBits) → Prop
  | .done (code, d) trace rest =>
    State.serve (answers os ++ env) t
      = { (((s.logAll trace).quieted).finish code) with dirty := d, env := answers rest ++ env }
  | .waits req (remaining, d) trace =>
    ∃ phase job left cursor, leftRequests left = remaining ∧ (job = .update ∨ job = .refresh) ∧
      State.serve (answers os ++ env) t = State.serve env
        { s.logAll trace with
          dirty := d, phase := phase, csOpen := true, pending := some req, job := job, left := left,
          failed := anyErr trace, cursor := cursor }

/-- The state once the update transaction in progress, with requests `trace`, has returned OK. -/
def State.sentGroup (s : State) (trace : List (BusReq × BusOutcome)) : State :=
  (s.logAll trace).closeTxn.groupSent

theorem sentGroup_sameWire (s : State) (trace : List (BusReq × BusOutcome)) :
    (s.sentGroup trace).sameWire s := ⟨rfl, rfl, rfl, rfl, rfl, rfl⟩

theorem withCursor_sameWire (s : State) (cursor : Cursor) :
    State.sameWire { s with cursor := cursor } s := ⟨rfl, rfl, rfl, rfl, rfl, rfl⟩

theorem sentGroup_later (s : State) (trace : List (BusReq × BusOutcome)) :
    (s.sentGroup trace).cursor.later = s.cursor.later := rfl

theorem sentGroup_dirty (s : State) (trace : List (BusReq × BusOutcome)) :
    (s.sentGroup trace).dirty = clearRows s.dirty s.cursor.current := rfl

/-- Serving a FLUSH from its next group on is running the pseudocode of R185. -/
theorem serve_nextGroup (groups : List (List Nat)) (hg : ∀ g ∈ groups, g ≠ []) (s : State)
    (os : List BusOutcome) (env : List Event) (hs : s.cursor.later = groups) :
    s.flushedAs s.nextGroup os env (s.flushGroups groups s.dirty os) := by
  induction groups generalizing s os with
  | nil =>
    simp only [State.flushGroups, State.nextGroup, hs]
    have h := serve_openTxn { s with cursor := ⟨s.cursor.sent, [], []⟩ } .refresh s.refreshSeq
      os env
    rw [show s.refreshSeq.map Prod.snd = [s.nop0, s.nop1] from rfl] at h
    cases hr : txn [s.nop0, s.nop1] os with
    | done o trace rest =>
      rw [hr] at h
      simp only [State.servedAs] at h
      simp only [State.flushedAs]
      rw [h]
      cases o <;>
        (rw [serve_quiet _ _ (by rfl)]
         simp [State.afterTxn, State.endFlush, State.complete, State.raiseError, State.finish,
           State.openTxn, State.closeTxn, State.logAll, State.quieted])
    | waits req remaining trace =>
      rw [hr] at h
      obtain ⟨phase, left, h1, -, -, h4⟩ := h
      exact ⟨phase, .refresh, left, _, h1, Or.inr rfl, h4⟩
  | cons rows groups ih =>
    have hne : rows ≠ [] := hg rows (by simp)
    simp only [State.flushGroups, State.nextGroup, hs]
    have h := serve_openTxn { s with cursor := ⟨s.cursor.sent, rows, groups⟩ }
      .update (s.updateSeq rows) os env
    rw [updateSeq_bytes s rows hne] at h
    cases hr : txn (s.updateBytes rows) os with
    | done o trace rest =>
      rw [hr] at h
      simp only [State.servedAs] at h
      cases o with
      | err =>
        simp only [State.flushedAs]
        rw [h, serve_quiet _ _ (by rfl)]
        simp [State.afterTxn, State.endFlush, State.raiseError, State.finish, State.openTxn,
          State.closeTxn, State.logAll, State.quieted]
      | ok =>
        have same := sentGroup_sameWire { s with cursor := ⟨s.cursor.sent, rows, groups⟩ } trace
        have next := ih (fun g h => hg g (by simp [h])) _ rest
          (sentGroup_later { s with cursor := ⟨s.cursor.sent, rows, groups⟩ } trace)
        rw [flushGroups_congr same, sentGroup_dirty,
          flushGroups_congr (withCursor_sameWire s ⟨s.cursor.sent, rows, groups⟩)] at next
        simp only at next
        simp only
        cases hr' : s.flushGroups groups (clearRows s.dirty rows) rest with
        | done result trace' rest' =>
          obtain ⟨code, d⟩ := result
          rw [hr'] at next
          simp only [State.flushedAs, Ran.after] at next ⊢
          rw [h]
          refine Eq.trans next ?_
          simp [State.sentGroup, State.groupSent, State.markClean, State.closeTxn, State.logAll,
            State.quieted, State.finish, State.endFlush]
        | waits req so trace' =>
          obtain ⟨remaining, d⟩ := so
          rw [hr'] at next
          obtain ⟨phase, job, left, cursor, h1, h2, h3⟩ := next
          refine ⟨phase, job, left, cursor, h1, h2, ?_⟩
          rw [h]
          refine Eq.trans h3 ?_
          simp [State.sentGroup, State.groupSent, State.markClean, State.closeTxn, State.logAll,
            anyErr_append, sendRequests_ok hr]
    | waits req remaining trace =>
      rw [hr] at h
      obtain ⟨phase, left, h1, -, -, h4⟩ := h
      exact ⟨phase, .update, left, _, h1, Or.inl rfl, h4⟩

/-- Serving stops at once where no answer is next. -/
theorem serve_noAnswer (s : State) (env : List Event) (h : noAnswerNext env) :
    State.serve env s = { s with env := env } := by
  cases env with
  | nil => exact serve_nil s
  | cons e env => exact serve_other _ _ _ fun o ho => h o (by rw [ho]; rfl)

/-- FLUSH with answers at hand runs the pseudocode of R185. -/
theorem execFlush_flushGroups (s : State) (os : List BusOutcome) (env : List Event)
    (he : s.env = answers os ++ env) :
    execFlush s = .next (State.serve (answers os ++ env) s.beginFlush) ∧
      s.flushedAs s.beginFlush os env (s.flushGroups (runs s.dirtyRows s.coalesce) s.dirty os) := by
  constructor
  · unfold execFlush State.drain
    congr 2
    rw [← he]
    unfold State.beginFlush State.nextGroup
    split <;> rfl
  · have h := serve_nextGroup (runs s.dirtyRows s.coalesce)
      (fun g hg => consecutive_ne_nil (runs_consecutive _ _ g hg))
      { s with cursor := ⟨[], [], runs s.dirtyRows s.coalesce⟩ } os env rfl
    rw [flushGroups_congr (withCursor_sameWire s ⟨[], [], runs s.dirtyRows s.coalesce⟩)] at h
    cases hr : s.flushGroups (runs s.dirtyRows s.coalesce) s.dirty os with
    | done result trace rest => obtain ⟨code, d⟩ := result; rw [hr] at h; exact h
    | waits req so trace => obtain ⟨remaining, d⟩ := so; rw [hr] at h; exact h

/-- CLEAR with answers at hand runs the pseudocode of R179. -/
theorem execClear_txn (s : State) (os : List BusOutcome) (env : List Event)
    (he : s.env = answers os ++ env) :
    execClear s = .next (State.serve (answers os ++ env) s.beginClear) ∧
      s.beginClear.servedAs s.clearSeq os env (txn [s.clr, s.pad] os) := by
  constructor
  · unfold execClear State.drain
    congr 2
  · simpa [State.beginClear, State.clearSeq] using serve_openTxn s .clear s.clearSeq os env

end Sys2Proof.Machine
end

