-- ==== Sys2Proof/Laws/Encoding.lean ====
section
/-! SUPPORT. The laws of the command word: fields put in are fields taken out. -/

namespace Sys2Proof

/-- Fields put into a command word are read back (R92). -/
theorem ofWord_toWord (f : Fields) : Fields.ofWord f.toWord = f := by
  obtain ⟨op, col, fl, a, b, c, d, e⟩ := f
  simp only [Fields.ofWord, Fields.toWord, Fields.mk.injEq]
  refine ⟨?_, ?_, ?_, ?_, ?_, ?_, ?_, ?_⟩
  case refine_2 =>
    rw [BitVec.getLsbD_append, if_neg (by omega), BitVec.getLsbD_append, if_pos (by omega),
      BitVec.getLsbD_ofBool]
    simp
  all_goals
    apply BitVec.eq_of_getLsbD_eq
    intro i hi
    simp only [BitVec.getLsbD_extractLsb', BitVec.getLsbD_append, hi, decide_true, Bool.true_and]
    repeat rw [if_neg (by omega)]
    try rw [if_pos (by omega)]
    congr 1
  all_goals omega

/-- A command word is put together again from its fields (R92: the fields cover all 64 bits). -/
theorem toWord_ofWord (w : Cmd) : (Fields.ofWord w).toWord = w := by
  simp only [Fields.ofWord, Fields.toWord]
  apply BitVec.eq_of_getLsbD_eq
  intro i hi
  simp only [BitVec.getLsbD_append, BitVec.getLsbD_extractLsb', BitVec.getLsbD_ofBool]
  repeat' split
  all_goals
    rw [show decide _ = true from decide_eq_true (by omega), Bool.true_and]
    congr 1
    omega

end Sys2Proof
end

