-- ==== Sys2Proof/Laws/State.lean ====
section
/-! SUPPORT. What each update of the state does to each field. -/

namespace Sys2Proof.Machine

@[simp] theorem complete_eq (s : State) : s.complete = s.finish .ok := rfl
@[simp] theorem raiseError_eq (s : State) (c : ErrCode) : s.raiseError c = s.finish c := rfl

/-! ### The end of a command -/

@[simp] theorem finish_params (s : State) (c : ErrCode) : (s.finish c).params = s.params := rfl
@[simp] theorem finish_coalesce (s : State) (c : ErrCode) :
    (s.finish c).coalesce = s.coalesce := rfl
@[simp] theorem finish_err (s : State) (c : ErrCode) : (s.finish c).err = c := rfl
@[simp] theorem finish_ovr (s : State) (c : ErrCode) : (s.finish c).ovr = s.ovr := rfl
@[simp] theorem finish_result (s : State) (c : ErrCode) : (s.finish c).result = s.result := rfl
@[simp] theorem finish_cmdLo (s : State) (c : ErrCode) : (s.finish c).cmdLo = s.cmdLo := rfl
@[simp] theorem finish_srcLen (s : State) (c : ErrCode) : (s.finish c).srcLen = s.srcLen := rfl
@[simp] theorem finish_palLen (s : State) (c : ErrCode) : (s.finish c).palLen = s.palLen := rfl
@[simp] theorem finish_opc (s : State) (c : ErrCode) : (s.finish c).opc = s.opc := rfl
@[simp] theorem finish_nopb (s : State) (c : ErrCode) : (s.finish c).nopb = s.nopb := rfl
@[simp] theorem finish_rowLen (s : State) (c : ErrCode) : (s.finish c).rowLen = s.rowLen := rfl
@[simp] theorem finish_endLen (s : State) (c : ErrCode) : (s.finish c).endLen = s.endLen := rfl
@[simp] theorem finish_fb (s : State) (c : ErrCode) : (s.finish c).fb = s.fb := rfl
@[simp] theorem finish_dirty (s : State) (c : ErrCode) : (s.finish c).dirty = s.dirty := rfl
@[simp] theorem finish_pal (s : State) (c : ErrCode) : (s.finish c).pal = s.pal := rfl
@[simp] theorem finish_src (s : State) (c : ErrCode) : (s.finish c).src = s.src := rfl
@[simp] theorem finish_eng (s : State) (c : ErrCode) : (s.finish c).eng = .idle := rfl
@[simp] theorem finish_phase (s : State) (c : ErrCode) : (s.finish c).phase = s.phase := rfl
@[simp] theorem finish_csOpen (s : State) (c : ErrCode) : (s.finish c).csOpen = s.csOpen := rfl
@[simp] theorem finish_pending (s : State) (c : ErrCode) : (s.finish c).pending = s.pending := rfl
@[simp] theorem finish_job (s : State) (c : ErrCode) : (s.finish c).job = s.job := rfl
@[simp] theorem finish_left (s : State) (c : ErrCode) : (s.finish c).left = s.left := rfl
@[simp] theorem finish_failed (s : State) (c : ErrCode) : (s.finish c).failed = s.failed := rfl
@[simp] theorem finish_cursor (s : State) (c : ErrCode) : (s.finish c).cursor = s.cursor := rfl
@[simp] theorem finish_env (s : State) (c : ErrCode) : (s.finish c).env = s.env := rfl
@[simp] theorem finish_busLog (s : State) (c : ErrCode) : (s.finish c).busLog = s.busLog := rfl
@[simp] theorem finish_hostLog (s : State) (c : ErrCode) : (s.finish c).hostLog = s.hostLog := rfl
@[simp] theorem finish_freeCount (s : State) (c : ErrCode) :
    (s.finish c).freeCount = s.freeCount := rfl
@[simp] theorem finish_resets (s : State) (c : ErrCode) : (s.finish c).resets = s.resets := rfl

/-! ### Writing RESULT -/

@[simp] theorem setResult_params (s : State) (w : Word) : (s.setResult w).params = s.params := rfl
@[simp] theorem setResult_coalesce (s : State) (w : Word) :
    (s.setResult w).coalesce = s.coalesce := rfl
@[simp] theorem setResult_err (s : State) (w : Word) : (s.setResult w).err = s.err := rfl
@[simp] theorem setResult_ovr (s : State) (w : Word) : (s.setResult w).ovr = s.ovr := rfl
@[simp] theorem setResult_result (s : State) (w : Word) : (s.setResult w).result = w := rfl
@[simp] theorem setResult_cmdLo (s : State) (w : Word) : (s.setResult w).cmdLo = s.cmdLo := rfl
@[simp] theorem setResult_srcLen (s : State) (w : Word) : (s.setResult w).srcLen = s.srcLen := rfl
@[simp] theorem setResult_palLen (s : State) (w : Word) : (s.setResult w).palLen = s.palLen := rfl
@[simp] theorem setResult_opc (s : State) (w : Word) : (s.setResult w).opc = s.opc := rfl
@[simp] theorem setResult_nopb (s : State) (w : Word) : (s.setResult w).nopb = s.nopb := rfl
@[simp] theorem setResult_rowLen (s : State) (w : Word) : (s.setResult w).rowLen = s.rowLen := rfl
@[simp] theorem setResult_endLen (s : State) (w : Word) : (s.setResult w).endLen = s.endLen := rfl
@[simp] theorem setResult_fb (s : State) (w : Word) : (s.setResult w).fb = s.fb := rfl
@[simp] theorem setResult_dirty (s : State) (w : Word) : (s.setResult w).dirty = s.dirty := rfl
@[simp] theorem setResult_pal (s : State) (w : Word) : (s.setResult w).pal = s.pal := rfl
@[simp] theorem setResult_src (s : State) (w : Word) : (s.setResult w).src = s.src := rfl
@[simp] theorem setResult_eng (s : State) (w : Word) : (s.setResult w).eng = s.eng := rfl
@[simp] theorem setResult_phase (s : State) (w : Word) : (s.setResult w).phase = s.phase := rfl
@[simp] theorem setResult_csOpen (s : State) (w : Word) : (s.setResult w).csOpen = s.csOpen := rfl
@[simp] theorem setResult_pending (s : State) (w : Word) :
    (s.setResult w).pending = s.pending := rfl
@[simp] theorem setResult_job (s : State) (w : Word) : (s.setResult w).job = s.job := rfl
@[simp] theorem setResult_left (s : State) (w : Word) : (s.setResult w).left = s.left := rfl
@[simp] theorem setResult_failed (s : State) (w : Word) : (s.setResult w).failed = s.failed := rfl
@[simp] theorem setResult_cursor (s : State) (w : Word) : (s.setResult w).cursor = s.cursor := rfl
@[simp] theorem setResult_env (s : State) (w : Word) : (s.setResult w).env = s.env := rfl
@[simp] theorem setResult_busLog (s : State) (w : Word) : (s.setResult w).busLog = s.busLog := rfl
@[simp] theorem setResult_hostLog (s : State) (w : Word) :
    (s.setResult w).hostLog = s.hostLog := rfl
@[simp] theorem setResult_freeCount (s : State) (w : Word) :
    (s.setResult w).freeCount = s.freeCount := rfl
@[simp] theorem setResult_resets (s : State) (w : Word) : (s.setResult w).resets = s.resets := rfl

/-! ### Setting OVR -/

@[simp] theorem markOverrun_params (s : State) : (s.markOverrun).params = s.params := rfl
@[simp] theorem markOverrun_coalesce (s : State) : (s.markOverrun).coalesce = s.coalesce := rfl
@[simp] theorem markOverrun_err (s : State) : (s.markOverrun).err = s.err := rfl
@[simp] theorem markOverrun_ovr (s : State) : (s.markOverrun).ovr = true := rfl
@[simp] theorem markOverrun_result (s : State) : (s.markOverrun).result = s.result := rfl
@[simp] theorem markOverrun_cmdLo (s : State) : (s.markOverrun).cmdLo = s.cmdLo := rfl
@[simp] theorem markOverrun_srcLen (s : State) : (s.markOverrun).srcLen = s.srcLen := rfl
@[simp] theorem markOverrun_palLen (s : State) : (s.markOverrun).palLen = s.palLen := rfl
@[simp] theorem markOverrun_opc (s : State) : (s.markOverrun).opc = s.opc := rfl
@[simp] theorem markOverrun_nopb (s : State) : (s.markOverrun).nopb = s.nopb := rfl
@[simp] theorem markOverrun_rowLen (s : State) : (s.markOverrun).rowLen = s.rowLen := rfl
@[simp] theorem markOverrun_endLen (s : State) : (s.markOverrun).endLen = s.endLen := rfl
@[simp] theorem markOverrun_fb (s : State) : (s.markOverrun).fb = s.fb := rfl
@[simp] theorem markOverrun_dirty (s : State) : (s.markOverrun).dirty = s.dirty := rfl
@[simp] theorem markOverrun_pal (s : State) : (s.markOverrun).pal = s.pal := rfl
@[simp] theorem markOverrun_src (s : State) : (s.markOverrun).src = s.src := rfl
@[simp] theorem markOverrun_eng (s : State) : (s.markOverrun).eng = s.eng := rfl
@[simp] theorem markOverrun_phase (s : State) : (s.markOverrun).phase = s.phase := rfl
@[simp] theorem markOverrun_csOpen (s : State) : (s.markOverrun).csOpen = s.csOpen := rfl
@[simp] theorem markOverrun_pending (s : State) : (s.markOverrun).pending = s.pending := rfl
@[simp] theorem markOverrun_job (s : State) : (s.markOverrun).job = s.job := rfl
@[simp] theorem markOverrun_left (s : State) : (s.markOverrun).left = s.left := rfl
@[simp] theorem markOverrun_failed (s : State) : (s.markOverrun).failed = s.failed := rfl
@[simp] theorem markOverrun_cursor (s : State) : (s.markOverrun).cursor = s.cursor := rfl
@[simp] theorem markOverrun_env (s : State) : (s.markOverrun).env = s.env := rfl
@[simp] theorem markOverrun_busLog (s : State) : (s.markOverrun).busLog = s.busLog := rfl
@[simp] theorem markOverrun_hostLog (s : State) : (s.markOverrun).hostLog = s.hostLog := rfl
@[simp] theorem markOverrun_freeCount (s : State) : (s.markOverrun).freeCount = s.freeCount := rfl
@[simp] theorem markOverrun_resets (s : State) : (s.markOverrun).resets = s.resets := rfl

/-! ### The host's write to STATUS -/

@[simp] theorem writeStatus_params (s : State) (w : Word) :
    (s.writeStatus w).params = s.params := rfl
@[simp] theorem writeStatus_coalesce (s : State) (w : Word) :
    (s.writeStatus w).coalesce = s.coalesce := rfl
@[simp] theorem writeStatus_err (s : State) (w : Word) : (s.writeStatus w).err = s.err := rfl
@[simp] theorem writeStatus_ovr (s : State) (w : Word) :
    (s.writeStatus w).ovr = (s.ovr && !w.getLsbD 8) := rfl
@[simp] theorem writeStatus_result (s : State) (w : Word) :
    (s.writeStatus w).result = s.result := rfl
@[simp] theorem writeStatus_cmdLo (s : State) (w : Word) : (s.writeStatus w).cmdLo = s.cmdLo := rfl
@[simp] theorem writeStatus_srcLen (s : State) (w : Word) :
    (s.writeStatus w).srcLen = s.srcLen := rfl
@[simp] theorem writeStatus_palLen (s : State) (w : Word) :
    (s.writeStatus w).palLen = s.palLen := rfl
@[simp] theorem writeStatus_opc (s : State) (w : Word) : (s.writeStatus w).opc = s.opc := rfl
@[simp] theorem writeStatus_nopb (s : State) (w : Word) : (s.writeStatus w).nopb = s.nopb := rfl
@[simp] theorem writeStatus_rowLen (s : State) (w : Word) :
    (s.writeStatus w).rowLen = s.rowLen := rfl
@[simp] theorem writeStatus_endLen (s : State) (w : Word) :
    (s.writeStatus w).endLen = s.endLen := rfl
@[simp] theorem writeStatus_fb (s : State) (w : Word) : (s.writeStatus w).fb = s.fb := rfl
@[simp] theorem writeStatus_dirty (s : State) (w : Word) : (s.writeStatus w).dirty = s.dirty := rfl
@[simp] theorem writeStatus_pal (s : State) (w : Word) : (s.writeStatus w).pal = s.pal := rfl
@[simp] theorem writeStatus_src (s : State) (w : Word) : (s.writeStatus w).src = s.src := rfl
@[simp] theorem writeStatus_eng (s : State) (w : Word) : (s.writeStatus w).eng = s.eng := rfl
@[simp] theorem writeStatus_phase (s : State) (w : Word) : (s.writeStatus w).phase = s.phase := rfl
@[simp] theorem writeStatus_csOpen (s : State) (w : Word) :
    (s.writeStatus w).csOpen = s.csOpen := rfl
@[simp] theorem writeStatus_pending (s : State) (w : Word) :
    (s.writeStatus w).pending = s.pending := rfl
@[simp] theorem writeStatus_job (s : State) (w : Word) : (s.writeStatus w).job = s.job := rfl
@[simp] theorem writeStatus_left (s : State) (w : Word) : (s.writeStatus w).left = s.left := rfl
@[simp] theorem writeStatus_failed (s : State) (w : Word) :
    (s.writeStatus w).failed = s.failed := rfl
@[simp] theorem writeStatus_cursor (s : State) (w : Word) :
    (s.writeStatus w).cursor = s.cursor := rfl
@[simp] theorem writeStatus_env (s : State) (w : Word) : (s.writeStatus w).env = s.env := rfl
@[simp] theorem writeStatus_busLog (s : State) (w : Word) :
    (s.writeStatus w).busLog = s.busLog := rfl
@[simp] theorem writeStatus_hostLog (s : State) (w : Word) :
    (s.writeStatus w).hostLog = s.hostLog := rfl
@[simp] theorem writeStatus_freeCount (s : State) (w : Word) :
    (s.writeStatus w).freeCount = s.freeCount := rfl
@[simp] theorem writeStatus_resets (s : State) (w : Word) :
    (s.writeStatus w).resets = s.resets := rfl

/-! ### Setting a DIRTY flag -/

@[simp] theorem markDirty_params (s : State) (r : Nat) : (s.markDirty r).params = s.params := rfl
@[simp] theorem markDirty_coalesce (s : State) (r : Nat) :
    (s.markDirty r).coalesce = s.coalesce := rfl
@[simp] theorem markDirty_err (s : State) (r : Nat) : (s.markDirty r).err = s.err := rfl
@[simp] theorem markDirty_ovr (s : State) (r : Nat) : (s.markDirty r).ovr = s.ovr := rfl
@[simp] theorem markDirty_result (s : State) (r : Nat) : (s.markDirty r).result = s.result := rfl
@[simp] theorem markDirty_cmdLo (s : State) (r : Nat) : (s.markDirty r).cmdLo = s.cmdLo := rfl
@[simp] theorem markDirty_srcLen (s : State) (r : Nat) : (s.markDirty r).srcLen = s.srcLen := rfl
@[simp] theorem markDirty_palLen (s : State) (r : Nat) : (s.markDirty r).palLen = s.palLen := rfl
@[simp] theorem markDirty_opc (s : State) (r : Nat) : (s.markDirty r).opc = s.opc := rfl
@[simp] theorem markDirty_nopb (s : State) (r : Nat) : (s.markDirty r).nopb = s.nopb := rfl
@[simp] theorem markDirty_rowLen (s : State) (r : Nat) : (s.markDirty r).rowLen = s.rowLen := rfl
@[simp] theorem markDirty_endLen (s : State) (r : Nat) : (s.markDirty r).endLen = s.endLen := rfl
@[simp] theorem markDirty_fb (s : State) (r : Nat) : (s.markDirty r).fb = s.fb := rfl
@[simp] theorem markDirty_dirty (s : State) (r : Nat) :
    (s.markDirty r).dirty = setRows s.dirty [r] := rfl
@[simp] theorem markDirty_pal (s : State) (r : Nat) : (s.markDirty r).pal = s.pal := rfl
@[simp] theorem markDirty_src (s : State) (r : Nat) : (s.markDirty r).src = s.src := rfl
@[simp] theorem markDirty_eng (s : State) (r : Nat) : (s.markDirty r).eng = s.eng := rfl
@[simp] theorem markDirty_phase (s : State) (r : Nat) : (s.markDirty r).phase = s.phase := rfl
@[simp] theorem markDirty_csOpen (s : State) (r : Nat) : (s.markDirty r).csOpen = s.csOpen := rfl
@[simp] theorem markDirty_pending (s : State) (r : Nat) : (s.markDirty r).pending = s.pending := rfl
@[simp] theorem markDirty_job (s : State) (r : Nat) : (s.markDirty r).job = s.job := rfl
@[simp] theorem markDirty_left (s : State) (r : Nat) : (s.markDirty r).left = s.left := rfl
@[simp] theorem markDirty_failed (s : State) (r : Nat) : (s.markDirty r).failed = s.failed := rfl
@[simp] theorem markDirty_cursor (s : State) (r : Nat) : (s.markDirty r).cursor = s.cursor := rfl
@[simp] theorem markDirty_env (s : State) (r : Nat) : (s.markDirty r).env = s.env := rfl
@[simp] theorem markDirty_busLog (s : State) (r : Nat) : (s.markDirty r).busLog = s.busLog := rfl
@[simp] theorem markDirty_hostLog (s : State) (r : Nat) : (s.markDirty r).hostLog = s.hostLog := rfl
@[simp] theorem markDirty_freeCount (s : State) (r : Nat) :
    (s.markDirty r).freeCount = s.freeCount := rfl
@[simp] theorem markDirty_resets (s : State) (r : Nat) : (s.markDirty r).resets = s.resets := rfl

/-! ### Clearing DIRTY flags -/

@[simp] theorem markClean_params (s : State) (rows : List Nat) :
    (s.markClean rows).params = s.params := rfl
@[simp] theorem markClean_coalesce (s : State) (rows : List Nat) :
    (s.markClean rows).coalesce = s.coalesce := rfl
@[simp] theorem markClean_err (s : State) (rows : List Nat) : (s.markClean rows).err = s.err := rfl
@[simp] theorem markClean_ovr (s : State) (rows : List Nat) : (s.markClean rows).ovr = s.ovr := rfl
@[simp] theorem markClean_result (s : State) (rows : List Nat) :
    (s.markClean rows).result = s.result := rfl
@[simp] theorem markClean_cmdLo (s : State) (rows : List Nat) :
    (s.markClean rows).cmdLo = s.cmdLo := rfl
@[simp] theorem markClean_srcLen (s : State) (rows : List Nat) :
    (s.markClean rows).srcLen = s.srcLen := rfl
@[simp] theorem markClean_palLen (s : State) (rows : List Nat) :
    (s.markClean rows).palLen = s.palLen := rfl
@[simp] theorem markClean_opc (s : State) (rows : List Nat) : (s.markClean rows).opc = s.opc := rfl
@[simp] theorem markClean_nopb (s : State) (rows : List Nat) :
    (s.markClean rows).nopb = s.nopb := rfl
@[simp] theorem markClean_rowLen (s : State) (rows : List Nat) :
    (s.markClean rows).rowLen = s.rowLen := rfl
@[simp] theorem markClean_endLen (s : State) (rows : List Nat) :
    (s.markClean rows).endLen = s.endLen := rfl
@[simp] theorem markClean_fb (s : State) (rows : List Nat) : (s.markClean rows).fb = s.fb := rfl
@[simp] theorem markClean_dirty (s : State) (rows : List Nat) :
    (s.markClean rows).dirty = clearRows s.dirty rows := rfl
@[simp] theorem markClean_pal (s : State) (rows : List Nat) : (s.markClean rows).pal = s.pal := rfl
@[simp] theorem markClean_src (s : State) (rows : List Nat) : (s.markClean rows).src = s.src := rfl
@[simp] theorem markClean_eng (s : State) (rows : List Nat) : (s.markClean rows).eng = s.eng := rfl
@[simp] theorem markClean_phase (s : State) (rows : List Nat) :
    (s.markClean rows).phase = s.phase := rfl
@[simp] theorem markClean_csOpen (s : State) (rows : List Nat) :
    (s.markClean rows).csOpen = s.csOpen := rfl
@[simp] theorem markClean_pending (s : State) (rows : List Nat) :
    (s.markClean rows).pending = s.pending := rfl
@[simp] theorem markClean_job (s : State) (rows : List Nat) : (s.markClean rows).job = s.job := rfl
@[simp] theorem markClean_left (s : State) (rows : List Nat) :
    (s.markClean rows).left = s.left := rfl
@[simp] theorem markClean_failed (s : State) (rows : List Nat) :
    (s.markClean rows).failed = s.failed := rfl
@[simp] theorem markClean_cursor (s : State) (rows : List Nat) :
    (s.markClean rows).cursor = s.cursor := rfl
@[simp] theorem markClean_env (s : State) (rows : List Nat) : (s.markClean rows).env = s.env := rfl
@[simp] theorem markClean_busLog (s : State) (rows : List Nat) :
    (s.markClean rows).busLog = s.busLog := rfl
@[simp] theorem markClean_hostLog (s : State) (rows : List Nat) :
    (s.markClean rows).hostLog = s.hostLog := rfl
@[simp] theorem markClean_freeCount (s : State) (rows : List Nat) :
    (s.markClean rows).freeCount = s.freeCount := rfl
@[simp] theorem markClean_resets (s : State) (rows : List Nat) :
    (s.markClean rows).resets = s.resets := rfl

/-! ### Opening a transaction -/

@[simp] theorem openTxn_params (s : State) (j : Job) (q : List (Phase × Byte)) :
    (s.openTxn j q).params = s.params := rfl
@[simp] theorem openTxn_coalesce (s : State) (j : Job) (q : List (Phase × Byte)) :
    (s.openTxn j q).coalesce = s.coalesce := rfl
@[simp] theorem openTxn_err (s : State) (j : Job) (q : List (Phase × Byte)) :
    (s.openTxn j q).err = s.err := rfl
@[simp] theorem openTxn_ovr (s : State) (j : Job) (q : List (Phase × Byte)) :
    (s.openTxn j q).ovr = s.ovr := rfl
@[simp] theorem openTxn_result (s : State) (j : Job) (q : List (Phase × Byte)) :
    (s.openTxn j q).result = s.result := rfl
@[simp] theorem openTxn_cmdLo (s : State) (j : Job) (q : List (Phase × Byte)) :
    (s.openTxn j q).cmdLo = s.cmdLo := rfl
@[simp] theorem openTxn_srcLen (s : State) (j : Job) (q : List (Phase × Byte)) :
    (s.openTxn j q).srcLen = s.srcLen := rfl
@[simp] theorem openTxn_palLen (s : State) (j : Job) (q : List (Phase × Byte)) :
    (s.openTxn j q).palLen = s.palLen := rfl
@[simp] theorem openTxn_opc (s : State) (j : Job) (q : List (Phase × Byte)) :
    (s.openTxn j q).opc = s.opc := rfl
@[simp] theorem openTxn_nopb (s : State) (j : Job) (q : List (Phase × Byte)) :
    (s.openTxn j q).nopb = s.nopb := rfl
@[simp] theorem openTxn_rowLen (s : State) (j : Job) (q : List (Phase × Byte)) :
    (s.openTxn j q).rowLen = s.rowLen := rfl
@[simp] theorem openTxn_endLen (s : State) (j : Job) (q : List (Phase × Byte)) :
    (s.openTxn j q).endLen = s.endLen := rfl
@[simp] theorem openTxn_fb (s : State) (j : Job) (q : List (Phase × Byte)) :
    (s.openTxn j q).fb = s.fb := rfl
@[simp] theorem openTxn_dirty (s : State) (j : Job) (q : List (Phase × Byte)) :
    (s.openTxn j q).dirty = s.dirty := rfl
@[simp] theorem openTxn_pal (s : State) (j : Job) (q : List (Phase × Byte)) :
    (s.openTxn j q).pal = s.pal := rfl
@[simp] theorem openTxn_src (s : State) (j : Job) (q : List (Phase × Byte)) :
    (s.openTxn j q).src = s.src := rfl
@[simp] theorem openTxn_eng (s : State) (j : Job) (q : List (Phase × Byte)) :
    (s.openTxn j q).eng = s.eng := rfl
@[simp] theorem openTxn_phase (s : State) (j : Job) (q : List (Phase × Byte)) :
    (s.openTxn j q).phase = .cmd := rfl
@[simp] theorem openTxn_csOpen (s : State) (j : Job) (q : List (Phase × Byte)) :
    (s.openTxn j q).csOpen = true := rfl
@[simp] theorem openTxn_pending (s : State) (j : Job) (q : List (Phase × Byte)) :
    (s.openTxn j q).pending = some .assert := rfl
@[simp] theorem openTxn_job (s : State) (j : Job) (q : List (Phase × Byte)) :
    (s.openTxn j q).job = j := rfl
@[simp] theorem openTxn_left (s : State) (j : Job) (q : List (Phase × Byte)) :
    (s.openTxn j q).left = q := rfl
@[simp] theorem openTxn_failed (s : State) (j : Job) (q : List (Phase × Byte)) :
    (s.openTxn j q).failed = false := rfl
@[simp] theorem openTxn_cursor (s : State) (j : Job) (q : List (Phase × Byte)) :
    (s.openTxn j q).cursor = s.cursor := rfl
@[simp] theorem openTxn_env (s : State) (j : Job) (q : List (Phase × Byte)) :
    (s.openTxn j q).env = s.env := rfl
@[simp] theorem openTxn_busLog (s : State) (j : Job) (q : List (Phase × Byte)) :
    (s.openTxn j q).busLog = s.busLog := rfl
@[simp] theorem openTxn_hostLog (s : State) (j : Job) (q : List (Phase × Byte)) :
    (s.openTxn j q).hostLog = s.hostLog := rfl
@[simp] theorem openTxn_freeCount (s : State) (j : Job) (q : List (Phase × Byte)) :
    (s.openTxn j q).freeCount = s.freeCount := rfl
@[simp] theorem openTxn_resets (s : State) (j : Job) (q : List (Phase × Byte)) :
    (s.openTxn j q).resets = s.resets := rfl

/-! ### Aborting a transaction -/

@[simp] theorem presentAbort_params (s : State) : (s.presentAbort).params = s.params := rfl
@[simp] theorem presentAbort_coalesce (s : State) : (s.presentAbort).coalesce = s.coalesce := rfl
@[simp] theorem presentAbort_err (s : State) : (s.presentAbort).err = s.err := rfl
@[simp] theorem presentAbort_ovr (s : State) : (s.presentAbort).ovr = s.ovr := rfl
@[simp] theorem presentAbort_result (s : State) : (s.presentAbort).result = s.result := rfl
@[simp] theorem presentAbort_cmdLo (s : State) : (s.presentAbort).cmdLo = s.cmdLo := rfl
@[simp] theorem presentAbort_srcLen (s : State) : (s.presentAbort).srcLen = s.srcLen := rfl
@[simp] theorem presentAbort_palLen (s : State) : (s.presentAbort).palLen = s.palLen := rfl
@[simp] theorem presentAbort_opc (s : State) : (s.presentAbort).opc = s.opc := rfl
@[simp] theorem presentAbort_nopb (s : State) : (s.presentAbort).nopb = s.nopb := rfl
@[simp] theorem presentAbort_rowLen (s : State) : (s.presentAbort).rowLen = s.rowLen := rfl
@[simp] theorem presentAbort_endLen (s : State) : (s.presentAbort).endLen = s.endLen := rfl
@[simp] theorem presentAbort_fb (s : State) : (s.presentAbort).fb = s.fb := rfl
@[simp] theorem presentAbort_dirty (s : State) : (s.presentAbort).dirty = s.dirty := rfl
@[simp] theorem presentAbort_pal (s : State) : (s.presentAbort).pal = s.pal := rfl
@[simp] theorem presentAbort_src (s : State) : (s.presentAbort).src = s.src := rfl
@[simp] theorem presentAbort_eng (s : State) : (s.presentAbort).eng = s.eng := rfl
@[simp] theorem presentAbort_phase (s : State) : (s.presentAbort).phase = s.phase := rfl
@[simp] theorem presentAbort_csOpen (s : State) : (s.presentAbort).csOpen = s.csOpen := rfl
@[simp] theorem presentAbort_pending (s : State) : (s.presentAbort).pending = some .deassert := rfl
@[simp] theorem presentAbort_job (s : State) : (s.presentAbort).job = s.job := rfl
@[simp] theorem presentAbort_left (s : State) : (s.presentAbort).left = [] := rfl
@[simp] theorem presentAbort_failed (s : State) : (s.presentAbort).failed = true := rfl
@[simp] theorem presentAbort_cursor (s : State) : (s.presentAbort).cursor = s.cursor := rfl
@[simp] theorem presentAbort_env (s : State) : (s.presentAbort).env = s.env := rfl
@[simp] theorem presentAbort_busLog (s : State) : (s.presentAbort).busLog = s.busLog := rfl
@[simp] theorem presentAbort_hostLog (s : State) : (s.presentAbort).hostLog = s.hostLog := rfl
@[simp] theorem presentAbort_freeCount (s : State) : (s.presentAbort).freeCount = s.freeCount := rfl
@[simp] theorem presentAbort_resets (s : State) : (s.presentAbort).resets = s.resets := rfl

/-! ### Closing a transaction -/

@[simp] theorem closeTxn_params (s : State) : (s.closeTxn).params = s.params := rfl
@[simp] theorem closeTxn_coalesce (s : State) : (s.closeTxn).coalesce = s.coalesce := rfl
@[simp] theorem closeTxn_err (s : State) : (s.closeTxn).err = s.err := rfl
@[simp] theorem closeTxn_ovr (s : State) : (s.closeTxn).ovr = s.ovr := rfl
@[simp] theorem closeTxn_result (s : State) : (s.closeTxn).result = s.result := rfl
@[simp] theorem closeTxn_cmdLo (s : State) : (s.closeTxn).cmdLo = s.cmdLo := rfl
@[simp] theorem closeTxn_srcLen (s : State) : (s.closeTxn).srcLen = s.srcLen := rfl
@[simp] theorem closeTxn_palLen (s : State) : (s.closeTxn).palLen = s.palLen := rfl
@[simp] theorem closeTxn_opc (s : State) : (s.closeTxn).opc = s.opc := rfl
@[simp] theorem closeTxn_nopb (s : State) : (s.closeTxn).nopb = s.nopb := rfl
@[simp] theorem closeTxn_rowLen (s : State) : (s.closeTxn).rowLen = s.rowLen := rfl
@[simp] theorem closeTxn_endLen (s : State) : (s.closeTxn).endLen = s.endLen := rfl
@[simp] theorem closeTxn_fb (s : State) : (s.closeTxn).fb = s.fb := rfl
@[simp] theorem closeTxn_dirty (s : State) : (s.closeTxn).dirty = s.dirty := rfl
@[simp] theorem closeTxn_pal (s : State) : (s.closeTxn).pal = s.pal := rfl
@[simp] theorem closeTxn_src (s : State) : (s.closeTxn).src = s.src := rfl
@[simp] theorem closeTxn_eng (s : State) : (s.closeTxn).eng = s.eng := rfl
@[simp] theorem closeTxn_phase (s : State) : (s.closeTxn).phase = .idle := rfl
@[simp] theorem closeTxn_csOpen (s : State) : (s.closeTxn).csOpen = false := rfl
@[simp] theorem closeTxn_pending (s : State) : (s.closeTxn).pending = none := rfl
@[simp] theorem closeTxn_job (s : State) : (s.closeTxn).job = .none := rfl
@[simp] theorem closeTxn_left (s : State) : (s.closeTxn).left = [] := rfl
@[simp] theorem closeTxn_failed (s : State) : (s.closeTxn).failed = false := rfl
@[simp] theorem closeTxn_cursor (s : State) : (s.closeTxn).cursor = s.cursor := rfl
@[simp] theorem closeTxn_env (s : State) : (s.closeTxn).env = s.env := rfl
@[simp] theorem closeTxn_busLog (s : State) : (s.closeTxn).busLog = s.busLog := rfl
@[simp] theorem closeTxn_hostLog (s : State) : (s.closeTxn).hostLog = s.hostLog := rfl
@[simp] theorem closeTxn_freeCount (s : State) : (s.closeTxn).freeCount = s.freeCount := rfl
@[simp] theorem closeTxn_resets (s : State) : (s.closeTxn).resets = s.resets := rfl

/-! ### The end of a FLUSH -/

@[simp] theorem endFlush_params (s : State) : (s.endFlush).params = s.params := rfl
@[simp] theorem endFlush_coalesce (s : State) : (s.endFlush).coalesce = s.coalesce := rfl
@[simp] theorem endFlush_err (s : State) : (s.endFlush).err = s.err := rfl
@[simp] theorem endFlush_ovr (s : State) : (s.endFlush).ovr = s.ovr := rfl
@[simp] theorem endFlush_result (s : State) : (s.endFlush).result = s.result := rfl
@[simp] theorem endFlush_cmdLo (s : State) : (s.endFlush).cmdLo = s.cmdLo := rfl
@[simp] theorem endFlush_srcLen (s : State) : (s.endFlush).srcLen = s.srcLen := rfl
@[simp] theorem endFlush_palLen (s : State) : (s.endFlush).palLen = s.palLen := rfl
@[simp] theorem endFlush_opc (s : State) : (s.endFlush).opc = s.opc := rfl
@[simp] theorem endFlush_nopb (s : State) : (s.endFlush).nopb = s.nopb := rfl
@[simp] theorem endFlush_rowLen (s : State) : (s.endFlush).rowLen = s.rowLen := rfl
@[simp] theorem endFlush_endLen (s : State) : (s.endFlush).endLen = s.endLen := rfl
@[simp] theorem endFlush_fb (s : State) : (s.endFlush).fb = s.fb := rfl
@[simp] theorem endFlush_dirty (s : State) : (s.endFlush).dirty = s.dirty := rfl
@[simp] theorem endFlush_pal (s : State) : (s.endFlush).pal = s.pal := rfl
@[simp] theorem endFlush_src (s : State) : (s.endFlush).src = s.src := rfl
@[simp] theorem endFlush_eng (s : State) : (s.endFlush).eng = s.eng := rfl
@[simp] theorem endFlush_phase (s : State) : (s.endFlush).phase = s.phase := rfl
@[simp] theorem endFlush_csOpen (s : State) : (s.endFlush).csOpen = s.csOpen := rfl
@[simp] theorem endFlush_pending (s : State) : (s.endFlush).pending = s.pending := rfl
@[simp] theorem endFlush_job (s : State) : (s.endFlush).job = s.job := rfl
@[simp] theorem endFlush_left (s : State) : (s.endFlush).left = s.left := rfl
@[simp] theorem endFlush_failed (s : State) : (s.endFlush).failed = s.failed := rfl
@[simp] theorem endFlush_cursor (s : State) : (s.endFlush).cursor = ⟨[], [], []⟩ := rfl
@[simp] theorem endFlush_env (s : State) : (s.endFlush).env = s.env := rfl
@[simp] theorem endFlush_busLog (s : State) : (s.endFlush).busLog = s.busLog := rfl
@[simp] theorem endFlush_hostLog (s : State) : (s.endFlush).hostLog = s.hostLog := rfl
@[simp] theorem endFlush_freeCount (s : State) : (s.endFlush).freeCount = s.freeCount := rfl
@[simp] theorem endFlush_resets (s : State) : (s.endFlush).resets = s.resets := rfl

/-! ### Rows counted as sent -/

@[simp] theorem groupSent_params (s : State) : (s.groupSent).params = s.params := rfl
@[simp] theorem groupSent_coalesce (s : State) : (s.groupSent).coalesce = s.coalesce := rfl
@[simp] theorem groupSent_err (s : State) : (s.groupSent).err = s.err := rfl
@[simp] theorem groupSent_ovr (s : State) : (s.groupSent).ovr = s.ovr := rfl
@[simp] theorem groupSent_result (s : State) : (s.groupSent).result = s.result := rfl
@[simp] theorem groupSent_cmdLo (s : State) : (s.groupSent).cmdLo = s.cmdLo := rfl
@[simp] theorem groupSent_srcLen (s : State) : (s.groupSent).srcLen = s.srcLen := rfl
@[simp] theorem groupSent_palLen (s : State) : (s.groupSent).palLen = s.palLen := rfl
@[simp] theorem groupSent_opc (s : State) : (s.groupSent).opc = s.opc := rfl
@[simp] theorem groupSent_nopb (s : State) : (s.groupSent).nopb = s.nopb := rfl
@[simp] theorem groupSent_rowLen (s : State) : (s.groupSent).rowLen = s.rowLen := rfl
@[simp] theorem groupSent_endLen (s : State) : (s.groupSent).endLen = s.endLen := rfl
@[simp] theorem groupSent_fb (s : State) : (s.groupSent).fb = s.fb := rfl
@[simp] theorem groupSent_dirty (s : State) :
    (s.groupSent).dirty = clearRows s.dirty s.cursor.current := rfl
@[simp] theorem groupSent_pal (s : State) : (s.groupSent).pal = s.pal := rfl
@[simp] theorem groupSent_src (s : State) : (s.groupSent).src = s.src := rfl
@[simp] theorem groupSent_eng (s : State) : (s.groupSent).eng = s.eng := rfl
@[simp] theorem groupSent_phase (s : State) : (s.groupSent).phase = s.phase := rfl
@[simp] theorem groupSent_csOpen (s : State) : (s.groupSent).csOpen = s.csOpen := rfl
@[simp] theorem groupSent_pending (s : State) : (s.groupSent).pending = s.pending := rfl
@[simp] theorem groupSent_job (s : State) : (s.groupSent).job = s.job := rfl
@[simp] theorem groupSent_left (s : State) : (s.groupSent).left = s.left := rfl
@[simp] theorem groupSent_failed (s : State) : (s.groupSent).failed = s.failed := rfl
@[simp] theorem groupSent_cursor (s : State) :
    (s.groupSent).cursor = ⟨s.cursor.sent ++ s.cursor.current, [], s.cursor.later⟩ := rfl
@[simp] theorem groupSent_env (s : State) : (s.groupSent).env = s.env := rfl
@[simp] theorem groupSent_busLog (s : State) : (s.groupSent).busLog = s.busLog := rfl
@[simp] theorem groupSent_hostLog (s : State) : (s.groupSent).hostLog = s.hostLog := rfl
@[simp] theorem groupSent_freeCount (s : State) : (s.groupSent).freeCount = s.freeCount := rfl
@[simp] theorem groupSent_resets (s : State) : (s.groupSent).resets = s.resets := rfl

/-! ### Logging a bus request -/

@[simp] theorem logBus_params (s : State) (q : BusReq) (o : BusOutcome) :
    (s.logBus q o).params = s.params := rfl
@[simp] theorem logBus_coalesce (s : State) (q : BusReq) (o : BusOutcome) :
    (s.logBus q o).coalesce = s.coalesce := rfl
@[simp] theorem logBus_err (s : State) (q : BusReq) (o : BusOutcome) :
    (s.logBus q o).err = s.err := rfl
@[simp] theorem logBus_ovr (s : State) (q : BusReq) (o : BusOutcome) :
    (s.logBus q o).ovr = s.ovr := rfl
@[simp] theorem logBus_result (s : State) (q : BusReq) (o : BusOutcome) :
    (s.logBus q o).result = s.result := rfl
@[simp] theorem logBus_cmdLo (s : State) (q : BusReq) (o : BusOutcome) :
    (s.logBus q o).cmdLo = s.cmdLo := rfl
@[simp] theorem logBus_srcLen (s : State) (q : BusReq) (o : BusOutcome) :
    (s.logBus q o).srcLen = s.srcLen := rfl
@[simp] theorem logBus_palLen (s : State) (q : BusReq) (o : BusOutcome) :
    (s.logBus q o).palLen = s.palLen := rfl
@[simp] theorem logBus_opc (s : State) (q : BusReq) (o : BusOutcome) :
    (s.logBus q o).opc = s.opc := rfl
@[simp] theorem logBus_nopb (s : State) (q : BusReq) (o : BusOutcome) :
    (s.logBus q o).nopb = s.nopb := rfl
@[simp] theorem logBus_rowLen (s : State) (q : BusReq) (o : BusOutcome) :
    (s.logBus q o).rowLen = s.rowLen := rfl
@[simp] theorem logBus_endLen (s : State) (q : BusReq) (o : BusOutcome) :
    (s.logBus q o).endLen = s.endLen := rfl
@[simp] theorem logBus_fb (s : State) (q : BusReq) (o : BusOutcome) :
    (s.logBus q o).fb = s.fb := rfl
@[simp] theorem logBus_dirty (s : State) (q : BusReq) (o : BusOutcome) :
    (s.logBus q o).dirty = s.dirty := rfl
@[simp] theorem logBus_pal (s : State) (q : BusReq) (o : BusOutcome) :
    (s.logBus q o).pal = s.pal := rfl
@[simp] theorem logBus_src (s : State) (q : BusReq) (o : BusOutcome) :
    (s.logBus q o).src = s.src := rfl
@[simp] theorem logBus_eng (s : State) (q : BusReq) (o : BusOutcome) :
    (s.logBus q o).eng = s.eng := rfl
@[simp] theorem logBus_phase (s : State) (q : BusReq) (o : BusOutcome) :
    (s.logBus q o).phase = s.phase := rfl
@[simp] theorem logBus_csOpen (s : State) (q : BusReq) (o : BusOutcome) :
    (s.logBus q o).csOpen = s.csOpen := rfl
@[simp] theorem logBus_pending (s : State) (q : BusReq) (o : BusOutcome) :
    (s.logBus q o).pending = s.pending := rfl
@[simp] theorem logBus_job (s : State) (q : BusReq) (o : BusOutcome) :
    (s.logBus q o).job = s.job := rfl
@[simp] theorem logBus_left (s : State) (q : BusReq) (o : BusOutcome) :
    (s.logBus q o).left = s.left := rfl
@[simp] theorem logBus_failed (s : State) (q : BusReq) (o : BusOutcome) :
    (s.logBus q o).failed = s.failed := rfl
@[simp] theorem logBus_cursor (s : State) (q : BusReq) (o : BusOutcome) :
    (s.logBus q o).cursor = s.cursor := rfl
@[simp] theorem logBus_env (s : State) (q : BusReq) (o : BusOutcome) :
    (s.logBus q o).env = s.env := rfl
@[simp] theorem logBus_busLog (s : State) (q : BusReq) (o : BusOutcome) :
    (s.logBus q o).busLog = (q, o) :: s.busLog := rfl
@[simp] theorem logBus_hostLog (s : State) (q : BusReq) (o : BusOutcome) :
    (s.logBus q o).hostLog = s.hostLog := rfl
@[simp] theorem logBus_freeCount (s : State) (q : BusReq) (o : BusOutcome) :
    (s.logBus q o).freeCount = s.freeCount := rfl
@[simp] theorem logBus_resets (s : State) (q : BusReq) (o : BusOutcome) :
    (s.logBus q o).resets = s.resets := rfl

/-! ### Logging a host read -/

@[simp] theorem logRead_params (s : State) (a : HostAddr) (w : Word) :
    (s.logRead a w).params = s.params := rfl
@[simp] theorem logRead_coalesce (s : State) (a : HostAddr) (w : Word) :
    (s.logRead a w).coalesce = s.coalesce := rfl
@[simp] theorem logRead_err (s : State) (a : HostAddr) (w : Word) :
    (s.logRead a w).err = s.err := rfl
@[simp] theorem logRead_ovr (s : State) (a : HostAddr) (w : Word) :
    (s.logRead a w).ovr = s.ovr := rfl
@[simp] theorem logRead_result (s : State) (a : HostAddr) (w : Word) :
    (s.logRead a w).result = s.result := rfl
@[simp] theorem logRead_cmdLo (s : State) (a : HostAddr) (w : Word) :
    (s.logRead a w).cmdLo = s.cmdLo := rfl
@[simp] theorem logRead_srcLen (s : State) (a : HostAddr) (w : Word) :
    (s.logRead a w).srcLen = s.srcLen := rfl
@[simp] theorem logRead_palLen (s : State) (a : HostAddr) (w : Word) :
    (s.logRead a w).palLen = s.palLen := rfl
@[simp] theorem logRead_opc (s : State) (a : HostAddr) (w : Word) :
    (s.logRead a w).opc = s.opc := rfl
@[simp] theorem logRead_nopb (s : State) (a : HostAddr) (w : Word) :
    (s.logRead a w).nopb = s.nopb := rfl
@[simp] theorem logRead_rowLen (s : State) (a : HostAddr) (w : Word) :
    (s.logRead a w).rowLen = s.rowLen := rfl
@[simp] theorem logRead_endLen (s : State) (a : HostAddr) (w : Word) :
    (s.logRead a w).endLen = s.endLen := rfl
@[simp] theorem logRead_fb (s : State) (a : HostAddr) (w : Word) : (s.logRead a w).fb = s.fb := rfl
@[simp] theorem logRead_dirty (s : State) (a : HostAddr) (w : Word) :
    (s.logRead a w).dirty = s.dirty := rfl
@[simp] theorem logRead_pal (s : State) (a : HostAddr) (w : Word) :
    (s.logRead a w).pal = s.pal := rfl
@[simp] theorem logRead_src (s : State) (a : HostAddr) (w : Word) :
    (s.logRead a w).src = s.src := rfl
@[simp] theorem logRead_eng (s : State) (a : HostAddr) (w : Word) :
    (s.logRead a w).eng = s.eng := rfl
@[simp] theorem logRead_phase (s : State) (a : HostAddr) (w : Word) :
    (s.logRead a w).phase = s.phase := rfl
@[simp] theorem logRead_csOpen (s : State) (a : HostAddr) (w : Word) :
    (s.logRead a w).csOpen = s.csOpen := rfl
@[simp] theorem logRead_pending (s : State) (a : HostAddr) (w : Word) :
    (s.logRead a w).pending = s.pending := rfl
@[simp] theorem logRead_job (s : State) (a : HostAddr) (w : Word) :
    (s.logRead a w).job = s.job := rfl
@[simp] theorem logRead_left (s : State) (a : HostAddr) (w : Word) :
    (s.logRead a w).left = s.left := rfl
@[simp] theorem logRead_failed (s : State) (a : HostAddr) (w : Word) :
    (s.logRead a w).failed = s.failed := rfl
@[simp] theorem logRead_cursor (s : State) (a : HostAddr) (w : Word) :
    (s.logRead a w).cursor = s.cursor := rfl
@[simp] theorem logRead_env (s : State) (a : HostAddr) (w : Word) :
    (s.logRead a w).env = s.env := rfl
@[simp] theorem logRead_busLog (s : State) (a : HostAddr) (w : Word) :
    (s.logRead a w).busLog = s.busLog := rfl
@[simp] theorem logRead_hostLog (s : State) (a : HostAddr) (w : Word) :
    (s.logRead a w).hostLog = (a, w) :: s.hostLog := rfl
@[simp] theorem logRead_freeCount (s : State) (a : HostAddr) (w : Word) :
    (s.logRead a w).freeCount = s.freeCount := rfl
@[simp] theorem logRead_resets (s : State) (a : HostAddr) (w : Word) :
    (s.logRead a w).resets = s.resets := rfl

/-! ### Accepting a command -/

@[simp] theorem accept_params (s : State) (w : Cmd) : (s.accept w).params = s.params := rfl
@[simp] theorem accept_coalesce (s : State) (w : Cmd) : (s.accept w).coalesce = s.coalesce := rfl
@[simp] theorem accept_err (s : State) (w : Cmd) : (s.accept w).err = .ok := rfl
@[simp] theorem accept_ovr (s : State) (w : Cmd) : (s.accept w).ovr = s.ovr := rfl
@[simp] theorem accept_result (s : State) (w : Cmd) : (s.accept w).result = s.result := rfl
@[simp] theorem accept_cmdLo (s : State) (w : Cmd) : (s.accept w).cmdLo = s.cmdLo := rfl
@[simp] theorem accept_srcLen (s : State) (w : Cmd) : (s.accept w).srcLen = s.srcLen := rfl
@[simp] theorem accept_palLen (s : State) (w : Cmd) : (s.accept w).palLen = s.palLen := rfl
@[simp] theorem accept_opc (s : State) (w : Cmd) : (s.accept w).opc = s.opc := rfl
@[simp] theorem accept_nopb (s : State) (w : Cmd) : (s.accept w).nopb = s.nopb := rfl
@[simp] theorem accept_rowLen (s : State) (w : Cmd) : (s.accept w).rowLen = s.rowLen := rfl
@[simp] theorem accept_endLen (s : State) (w : Cmd) : (s.accept w).endLen = s.endLen := rfl
@[simp] theorem accept_fb (s : State) (w : Cmd) : (s.accept w).fb = s.fb := rfl
@[simp] theorem accept_dirty (s : State) (w : Cmd) : (s.accept w).dirty = s.dirty := rfl
@[simp] theorem accept_pal (s : State) (w : Cmd) : (s.accept w).pal = s.pal := rfl
@[simp] theorem accept_src (s : State) (w : Cmd) : (s.accept w).src = s.src := rfl
@[simp] theorem accept_eng (s : State) (w : Cmd) : (s.accept w).eng = .exec w := rfl
@[simp] theorem accept_phase (s : State) (w : Cmd) : (s.accept w).phase = s.phase := rfl
@[simp] theorem accept_csOpen (s : State) (w : Cmd) : (s.accept w).csOpen = s.csOpen := rfl
@[simp] theorem accept_pending (s : State) (w : Cmd) : (s.accept w).pending = s.pending := rfl
@[simp] theorem accept_job (s : State) (w : Cmd) : (s.accept w).job = s.job := rfl
@[simp] theorem accept_left (s : State) (w : Cmd) : (s.accept w).left = s.left := rfl
@[simp] theorem accept_failed (s : State) (w : Cmd) : (s.accept w).failed = s.failed := rfl
@[simp] theorem accept_cursor (s : State) (w : Cmd) : (s.accept w).cursor = s.cursor := rfl
@[simp] theorem accept_env (s : State) (w : Cmd) : (s.accept w).env = s.env := rfl
@[simp] theorem accept_busLog (s : State) (w : Cmd) : (s.accept w).busLog = s.busLog := rfl
@[simp] theorem accept_hostLog (s : State) (w : Cmd) : (s.accept w).hostLog = s.hostLog := rfl
@[simp] theorem accept_freeCount (s : State) (w : Cmd) : (s.accept w).freeCount = s.freeCount := rfl
@[simp] theorem accept_resets (s : State) (w : Cmd) : (s.accept w).resets = s.resets := rfl

/-! ### Reset -/

@[simp] theorem blockReset_params (s : State) : (s.blockReset).params = s.params := rfl
@[simp] theorem blockReset_coalesce (s : State) :
    (s.blockReset).coalesce = (State.resetOf s.params).coalesce := rfl
@[simp] theorem blockReset_err (s : State) :
    (s.blockReset).err = (State.resetOf s.params).err := rfl
@[simp] theorem blockReset_ovr (s : State) :
    (s.blockReset).ovr = (State.resetOf s.params).ovr := rfl
@[simp] theorem blockReset_result (s : State) :
    (s.blockReset).result = (State.resetOf s.params).result := rfl
@[simp] theorem blockReset_cmdLo (s : State) :
    (s.blockReset).cmdLo = (State.resetOf s.params).cmdLo := rfl
@[simp] theorem blockReset_srcLen (s : State) :
    (s.blockReset).srcLen = (State.resetOf s.params).srcLen := rfl
@[simp] theorem blockReset_palLen (s : State) :
    (s.blockReset).palLen = (State.resetOf s.params).palLen := rfl
@[simp] theorem blockReset_opc (s : State) :
    (s.blockReset).opc = (State.resetOf s.params).opc := rfl
@[simp] theorem blockReset_nopb (s : State) :
    (s.blockReset).nopb = (State.resetOf s.params).nopb := rfl
@[simp] theorem blockReset_rowLen (s : State) :
    (s.blockReset).rowLen = (State.resetOf s.params).rowLen := rfl
@[simp] theorem blockReset_endLen (s : State) :
    (s.blockReset).endLen = (State.resetOf s.params).endLen := rfl
@[simp] theorem blockReset_fb (s : State) : (s.blockReset).fb = (State.resetOf s.params).fb := rfl
@[simp] theorem blockReset_dirty (s : State) :
    (s.blockReset).dirty = (State.resetOf s.params).dirty := rfl
@[simp] theorem blockReset_pal (s : State) :
    (s.blockReset).pal = (State.resetOf s.params).pal := rfl
@[simp] theorem blockReset_src (s : State) :
    (s.blockReset).src = (State.resetOf s.params).src := rfl
@[simp] theorem blockReset_eng (s : State) :
    (s.blockReset).eng = (State.resetOf s.params).eng := rfl
@[simp] theorem blockReset_phase (s : State) :
    (s.blockReset).phase = (State.resetOf s.params).phase := rfl
@[simp] theorem blockReset_csOpen (s : State) :
    (s.blockReset).csOpen = (State.resetOf s.params).csOpen := rfl
@[simp] theorem blockReset_pending (s : State) :
    (s.blockReset).pending = (State.resetOf s.params).pending := rfl
@[simp] theorem blockReset_job (s : State) :
    (s.blockReset).job = (State.resetOf s.params).job := rfl
@[simp] theorem blockReset_left (s : State) :
    (s.blockReset).left = (State.resetOf s.params).left := rfl
@[simp] theorem blockReset_failed (s : State) :
    (s.blockReset).failed = (State.resetOf s.params).failed := rfl
@[simp] theorem blockReset_cursor (s : State) :
    (s.blockReset).cursor = (State.resetOf s.params).cursor := rfl
@[simp] theorem blockReset_env (s : State) : (s.blockReset).env = s.env := rfl
@[simp] theorem blockReset_busLog (s : State) : (s.blockReset).busLog = s.busLog := rfl
@[simp] theorem blockReset_hostLog (s : State) : (s.blockReset).hostLog = s.hostLog := rfl
@[simp] theorem blockReset_freeCount (s : State) : (s.blockReset).freeCount = s.freeCount := rfl
@[simp] theorem blockReset_resets (s : State) : (s.blockReset).resets = s.resets + 1 := rfl

end Sys2Proof.Machine
end

