-- ==== Sys2Proof/Laws/Invariant.lean ====
section
/-! SUPPORT. The invariant through each operation of the machine: what the host port, the commands and
the bus channel keep. -/

namespace Sys2Proof.Machine

/-! ### Quiet states: no request presented -/

/-- A state with no transaction in progress has the invariant of the channel. -/
theorem channel_of_quiet {s : State} (hb : s.busy = true → s.err = .ok) (hp : s.pending = none)
    (hq : s.csOpen = false ∧ s.phase = .idle ∧ s.job = .none ∧ s.left = [] ∧ s.failed = false ∧
      s.cursor = ⟨[], [], []⟩) : s.ChannelInv where
  busyErr := hb
  quiet := fun _ => hq
  framed := fun h => absurd hp h
  leftPhases := by simp [hq.2.2.2.1]
  assertPhase := by simp [hp]
  deassertLast := by simp [hp]
  failedLast := by simp [hq]
  sequence := fun h => absurd hp h
  cursorRows := by simp [hq]
  cursorSent := by simp [hq]
  cursorRuns := by simp [hq]
  cursorRefresh := by simp [hq]

/-- A quiet state stays one under any change that leaves the transaction's fields alone. -/
theorem ChannelInv_keep_quiet {s t : State} (h : s.ChannelInv) (hp : s.pending = none)
    (hb : t.busy = true → t.err = .ok) (h1 : t.pending = s.pending) (h2 : t.csOpen = s.csOpen)
    (h3 : t.phase = s.phase) (h4 : t.job = s.job) (h5 : t.left = s.left)
    (h6 : t.failed = s.failed) (h7 : t.cursor = s.cursor) : t.ChannelInv := by
  have hq := h.quiet hp
  exact channel_of_quiet hb (h1.trans hp) (by rw [h2, h3, h4, h5, h6, h7]; exact hq)

/-- An idle block has no request presented. -/
theorem pending_none_of_idle {s : State} (h : s.ChannelInv) (hi : s.busy = false) :
    s.pending = none := by
  by_contra hp
  rcases (h.framed hp).2.2 with ⟨-, hc, -⟩ | ⟨-, hc⟩ <;>
    (unfold State.command at hc; unfold State.busy at hi; split at hi <;> simp_all)

@[simp] theorem finish_busy (s : State) (c : ErrCode) : (s.finish c).busy = false := rfl

theorem finish_channel {s : State} (h : s.ChannelInv) (hp : s.pending = none) (c : ErrCode) :
    (s.finish c).ChannelInv :=
  ChannelInv_keep_quiet h hp (by simp) rfl rfl rfl rfl rfl rfl rfl

theorem txnSeq_congr {s t : State} (h : t.sameWire s) (hj : t.job = s.job) (hc : t.cursor = s.cursor) :
    t.txnSeq = s.txnSeq := by
  simp only [State.txnSeq, hj, hc, clearSeq_congr h, refreshSeq_congr h, updateSeq_congr h]

/-- The storage's invariant does not depend on the rest of the state. -/
theorem StorageInv_congr {s t : State} (h : s.StorageInv) (h1 : t.params = s.params) (h2 : t.fb = s.fb)
    (h3 : t.dirty = s.dirty) (h4 : t.src = s.src) (h5 : t.pal = s.pal) (h6 : t.srcLen = s.srcLen)
    (h7 : t.palLen = s.palLen) : t.StorageInv := by
  constructor
  · rw [h1]; exact h.legal
  · rw [h1, h2]; exact h.fbWf
  · simp only [State.isDirty, h1, h3]; exact h.dirtyLt
  · rw [h4]; exact h.srcWf
  · rw [h5]; exact h.palWf
  · rw [h6]; exact h.srcLenLe
  · rw [h7]; exact h.palLenLe

/-- The channel's invariant does not depend on the rest of the state. -/
theorem ChannelInv_congr {s t : State} (h : s.ChannelInv) (h1 : t.pending = s.pending)
    (h2 : t.csOpen = s.csOpen) (h3 : t.phase = s.phase) (h4 : t.job = s.job) (h5 : t.left = s.left)
    (h6 : t.failed = s.failed) (h7 : t.cursor = s.cursor) (h8 : t.eng = s.eng)
    (h9 : t.err = s.err) (h10 : t.dirty = s.dirty) (h11 : t.sameWire s) : t.ChannelInv := by
  have hb : t.busy = s.busy := by simp only [State.busy, h8]
  have hc : t.command = s.command := by simp only [State.command, h8]
  have hd : t.dirtyRows = s.dirtyRows := by
    simp only [State.dirtyRows, State.isDirty, h10, h11.params]
  have hi : ∀ r, t.isDirty r = s.isDirty r := by simp only [State.isDirty, h10, implies_true]
  constructor
  · rw [hb, h9]; exact h.busyErr
  · rw [h1, h2, h3, h4, h5, h6, h7]; exact h.quiet
  · rw [h1, h2, h3, h4, h7, hc]; exact h.framed
  · rw [h5]; exact h.leftPhases
  · rw [h1, h3]; exact h.assertPhase
  · rw [h1, h5]; exact h.deassertLast
  · rw [h1, h6]; exact h.failedLast
  · rw [h1, h3, h5, h6, txnSeq_congr h11 h4 h7]; exact h.sequence
  · rw [h4, hd, h7]; exact h.cursorRows
  · simp only [h7, hi]; exact h.cursorSent
  · rw [h4, h7]; exact h.cursorRuns
  · rw [h4, h7]; exact h.cursorRefresh

/-! ### The host port -/

theorem ofNat_min_le {w size x : Nat} (hs : size < 2 ^ w) :
    (BitVec.ofNat w (min x size)).toNat ≤ size := by
  rw [BitVec.toNat_ofNat, Nat.mod_eq_of_lt (by omega)]
  omega

theorem wordAddress_lt (a : HostAddr) : wordAddress a < 0x4000 := (a &&& 0x3FFC#14).isLt

/-- The registers are no window. -/
theorem registerTarget_cases (n : Nat) (P : Target → Prop) (h0 : P .id) (h1 : P .ctrl)
    (h2 : P .status) (h3 : P .result) (h4 : P .cmdLo) (h5 : P .cmdHi) (h6 : P .srcLen)
    (h7 : P .palLen) (h8 : P .opc) (h9 : P .nopb) (h10 : P .trail) (h11 : P .unmapped) :
    P (registerTarget n) := by
  unfold registerTarget
  split <;> assumption

theorem target_src_lt {a : HostAddr} {k : Nat} (h : target a = .src k) :
    4 * k + 3 < Config.srcBytes := by
  show _ < 4096
  have := wordAddress_lt a
  simp only [target, targetAt] at h
  split at h
  · revert h
    exact registerTarget_cases _ (fun t => t = .src k → _) (by simp) (by simp) (by simp) (by simp)
      (by simp) (by simp) (by simp) (by simp) (by simp) (by simp) (by simp) (by simp)
  · repeat' split at h
    all_goals simp only [Target.src.injEq, reduceCtorEq] at h
    omega

theorem target_pal_lt {a : HostAddr} {i : Nat} (h : target a = .pal i) : i < Config.palEntries := by
  show _ < 256
  have := wordAddress_lt a
  simp only [target, targetAt] at h
  split at h
  · revert h
    exact registerTarget_cases _ (fun t => t = .pal i → _) (by simp) (by simp) (by simp) (by simp)
      (by simp) (by simp) (by simp) (by simp) (by simp) (by simp) (by simp) (by simp)
  · repeat' split at h
    all_goals simp only [Target.pal.injEq, reduceCtorEq] at h
    omega

theorem hostWrite_storage {s : State} (h : s.StorageInv) (a : HostAddr) (w : Word) :
    (s.hostWrite a w).StorageInv := by
  unfold State.hostWrite
  split
  · exact StorageInv_congr h rfl rfl rfl rfl rfl rfl rfl
  · have hsrc := @target_src_lt a
    have hpal := @target_pal_lt a
    generalize target a = tgt at hsrc hpal
    cases tgt with
    | srcLen => exact { h with srcLenLe := ofNat_min_le (by decide) }
    | palLen => exact { h with palLenLe := ofNat_min_le (by decide) }
    | pal i => exact { h with palWf := rising_put h.palWf (hpal rfl) _ }
    | src k =>
      have hk := hsrc (k := k) rfl
      exact { h with
        srcWf := rising_put (rising_put (rising_put (rising_put h.srcWf (by omega) _) (by omega) _)
          (by omega) _) (by omega) _ }
    | _ => exact StorageInv_congr h rfl rfl rfl rfl rfl rfl rfl

theorem hostWrite_channel {s : State} (h : s.ChannelInv) (a : HostAddr) (w : Word) :
    (s.hostWrite a w).ChannelInv := by
  unfold State.hostWrite
  split
  · exact ChannelInv_congr h rfl rfl rfl rfl rfl rfl rfl rfl rfl rfl ⟨rfl, rfl, rfl, rfl, rfl, rfl⟩
  · rename_i hg
    generalize target a = tgt at hg
    have quiet : tgt.guarded = true → s.pending = none := fun ht =>
      pending_none_of_idle h (by simpa [ht] using hg)
    cases tgt with
    | cmdHi =>
      exact ChannelInv_keep_quiet h (quiet rfl) (fun _ => rfl) rfl rfl rfl rfl rfl rfl rfl
    | ctrl | cmdLo | srcLen | palLen | opc | nopb | trail | pal | src =>
      exact ChannelInv_keep_quiet h (quiet rfl) h.busyErr rfl rfl rfl rfl rfl rfl rfl
    | _ =>
      exact ChannelInv_congr h rfl rfl rfl rfl rfl rfl rfl rfl rfl rfl ⟨rfl, rfl, rfl, rfl, rfl, rfl⟩

theorem hostRead_storage {s : State} (h : s.StorageInv) (a : HostAddr) :
    (s.hostRead a).StorageInv := by
  unfold State.hostRead
  split <;> exact StorageInv_congr h rfl rfl rfl rfl rfl rfl rfl

theorem hostRead_channel {s : State} (h : s.ChannelInv) (a : HostAddr) :
    (s.hostRead a).ChannelInv := by
  unfold State.hostRead
  split <;> exact ChannelInv_congr h rfl rfl rfl rfl rfl rfl rfl rfl rfl rfl
      ⟨rfl, rfl, rfl, rfl, rfl, rfl⟩

/-! ### Reset -/

/-- The state after reset has the invariant, for every legal choice of the parameters. -/
theorem resetOf_inv {p : Config.Params} (hp : p.legal) : (State.resetOf p).Inv where
  storage :=
    { legal := hp
      fbWf := ⟨rising_nil _, by simp [State.resetOf]⟩
      dirtyLt := by simp [State.resetOf, State.isDirty]
      srcWf := rising_nil _
      palWf := rising_nil _
      srcLenLe := by simp [State.resetOf]
      palLenLe := by simp [State.resetOf] }
  channel := channel_of_quiet (fun _ => rfl) rfl ⟨rfl, rfl, rfl, rfl, rfl, rfl⟩

theorem blockReset_inv {s : State} (hp : s.params.legal) : s.blockReset.Inv where
  storage := StorageInv_congr (resetOf_inv hp).storage rfl rfl rfl rfl rfl rfl rfl
  channel := channel_of_quiet (fun _ => rfl) rfl ⟨rfl, rfl, rfl, rfl, rfl, rfl⟩

/-! ### The raster commands -/

/-- Setting flags of rows below HEIGHT sets none beyond. -/
theorem setRows_lt {d : BitVec Config.dirtyBits} {height : Nat} {rows : List Nat}
    (h : ∀ r, height ≤ r → d.getLsbD r = false) (hr : ∀ r ∈ rows, r < height) :
    ∀ r, height ≤ r → (setRows d rows).getLsbD r = false := by
  intro r hle
  have hn : r ∉ rows := fun hm => absurd (hr r hm) (by omega)
  rw [getLsbD_setRows, h r hle]
  simp [hn]

theorem clearRows_lt {d : BitVec Config.dirtyBits} {height : Nat} (rows : List Nat)
    (h : ∀ r, height ≤ r → d.getLsbD r = false) :
    ∀ r, height ≤ r → (clearRows d rows).getLsbD r = false := by
  intro r hle
  rw [getLsbD_clearRows, h r hle]
  rfl

theorem allRows_get (p : Config.Params) (r : Nat) :
    (allRows p).getLsbD r = (decide (r < Config.dirtyBits) && decide (r < p.height)) := by
  simp [allRows]

theorem drawRows_storage {s : State} (h : s.StorageInv) {mask : List Byte}
    (hm : mask.length = s.params.rowBytes) (color : Bool) {rows : List Nat}
    (hr : ∀ r ∈ rows, r < s.params.height) : (s.drawRows mask color rows).StorageInv := by
  rw [drawRows_eq]
  exact { h with
    fbWf := composeRows_wf h.fbWf hm color hr
    dirtyLt := setRows_lt h.dirtyLt hr }

theorem drawRows_channel {s : State} (h : s.ChannelInv) (hp : s.pending = none) (mask : List Byte)
    (color : Bool) (rows : List Nat) : (s.drawRows mask color rows).ChannelInv := by
  rw [drawRows_eq]
  exact ChannelInv_keep_quiet h hp h.busyErr rfl rfl rfl rfl rfl rfl rfl

theorem blitRow_storage {s : State} (h : s.StorageInv) {b : Blit} (hy : b.y < s.params.height) :
    (s.blitRow b).StorageInv := by
  rw [blitRow_eq]
  refine { h with fbWf := writeRow_wf h.fbWf hy (by simp), dirtyLt := ?_ }
  intro r hr
  simp only [State.isDirty]
  split
  · exact setRows_lt h.dirtyLt (by simpa using hy) r hr
  · exact h.dirtyLt r hr

theorem blitRow_channel {s : State} (h : s.ChannelInv) (hp : s.pending = none) (b : Blit) :
    (s.blitRow b).ChannelInv := by
  rw [blitRow_eq]
  exact ChannelInv_keep_quiet h hp h.busyErr rfl rfl rfl rfl rfl rfl rfl

/-- A BLIT without error has its destination inside the framebuffer and its source inside the
declared buffers (R131, R138, R139). -/
theorem blitError_ok {s : State} {b : Blit} (h : s.blitError b = .ok) :
    b.x < s.params.width ∧ b.y < s.params.height ∧ b.x + b.n ≤ s.params.width ∧
      (b.bpp8 = true → b.off % 8 = 0) ∧ b.off + b.n * b.bpp ≤ 8 * s.srcLen.toNat ∧
      ∀ i < b.n, s.srcIdx b (b.srcPos i) < s.palLen.toNat := by
  simp only [State.blitError, firstError] at h
  repeat' split at h
  all_goals try cases h
  rename_i h1 h2 h3 h4
  simp only [Bool.or_eq_true, decide_eq_true_eq, not_or, Bool.and_eq_true, not_and] at h1 h2 h3
  refine ⟨by omega, by omega, by omega, fun hb => by simpa using h2 hb, by omega, fun i hi => ?_⟩
  simp only [List.any_eq_true, decide_eq_true_eq, not_exists, not_and, not_le, State.blitIdx,
    List.mem_map, List.mem_range] at h4
  exact h4 _ ⟨i, hi, rfl⟩

/-- A checked command keeps the invariant when its effect does. -/
theorem checked_inv {s t : State} {code : ErrCode} {effect : State → State} (h : s.Inv)
    (hp : s.pending = none) (he : code = .ok → (effect s).StorageInv ∧ (effect s).ChannelInv)
    (hpe : (effect s).pending = none)
    (ht : s.checked code effect = .next t) : t.Inv := by
  unfold State.checked at ht
  split at ht <;> cases ht
  · rename_i hc
    have := he hc
    exact ⟨StorageInv_congr this.1 rfl rfl rfl rfl rfl rfl rfl,
      finish_channel this.2 hpe _⟩
  · exact ⟨StorageInv_congr h.storage rfl rfl rfl rfl rfl rfl rfl, finish_channel h.channel hp _⟩

/-! ### The bus channel -/

theorem trailerSeq_phases (s : State) (last : Bool) : ∀ p ∈ s.trailerSeq last, p.1 ≠ .idle := by
  intro p hp
  rw [List.eq_of_mem_replicate hp]
  simp

theorem payloadSeq_phases (s : State) (r : Nat) : ∀ p ∈ s.payloadSeq r, p.1 ≠ .idle := by
  intro p hp
  simp only [State.payloadSeq, List.mem_cons, List.mem_map] at hp
  rcases hp with rfl | ⟨b, -, rfl⟩ <;> simp

theorem rowsSeq_phases (s : State) (rows : List Nat) : ∀ p ∈ s.rowsSeq rows, p.1 ≠ .idle := by
  induction rows with
  | nil => simp [State.rowsSeq]
  | cons r rows ih =>
    cases rows with
    | nil =>
      intro p hp
      rcases List.mem_append.1 hp with hp | hp
      · exact payloadSeq_phases s r p hp
      · exact trailerSeq_phases s _ p hp
    | cons r' rows =>
      intro p hp
      rcases List.mem_append.1 hp with hp | hp
      · rcases List.mem_append.1 hp with hp | hp
        · exact payloadSeq_phases s r p hp
        · exact trailerSeq_phases s _ p hp
      · exact ih p hp

theorem updateSeq_phases (s : State) (rows : List Nat) : ∀ p ∈ s.updateSeq rows, p.1 ≠ .idle := by
  intro p hp
  rcases List.mem_cons.1 hp with rfl | hp
  · simp
  · exact rowsSeq_phases s rows p hp

theorem openTxn_txnSeq_update (s : State) (seq : List (Phase × Byte)) :
    (s.openTxn .update seq).txnSeq = s.updateSeq s.cursor.current :=
  updateSeq_congr (s := s.openTxn .update seq) (t := s) ⟨rfl, rfl, rfl, rfl, rfl, rfl⟩ _

/-- Opening the next transaction of a FLUSH keeps the channel's invariant, from any state whose
cursor has no transaction in progress and accounts for the dirty rows. -/
theorem nextGroup_channel {s : State} (hb : s.busy = true → s.err = .ok)
    (hc : s.command = some .flush) (hd : s.dirtyRows = s.cursor.later.flatten)
    (hs : ∀ r ∈ s.cursor.sent, s.isDirty r = false)
    (hl : ∀ g ∈ s.cursor.later, consecutive g = true) : s.nextGroup.ChannelInv := by
  unfold State.nextGroup
  split
  · rename_i rows later heq
    rw [heq] at hd hl
    exact
      { busyErr := hb
        quiet := by simp
        framed := fun _ => ⟨rfl, by simp, Or.inr ⟨Or.inl rfl, hc⟩⟩
        leftPhases := updateSeq_phases s rows
        assertPhase := fun _ => rfl
        deassertLast := by simp
        failedLast := by simp
        sequence := fun _ _ => ⟨[], (openTxn_txnSeq_update _ _).trans
          (updateSeq_congr (t := s) (by exact ⟨rfl, rfl, rfl, rfl, rfl, rfl⟩) rows), by simp, by simp⟩
        cursorRows := fun _ => hd
        cursorSent := hs
        cursorRuns := fun _ => ⟨hl rows (by simp), fun g hg => hl g (List.mem_cons_of_mem _ hg)⟩
        cursorRefresh := by simp }
  · rename_i heq
    rw [heq] at hd
    exact
      { busyErr := hb
        quiet := by simp
        framed := fun _ => ⟨rfl, by simp, Or.inr ⟨Or.inr rfl, hc⟩⟩
        leftPhases := by
          intro p hp
          simp only [openTxn_left, State.refreshSeq, List.mem_cons, List.not_mem_nil, or_false] at hp
          rcases hp with rfl | rfl <;> simp
        assertPhase := fun _ => rfl
        deassertLast := by simp
        failedLast := by simp
        sequence := fun _ _ => ⟨[], rfl, by simp, by simp⟩
        cursorRows := fun _ => by
          simp only [openTxn_cursor, heq, List.flatten_nil, List.append_nil]; exact hd
        cursorSent := hs
        cursorRuns := by simp
        cursorRefresh := fun _ => ⟨rfl, heq⟩ }

theorem nextGroup_storage {s : State} (h : s.StorageInv) : s.nextGroup.StorageInv := by
  unfold State.nextGroup
  split <;> exact StorageInv_congr h rfl rfl rfl rfl rfl rfl rfl

theorem dirtyRows_nodup (s : State) : s.dirtyRows.Nodup := List.nodup_range.filter _

theorem dirtyRows_clearRows (s : State) (rows : List Nat) :
    (s.markClean rows).dirtyRows = s.dirtyRows.filter fun r => decide (r ∉ rows) := by
  simp only [State.dirtyRows, List.filter_filter, State.isDirty, markClean_dirty, markClean_params,
    getLsbD_clearRows, Bool.and_comm]

/-- Once the rows in progress are sent, the dirty rows are those of the groups still to send. -/
theorem groupSent_dirtyRows {s : State}
    (h : s.dirtyRows = s.cursor.current ++ s.cursor.later.flatten) :
    s.groupSent.dirtyRows = s.cursor.later.flatten := by
  have h1 : s.groupSent.dirtyRows = (s.markClean s.cursor.current).dirtyRows := rfl
  have hn := dirtyRows_nodup s
  rw [h] at hn
  rw [h1, dirtyRows_clearRows, h, List.filter_append]
  have hdis := (List.nodup_append.1 hn).2.2
  rw [List.filter_eq_nil_iff.2 (by simp), List.filter_eq_self.2, List.nil_append]
  intro r hr
  simp only [decide_eq_true_eq]
  exact fun hc => hdis r hc r hr rfl

theorem groupSent_isDirty {s : State} (hs : ∀ r ∈ s.cursor.sent, s.isDirty r = false) :
    ∀ r ∈ s.groupSent.cursor.sent, s.groupSent.isDirty r = false := by
  intro r hr
  simp only [groupSent_cursor, List.mem_append] at hr
  simp only [State.isDirty, groupSent_dirty, getLsbD_clearRows]
  rcases hr with hr | hr
  · have := hs r hr
    simp only [State.isDirty] at this
    simp [this]
  · simp [hr]

/-- Answering the presented request keeps the invariant. -/
theorem onOutcome_inv {s : State} (h : s.Inv) (o : BusOutcome) : (s.onOutcome o).Inv := by
  obtain ⟨hst, hch⟩ := h
  cases hp : s.pending with
  | none => simpa [State.onOutcome, hp] using (⟨hst, hch⟩ : s.Inv)
  | some q =>
    obtain ⟨hcs, hph, hjob⟩ := hch.framed (by simp [hp])
    by_cases hq : q = .deassert
    · subst hq
      rw [onOutcome_deassert _ _ hp]
      have hst' : ((s.logBus .deassert o).closeTxn).StorageInv :=
        StorageInv_congr hst rfl rfl rfl rfl rfl rfl rfl
      have ended : ∀ c, ((((s.logBus .deassert o).closeTxn).endFlush).finish c).Inv := fun c =>
        ⟨StorageInv_congr hst rfl rfl rfl rfl rfl rfl rfl,
          channel_of_quiet (by simp) rfl ⟨rfl, rfl, rfl, rfl, rfl, rfl⟩⟩
      rcases hjob with ⟨hj, hc, hcur⟩ | ⟨hj | hj, hc⟩
      · rw [hj]
        have cleared : ∀ (d : BitVec Config.dirtyBits) (c : ErrCode),
            (∀ r, s.params.height ≤ r → d.getLsbD r = false) → State.Inv
              (State.finish { (s.logBus .deassert o).closeTxn with fb := [], dirty := d } c) :=
          fun d c hd =>
            ⟨{ legal := hst.legal, fbWf := ⟨rising_nil _, by simp⟩, dirtyLt := hd, srcWf := hst.srcWf,
               palWf := hst.palWf, srcLenLe := hst.srcLenLe, palLenLe := hst.palLenLe },
              channel_of_quiet (by simp) rfl ⟨rfl, rfl, rfl, rfl, rfl, hcur⟩⟩
        cases s.txnOutcome o
        · exact cleared _ _ (by simp)
        · refine cleared _ _ fun r hr => ?_
          have : ¬r < s.params.height := by omega
          simp [allRows_get, this]
      · rw [hj]
        cases s.txnOutcome o with
        | err => exact ended _
        | ok =>
          have hrows := hch.cursorRows (Or.inl hj)
          refine ⟨nextGroup_storage { hst' with dirtyLt := clearRows_lt s.cursor.current hst.dirtyLt },
            nextGroup_channel hch.busyErr hc ?_ ?_ (hch.cursorRuns hj).2⟩
          · exact groupSent_dirtyRows (s := (s.logBus .deassert o).closeTxn) hrows
          · exact groupSent_isDirty (s := (s.logBus .deassert o).closeTxn) hch.cursorSent
      · rw [hj]
        cases s.txnOutcome o <;> exact ended _
    · have hf : s.failed = false := by
        by_contra hf
        have := hch.failedLast (by simpa using hf)
        rw [hp] at this
        exact hq (by simpa using this)
      cases o with
      | ok =>
        rw [onOutcome_ok _ _ hp hq]
        unfold State.presentNext
        split
        · rename_i phase b left heq
          have hleft := hch.leftPhases
          simp only [logBus_left] at heq
          rw [heq] at hleft
          exact ⟨StorageInv_congr hst rfl rfl rfl rfl rfl rfl rfl,
            { busyErr := hch.busyErr
              quiet := by simp
              framed := fun _ => ⟨hcs, hleft (phase, b) (by simp), hjob⟩
              leftPhases := fun p hp => hleft p (by simp [hp])
              assertPhase := by simp
              deassertLast := by simp
              failedLast := by simp [hf]
              sequence := fun _ _ => by
                obtain ⟨presented, hseq, -, -⟩ := hch.sequence (by simp [hp]) hf
                refine ⟨presented ++ [(phase, b)], ?_, by simp, by simp⟩
                rw [List.append_assoc, List.singleton_append, ← heq, ← hseq]
                exact txnSeq_congr ⟨rfl, rfl, rfl, rfl, rfl, rfl⟩ rfl rfl
              cursorRows := hch.cursorRows
              cursorSent := hch.cursorSent
              cursorRuns := hch.cursorRuns
              cursorRefresh := hch.cursorRefresh }⟩
        · rename_i heq
          simp only [logBus_left] at heq
          exact ⟨StorageInv_congr hst rfl rfl rfl rfl rfl rfl rfl,
            { busyErr := hch.busyErr
              quiet := by simp
              framed := fun _ => ⟨hcs, hph, hjob⟩
              leftPhases := hch.leftPhases
              assertPhase := by simp
              deassertLast := fun _ => heq
              failedLast := by simp
              sequence := fun _ _ => by
                obtain ⟨presented, hseq, -, -⟩ := hch.sequence (by simp [hp]) hf
                refine ⟨presented, Eq.trans (txnSeq_congr (s := s) ?_ rfl rfl) hseq, by simp, by simp⟩
                exact ⟨rfl, rfl, rfl, rfl, rfl, rfl⟩
              cursorRows := hch.cursorRows
              cursorSent := hch.cursorSent
              cursorRuns := hch.cursorRuns
              cursorRefresh := hch.cursorRefresh }⟩
      | err =>
        rw [onOutcome_err _ _ hp hq]
        exact ⟨StorageInv_congr hst rfl rfl rfl rfl rfl rfl rfl,
          { busyErr := hch.busyErr
            quiet := by simp
            framed := fun _ => ⟨hcs, hph, hjob⟩
            leftPhases := by simp
            assertPhase := by simp
            deassertLast := by simp
            failedLast := by simp
            sequence := by simp
            cursorRows := hch.cursorRows
            cursorSent := hch.cursorSent
            cursorRuns := hch.cursorRuns
            cursorRefresh := hch.cursorRefresh }⟩

/-- A change of the environment's events keeps the invariant. -/
theorem inv_env {s : State} (h : s.Inv) (env : List Event) : State.Inv { s with env := env } :=
  ⟨StorageInv_congr h.storage rfl rfl rfl rfl rfl rfl rfl,
    ChannelInv_congr h.channel rfl rfl rfl rfl rfl rfl rfl rfl rfl rfl
      ⟨rfl, rfl, rfl, rfl, rfl, rfl⟩⟩

/-- Serving answers keeps the invariant. -/
theorem serve_inv (env : List Event) {s : State} (h : s.Inv) : (State.serve env s).Inv := by
  induction env generalizing s with
  | nil => rw [serve_nil]; exact inv_env h _
  | cons e env ih =>
    by_cases he : ∃ o, e = .busDone o
    · obtain ⟨o, rfl⟩ := he
      by_cases hp : s.pending = none
      · rw [serve_quiet _ _ hp]; exact inv_env h _
      · rw [serve_answer _ _ _ hp]; exact ih (onOutcome_inv h o)
    · rw [serve_other _ _ _ (fun o ho => he ⟨o, ho⟩)]; exact inv_env h _

theorem drain_inv {s : State} (h : s.Inv) : s.drain.Inv := serve_inv _ h

/-- CLEAR's start keeps the invariant. -/
theorem beginClear_inv {s : State} (h : s.Inv) (hp : s.pending = none)
    (hc : s.command = some .clear) : s.beginClear.Inv where
  storage := StorageInv_congr h.storage rfl rfl rfl rfl rfl rfl rfl
  channel :=
    have hcur := (h.channel.quiet hp).2.2.2.2.2
    { busyErr := h.channel.busyErr
      quiet := by simp [State.beginClear]
      framed := fun _ => ⟨rfl, by simp [State.beginClear], Or.inl ⟨rfl, hc, hcur⟩⟩
      leftPhases := by simp [State.beginClear, State.clearSeq]
      assertPhase := fun _ => rfl
      deassertLast := by simp [State.beginClear]
      failedLast := by simp [State.beginClear]
      sequence := fun _ _ => ⟨[], rfl, by simp [State.beginClear], by simp [State.beginClear]⟩
      cursorRows := by simp [State.beginClear]
      cursorSent := by simp [State.beginClear, hcur]
      cursorRuns := by simp [State.beginClear]
      cursorRefresh := by simp [State.beginClear] }

/-- FLUSH's start keeps the invariant. -/
theorem beginFlush_inv {s : State} (h : s.Inv) (hc : s.command = some .flush) :
    s.beginFlush.Inv where
  storage := nextGroup_storage (StorageInv_congr h.storage rfl rfl rfl rfl rfl rfl rfl)
  channel := nextGroup_channel
    (s := { s with cursor := ⟨[], [], runs s.dirtyRows s.coalesce⟩ }) h.channel.busyErr hc
    (runs_flatten s.dirtyRows s.coalesce).symm (by simp) (runs_consecutive _ _)

end Sys2Proof.Machine
end

