-- ==== Sys2Proof/Laws/PerInstr.lean ====
section
/-! SUPPORT. Statements made per instruction: the word of a command holds that command's fields. -/

namespace Sys2Proof.Laws.FieldsOfEncode

/-- The fields read from the command word of `i` are those the opcode map gives `i` (R92, R94): no bit of an
operand is dropped or moved by the encoder. -/
def Statement (i : Instr) : Prop := Fields.ofWord (encode i) = i.fields

theorem nop : Statement .nop := ofWord_toWord _

theorem clear : Statement .clear := ofWord_toWord _

theorem flush : Statement .flush := ofWord_toWord _

theorem point (x y : Byte) (color : Bool) : Statement (.point x y color) := ofWord_toWord _

theorem hline (x1 x2 y : Byte) (color : Bool) : Statement (.hline x1 x2 y color) := ofWord_toWord _

theorem vline (x y1 y2 : Byte) (color : Bool) : Statement (.vline x y1 y2 color) := ofWord_toWord _

theorem fill (x1 y1 x2 y2 : Byte) (color : Bool) : Statement (.fill x1 y1 x2 y2 color) :=
  ofWord_toWord _

theorem blit1 (srclsb palq : Bool) (x y count : Byte) (srcoff : BitVec 24) :
    Statement (.blit1 srclsb palq x y count srcoff) := ofWord_toWord _

theorem blit8 (srclsb palq : Bool) (x y count : Byte) (srcoff : BitVec 24) :
    Statement (.blit8 srclsb palq x y count srcoff) := ofWord_toWord _

theorem quant (rgb : Rgb) : Statement (.quant rgb) := ofWord_toWord _

theorem gla (row : Byte) : Statement (.gla row) := ofWord_toWord _

theorem xform (b : Byte) : Statement (.xform b) := ofWord_toWord _

end Sys2Proof.Laws.FieldsOfEncode
end

