-- ==== Sys2Proof/Tests/Slice0.lean ====
section
/-! SUPPORT. Tests with expected results from 95_test_vectors.md (the section is named at each), and for every
statement with hypotheses a state and operands that meet them. -/

namespace Sys2Proof.Tests

open Sys2Proof.Machine

/-! ### Helpers -/

/-- The parameters of this hardware (R8). -/
abbrev hw : Config.Params := Config.thisHardware

/-- The smallest legal implementation: eight columns, one row. -/
abbrev tiny : Config.Params := ⟨8, 1, 0x11, 0x22⟩

/-- The reset state with events to come. -/
def onEnv (env : List Event) : State := { State.reset with env := env }

/-- The state one step from `s` leaves. -/
def stepped (s : State) : Option State :=
  match step s with
  | .next t => some t
  | .fault _ => none
  | .refused _ => none

/-- The state command word `w` leaves when it is the accepted command at `s`. -/
def ran (w : Nat) (s : State) : Option State := stepped (s.withFetchWord 64 w)

/-- Sixteen bytes of a row: those given, then zeros. -/
def row (l : List Byte) : List Byte := l ++ List.replicate (16 - l.length) 0

/-- ERR, row `r` and whether row `r` is dirty after command word `w` at `s`. -/
def drawn (w : Nat) (s : State) (r : Nat) : Option (ErrCode × List Byte × Bool) :=
  (ran w s).map fun t => (t.err, readRow t.params t.fb r, t.isDirty r)

/-- ERR and RESULT after command word `w` at reset. -/
def queried (w : Nat) : Option (ErrCode × Word) := (ran w State.reset).map fun t => (t.err, t.result)

/-- The last word a host read returned. -/
def lastRead (s : State) : Option Word := s.hostLog.head?.map Prod.snd

/-- ERR, the dirty rows and the completed requests, in order, after command word `w` with `os` as answers. -/
def sent (w : Nat) (os : List BusOutcome) (s : State) :
    Option (ErrCode × List Nat × List (BusReq × BusOutcome)) :=
  (ran w { s with env := answers os }).map fun t => (t.err, t.dirtyRows, t.busLog.reverse)

/-- The set-up of section 2.3: SRC = B6 3C FF 00, PAL = black, white, green, red. -/
def blitBase : State :=
  { State.reset with
    src := [(0, 0xB6), (1, 0x3C), (2, 0xFF), (3, 0x00)], srcLen := 4,
    pal := [(0, 0x000000), (1, 0xFFFFFF), (2, 0x00FF00), (3, 0xFF0000)], palLen := 4 }

/-- The same with SRC = B6 01 02 03. -/
def blitBase8 : State := { blitBase with src := [(0, 0xB6), (1, 0x01), (2, 0x02), (3, 0x03)] }

/-! ### Well-formed commands -/

theorem test_blit8_lsb_is_ill_formed : (Instr.blit8 true false 8 5 1 8).wellFormed = false := by decide

/-- Section 2.3: `BLIT.8.LSB 8, 5, 1, 8` raises RSVD. -/
theorem test_blit8_lsb_word_refused : decode 0x0000080001050867 = .error .rsvd := by decide

theorem test_blit8_lsb_line_refused : assemble (.blit 8 true false 8 5 1 8) = none := by decide

/-- A line the hypothesis of `AssemblerFollowsSyntaxTable` holds of. -/
theorem witness_AssemblerFollowsSyntaxTable :
    assemble (.blit 1 true false 5 0 13 3) = some (.blit1 true false 5 0 13 3) := by decide

theorem test_wide_operand_refused : assemble (.point 256 0 1) = none := by decide

theorem test_wide_color_refused : assemble (.point 0 0 2) = none := by decide

/-! ### Decoding: words written out from the tables of 30_encoding.md -/

theorem test_decode_nop : decode 0x0000000000000000 = .ok .nop := by decide

theorem test_decode_clear : decode 0x0000000000000001 = .ok .clear := by decide

theorem test_decode_flush : decode 0x0000000000000002 = .ok .flush := by decide

theorem test_decode_point : decode 0x00000000007F7F13 = .ok (.point 127 127 true) := by decide

theorem test_decode_hline : decode 0x00000000010F0804 = .ok (.hline 8 15 1 false) := by decide

theorem test_decode_vline : decode 0x000000007F007F15 = .ok (.vline 127 0 127 true) := by decide

theorem test_decode_fill : decode 0x0000000306030106 = .ok (.fill 1 3 6 3 false) := by decide

theorem test_decode_blit1 : decode 0x0000100008047807 = .ok (.blit1 false false 120 4 8 16) := by decide

theorem test_decode_blit1_lsb : decode 0x000003000D000547 = .ok (.blit1 true false 5 0 13 3) := by decide

theorem test_decode_blit8 : decode 0x0000080003050827 = .ok (.blit8 false false 8 5 3 8) := by decide

theorem test_decode_blit8_pq : decode 0x00000800030508A7 = .ok (.blit8 false true 8 5 3 8) := by decide

theorem test_decode_quant : decode 0x80807F0000000008 = .ok (.quant 0x80807F) := by decide

theorem test_decode_gla : decode 0x0000000000000509 = .ok (.gla 5) := by decide

theorem test_decode_xform : decode 0x000000000000E00A = .ok (.xform 0xE0) := by decide

/-- Section 2.2: the words the encoder writes. -/
theorem test_encode_words :
    encode (.fill 4 1 11 2 true) = 0x000000020B010416 ∧
      encode (.blit8 false true 8 5 3 8) = 0x00000800030508A7 ∧
      encode (.quant 0x80807F) = 0x80807F0000000008 := by decide

/-- Section 2.9: opcodes 0xB to 0xF, before any reserved bit. -/
theorem test_illegal_words :
    decode 0x000000000000000B = .error .illegalOp ∧ decode 0x000000000000000F = .error .illegalOp ∧
      decode 0xFFFFFFFFFFFFFFFC = .error .illegalOp := by decide

/-- Section 2.9: reserved bits. -/
theorem test_reserved_words :
    [0x10, 0x8000000000000001, 0x0000000005010113, 0x000000010001C813, 0x00000000050A0034,
      0x0000010101000016, 0x1234560000000108, 0x0000000000010309, 0x0000080001050817,
      0x0000080101050807].map decode = List.replicate 10 (.error .rsvd) := by decide +kernel

/-- Sections 2.9 and 2.2: the step records the code of a rejected word. -/
theorem test_step_rejects :
    (ran 0x000000010001C813 State.reset).map (·.err) = some .rsvd ∧
      (ran 0x000000000000000C State.reset).map (·.err) = some .illegalOp := by decide +kernel

/-! ### Row masks (section 2.1) -/

theorem test_rowmask :
    rowmask hw 5 17 = row [0xE0, 0xFF, 0x03] ∧ rowmask hw 7 8 = row [0x80, 0x01] ∧
      rowmask hw 9 30 = row [0x00, 0xFE, 0xFF, 0x7F] ∧ rowmask hw 31 32 = row [0, 0, 0, 0x80, 0x01] ∧
      rowmask hw 127 127 = List.replicate 15 0 ++ [0x80] := by decide +kernel

/-! ### POINT, HLINE, VLINE, FILL (section 2.2) -/

theorem test_point : drawn 0x30A13 State.reset 3 = some (.ok, row [0x00, 0x04], true) := by
  decide +kernel

theorem test_point_out_of_range : drawn 0x8013 State.reset 0 = some (.bounds, row [], false) := by
  decide +kernel

theorem test_hline : drawn 0x110514 State.reset 0 = some (.ok, row [0xE0, 0xFF, 0x03], true) := by
  decide +kernel

theorem test_hline_reversed : drawn 0x20914 State.reset 0 = some (.bounds, row [], false) := by
  decide +kernel

theorem test_vline :
    drawn 0x4020915 State.reset 1 = some (.ok, row [], false) ∧
      drawn 0x4020915 State.reset 2 = some (.ok, row [0x00, 0x02], true) ∧
      drawn 0x4020915 State.reset 4 = some (.ok, row [0x00, 0x02], true) := by decide +kernel

theorem test_fill_clears_inside_only :
    drawn 0x306030106 { State.reset with fb := (List.range 16).map fun k => (48 + k, 0xFF) } 3
      = some (.ok, 0x81 :: List.replicate 15 0xFF, true) := by decide +kernel

theorem test_fill_reversed : drawn 0x403050016 State.reset 5 = some (.bounds, row [], false) := by
  decide +kernel

/-! ### BLIT (section 2.3) -/

theorem test_blit1 :
    drawn 0x000003000D000507 blitBase 0 = some (.ok, row [0xA0, 0xF1], true) ∧
      drawn 0x000003000D000547 blitBase 0 = some (.ok, row [0xC0, 0xF2], true) ∧
      drawn 0x0000030000000507 blitBase 0 = some (.ok, row [], false) ∧
      drawn 0x0000100008047807 blitBase 4 = some (.ok, List.replicate 15 0 ++ [0xFF], true) := by
  decide +kernel

theorem test_blit1_errors :
    [0x0000100008047907, 0x0000000000048007, 0x0000010020000007, 0x0000210000000007].map
        (fun w => (ran w blitBase).map (·.err))
      = [some .bounds, some .bounds, some .srcRange, some .srcRange] ∧
    (ran 0x0000000008000007 { blitBase with palLen := 1 }).map (·.err) = some .palRange := by
  decide +kernel

theorem test_blit8 :
    drawn 0x0000080003050827 blitBase8 5 = some (.ok, row [0x00, 0x03], true) ∧
      drawn 0x00000800030508A7 blitBase8 5 = some (.ok, row [0x00, 0x01], true) := by decide +kernel

theorem test_blit8_errors :
    [0x0000000001050827, 0x0000040001050827, 0x0000080001050867].map
        (fun w => (ran w blitBase8).map (·.err))
      = [some .palRange, some .srcAlign, some .rsvd] ∧
    (ran 0x0000040008047927 { blitBase with palLen := 0 }).map (·.err) = some .bounds := by
  decide +kernel

/-! ### QUANT, GLA, XFORM, NOP (sections 2.4 to 2.6) -/

theorem test_quant : queried 0xFF7A000000000008 = some (.ok, 0x00009401) := by decide +kernel

theorem test_quant_threshold :
    queried 0x8080800000000008 = some (.ok, 0x00008001) ∧
      queried 0x80807F0000000008 = some (.ok, 0x00007F00) := by decide +kernel

theorem test_gla : queried 0x509 = some (.ok, 0x60) ∧ queried 0x7F09 = some (.ok, 0x01) := by
  decide +kernel

theorem test_gla_out_of_range : queried 0x8009 = some (.bounds, 0) := by decide +kernel

theorem test_xform : queried 0xE00A = some (.ok, 0xF8) ∧ queried 0x0A = some (.ok, 0xFF) := by
  decide +kernel

theorem test_nop : (ran 0 State.reset).map (fun t => (t.err, t.eng)) = some (.ok, .idle) := by
  decide +kernel

/-! ### CLEAR and FLUSH (sections 2.7 and 2.8) -/

theorem test_clear :
    sent 1 [.ok, .ok, .ok, .ok] State.reset
      = some (.ok, [], [(.assert, .ok), (.byte 0x20, .ok), (.byte 0x00, .ok), (.deassert, .ok)]) := by
  decide +kernel

theorem test_clear_fails :
    sent 1 [.ok, .err, .ok] State.reset
      = some (.bus, List.range 128, [(.assert, .ok), (.byte 0x20, .err), (.deassert, .ok)]) := by
  decide +kernel

/-- Section 2.7, TRAIL = 0: one clean row of zeros. -/
theorem test_flush_one_row :
    sent 2 (List.replicate 24 .ok) { State.reset with dirty := 1, rowLen := 0, endLen := 0 }
      = some (.ok, [], (.assert, .ok) :: (.byte 0x80, .ok) :: (.byte 0x80, .ok) ::
          List.replicate 16 (.byte 0xFF, .ok) ++ [(.deassert, .ok), (.assert, .ok), (.byte 0x00, .ok),
          (.byte 0x00, .ok), (.deassert, .ok)]) := by decide +kernel

/-- Section 2.8: request 25, the second update's row address, fails. -/
theorem test_flush_fails :
    (sent 2 (List.replicate 24 .ok ++ [.err, .ok]) { State.reset with dirty := 6, coalesce := false }).map
        (fun t => (t.1, t.2.1, t.2.2.drop 22))
      = some (.bus, [2], [(.assert, .ok), (.byte 0x80, .ok), (.byte 0xC0, .err), (.deassert, .ok)]) := by
  decide +kernel

/-- Section 2.8: grouping. -/
theorem test_runs :
    runs [2, 3, 4, 9, 11, 12] true = [[2, 3, 4], [9], [11, 12]] ∧
      runs [2, 3, 4] false = [[2], [3], [4]] := by decide

/-- Section 2.7: programmed bytes, two rows, 36 bytes. -/
theorem test_update_bytes :
    State.updateBytes
        { State.reset with
          opc := 0xAA040201, rowLen := 0, endLen := 1,
          fb := (List.range 16).map (fun k => (16 + k, 0x0F)) ++
            (List.range 16).map fun k => (32 + k, 0xF0) } [1, 2]
      = [0x01, 0x40] ++ List.replicate 16 0x0F ++ [0xC0] ++ List.replicate 16 0xF0 ++ [0xAA] := by
  decide +kernel

/-! ### The host port (section 2.10) -/

theorem test_read_registers :
    [0x000#14, 0x004, 0x008, 0x014, 0x020, 0x028, 0x030].map
        (fun a => (stepped (onEnv [.hostRead a])).bind lastRead)
      = [some 0x01008010, some 0x00000001, some 0, some 0, some 0x00002080, some 0x00000021,
         some 0] := by decide +kernel

theorem test_src_len_clamps :
    (stepped (onEnv [.hostWrite 0x018 5000])).map (fun t => t.srcLen.toNat) = some 4096 := by
  decide +kernel

theorem test_pal_len_clamps :
    (stepped (onEnv [.hostWrite 0x01C 0xFFFFFFFF])).map (fun t => t.palLen.toNat) = some 256 := by
  decide +kernel

theorem test_write_palette :
    (stepped (onEnv [.hostWrite 0x404 0xAB123456])).map (·.palEntry 1) = some 0x123456 := by
  decide +kernel

/-- The low address bits of 0x1003 are ignored. -/
theorem test_write_source :
    (stepped (onEnv [.hostWrite 0x1003 0x88776655])).map (fun t => (List.range 4).map t.srcByte)
      = some [0x55, 0x66, 0x77, 0x88] := by decide +kernel

theorem test_read_framebuffer :
    (stepped { onEnv [.hostRead 0x2014] with
        fb := [(16, 0xFF), (17, 0xFF), (18, 0xFF), (19, 0xFF), (20, 0xFF)] }).bind lastRead
      = some 0x000000FF := by decide +kernel

theorem test_read_dirty :
    (stepped { onEnv [.hostRead 0x040] with dirty := 2 }).bind lastRead = some 2 := by decide +kernel

/-- P1, step 1: the two writes of `CMD 1` and the engine's turn present CLEAR's ASSERT. -/
theorem test_issue_clear :
    ((stepped (onEnv (issue 1 ++ [.engine]))).bind stepped |>.bind stepped).map
        (fun t => (t.busy, t.pending)) = some (true, some .assert) := by decide +kernel

/-! ### Another legal implementation (R8): eight columns, one row -/

/-- R8, R31, R36: ID and OPC after reset. -/
theorem test_tiny_reset :
    [0x000#14, 0x020].map (fun a => (State.resetOf tiny).readTarget (target a))
      = [0x01000101, 0x00002211] := by decide +kernel

/-- R113, R120: its one row has columns 0 to 7. -/
theorem test_tiny_point :
    drawn 0x0713 (State.resetOf tiny) 0 = some (.ok, [0x80], true) ∧
      drawn 0x0813 (State.resetOf tiny) 0 = some (.bounds, [0x00], false) ∧
      drawn 0x10713 (State.resetOf tiny) 0 = some (.bounds, [0x00], false) := by decide +kernel

/-! ### Witnesses -/

theorem reset_legal : State.reset.params.legal := by decide

/-- A state the invariant is known of. -/
def base : State := State.reset.blockReset

/-- `base` after the host has issued a command word: it is accepted and not yet begun. -/
def accepted (w : Cmd) : State :=
  (base.hostWrite 0x010 (w.extractLsb' 0 32)).hostWrite 0x014 (w.extractLsb' 32 32)

theorem accepted_inv (w : Cmd) : (accepted w).Inv :=
  ⟨hostWrite_storage (hostWrite_storage (blockReset_inv reset_legal).storage _ _) _ _,
    hostWrite_channel (hostWrite_channel (blockReset_inv reset_legal).channel _ _) _ _⟩

/-- A FLUSH that waits on its first request. -/
def waiting : State := (accepted 2).beginFlush

theorem waiting_inv : waiting.Inv := beginFlush_inv (accepted_inv 2) (by decide +kernel)

/-- A state with the accepted command word `w` not yet begun, and events to come. -/
def turnAt (w : Cmd) (env : List Event) : State := { State.reset with eng := .exec w, env := env }

/-- `waiting` with events to come. -/
def waitingOn (env : List Event) : State := { waiting with env := env }

/-- A FLUSH accepted and not yet begun, with the rows of `d` dirty and a group for each row. -/
def flushOf (d : BitVec Config.dirtyBits) : State :=
  { State.reset with dirty := d, coalesce := false, eng := .exec 2 }

theorem flushOf_inv {d : BitVec Config.dirtyBits} (hd : d.toNat < 2 ^ 128) : (flushOf d).Inv where
  storage :=
    { (resetOf_inv reset_legal).storage with
      dirtyLt := fun _ hr => Nat.testBit_lt_two_pow (lt_of_lt_of_le hd (Nat.pow_le_pow_right (by omega) hr)) }
  channel := channel_of_quiet (fun _ => rfl) rfl ⟨rfl, rfl, rfl, rfl, rfl, rfl⟩

theorem flushing_inv {d : BitVec Config.dirtyBits} (hd : d.toNat < 2 ^ 128) :
    (flushOf d).beginFlush.Inv := beginFlush_inv (flushOf_inv hd)
  (show State.command { State.reset with eng := .exec 2 } = _ by decide +kernel)

theorem next_of_stepped {s : State} (h : (stepped s).isSome = true) : ∃ t, step s = .next t := by
  unfold stepped at h
  split at h
  · exact ⟨_, by assumption⟩
  · cases h
  · cases h

theorem not_resetNext {s : State} (h : s.env.head? ≠ some .reset) : ¬resetNext s :=
  fun ⟨_, he⟩ => h (by rw [he]; rfl)

theorem witness_DecodeEncodeRoundTrip :
    (Instr.blit8 false true 255 0 255 0xFFFFFF).wellFormed = true := by decide

theorem witness_EncodeDecodeRoundTrip :
    decode 0xFFFFFF00FF00FFA7 = .ok (.blit8 false true 255 0 255 0xFFFFFF) := by decide

/-- The engine's turn in its three forms. -/
theorem witness_engine_turn (w : Cmd) (o : BusOutcome) :
    engineTurn (turnAt w []) w (turnAt w []) ∧
      engineTurn (turnAt w [.busDone o]) w (turnAt w [.busDone o]) ∧
      engineTurn (turnAt w [.engine]) w (turnAt w []) :=
  ⟨⟨rfl, rfl, .inl ⟨.inl rfl, rfl⟩⟩, ⟨rfl, rfl, .inl ⟨.inr ⟨_, _, rfl⟩, rfl⟩⟩,
    ⟨rfl, rfl, .inr ⟨_, rfl, rfl⟩⟩⟩

theorem witness_IllegalOpcodeRejected :
    ((0xB : Cmd).extractLsb' 0 4).toNat ≥ 0xB ∧ ((0xF : Cmd).extractLsb' 0 4).toNat ≥ 0xB := by decide

theorem witness_ReservedBitsRejected :
    ((0x1000A : Cmd).extractLsb' 0 4).toNat ≤ 0xA ∧ decode 0x1000A = .error .rsvd ∧
      decode 0x67 = .error .rsvd := by decide

theorem witness_StepRunsDecodedCommand :
    (engineTurn (turnAt 2 [.busDone .ok]) 2 (turnAt 2 [.busDone .ok]) ∧ decode 2 = .ok .flush) ∧
      (engineTurn (turnAt 0xB [.engine]) 0xB (turnAt 0xB []) ∧ decode 0xB = .error .illegalOp) ∧
      (engineTurn (turnAt 0x67 []) 0x67 (turnAt 0x67 []) ∧ decode 0x67 = .error .rsvd) :=
  ⟨⟨(witness_engine_turn 2 .ok).2.1, by decide⟩, ⟨(witness_engine_turn 0xB .ok).2.2, by decide⟩,
    ⟨(witness_engine_turn 0x67 .ok).1, by decide⟩⟩

theorem witness_CommandAccepted :
    ((onEnv [.hostWrite 0x017 0]).busy = false ∧ (0x017 : HostAddr).toNat / 4 * 4 = 0x014) ∧
      (onEnv [.hostWrite 0x017 0]).env = .hostWrite 0x017 0 :: [] := ⟨by decide, rfl⟩

theorem witness_UnansweredRequestHangs :
    (waitingOn [.engine]).Inv ∧ (waitingOn [.engine]).pending ≠ none ∧
      (∃ t, step (waitingOn [.engine]) = .next t) ∧
      (waitingOn [.engine]).env.head? ≠ some .reset ∧
      noAnswerNext (waitingOn [.engine]).env ∧
      (waitingOn [.reset]).Inv ∧ (waitingOn [.reset]).pending ≠ none ∧
      (waitingOn [.reset]).env.head? = some .reset :=
  ⟨inv_env waiting_inv _, by decide +kernel, next_of_stepped (by decide +kernel), by decide +kernel,
    by simp [waitingOn, noAnswerNext], inv_env waiting_inv _, by decide +kernel, rfl⟩

/-- The host addresses `a` and `b` both lie from `lo` on and below `hi`. -/
abbrev within (lo hi : Nat) (a b : HostAddr) : Prop :=
  (lo ≤ a.toNat ∧ a.toNat < hi) ∧ lo ≤ b.toNat ∧ b.toNat < hi

/-- Guarded targets at the ends of their ranges. -/
theorem witness_GuardedWriteDropped :
    (waitingOn []).busy = true ∧
      ((0x02B : HostAddr).toNat / 4 * 4 ∈ [0x004, 0x010, 0x014, 0x018, 0x01C, 0x020, 0x024, 0x028] ∧
        within 0x400 0x800 0x400 0x7FF ∧ within 0x1000 0x2000 0x1000 0x1FFF) := by decide +kernel

/-- Unguarded read-only targets at the ends of their ranges, and unmapped ones. -/
theorem witness_ReadOnlyWritesIgnored :
    ((0x003 : HostAddr).toNat / 4 * 4 = 0x000 ∧ (0x00F : HostAddr).toNat / 4 * 4 = 0x00C) ∧
    (within 0x02C 0x400 0x02C 0x3FF ∧ within 0x800 0x1000 0x800 0xFFF ∧
      within 0x2000 0x4000 0x2000 0x3FFF) ∧
    (within 0x02C 0x040 0x02C 0x03F ∧ within 0x060 0x400 0x060 0x3FF) ∧
    (onEnv [.hostWrite 0x3FFF 1]).env = .hostWrite 0x3FFF 1 :: [] ∧
    (onEnv [.hostRead 0x03F]).env = .hostRead 0x03F :: [] := by decide +kernel

/-- One address in each register's word. -/
theorem witness_RegisterWritesStore :
    (onEnv [.hostWrite 0x007 1]).env = .hostWrite 0x007 1 :: [] ∧
      (onEnv [.hostWrite 0x007 1]).busy = false ∧
      [0x00B#14, 0x007, 0x010, 0x01B, 0x01C, 0x023, 0x024, 0x02B].map (fun a => a.toNat / 4 * 4)
        = [0x008, 0x004, 0x010, 0x018, 0x01C, 0x020, 0x024, 0x028] := by decide +kernel

/-- The ends of the two windows. -/
theorem witness_WindowWritesStore :
    (onEnv [.hostWrite 0x7FF 1]).env = .hostWrite 0x7FF 1 :: [] ∧
      (onEnv [.hostWrite 0x7FF 1]).busy = false ∧
      within 0x400 0x800 0x400 0x7FF ∧ within 0x1000 0x2000 0x1000 0x1FFF := by decide +kernel

theorem witness_HostReadHasNoSideEffect :
    (waitingOn [.hostRead 0x2000]).env = .hostRead 0x2000 :: [] := rfl

/-- A read of each register's word; STATUS read while a command runs. -/
theorem witness_RegisterReadsReturn :
    (waitingOn [.hostRead 0x00B]).env = .hostRead 0x00B :: [] ∧ (waitingOn []).params.legal ∧
      (stepped (waitingOn [.hostRead 0x00B])).map (·.hostLog.head?) = some (some (0x00B, 1)) ∧
      [0x003#14, 0x004, 0x00B, 0x010, 0x014, 0x01B, 0x01C, 0x023, 0x024, 0x02B].map
          (fun a => a.toNat / 4 * 4)
        = [0x000, 0x004, 0x008, 0x010, 0x014, 0x018, 0x01C, 0x020, 0x024, 0x028] := by decide +kernel

/-- A read of RESULT, and the ends of the windows. -/
theorem witness_WindowReadsReturn :
    (onEnv [.hostRead 0x00F]).env = .hostRead 0x00F :: [] ∧
      (onEnv [.hostRead 0x00F]).busy = false ∧
      (stepped (onEnv [.hostRead 0x00F])).map (·.hostLog.head?) = some (some (0x00F, 0)) ∧
      (0x00F : HostAddr).toNat / 4 * 4 = 0x00C ∧
      within 0x040 0x060 0x040 0x05F ∧ within 0x2000 0x2800 0x2000 0x27FF ∧
      within 0x2800 0x4000 0x2800 0x3FFF ∧ within 0x400 0x800 0x400 0x7FF ∧
      within 0x1000 0x2000 0x1000 0x1FFF := by decide +kernel

theorem witness_ResetRestoresBlock : (waitingOn [.reset]).env = .reset :: [] := rfl

theorem witness_SentBytesReverseAndInvert : 7 < 8 ∧ 15 < State.reset.params.rowBytes := by decide

/-- The highest row of the highest legal panel. -/
theorem witness_GateLineAddressInjective :
    (⟨248, 255, 0, 0⟩ : Config.Params).legal ∧ 254 < (⟨248, 255, 0, 0⟩ : Config.Params).height ∧
      gla 254 = gla 254 := by decide

theorem witness_QuantizerThreshold :
    green 0xFF00FF = 0 ∧ (red 0x00D900 = 0 ∧ blue 0x00D900 = 0) := by decide

theorem witness_GlaWritesResult :
    (127 : Byte).toNat < hw.height ∧ (128 : Byte).toNat ≥ hw.height := by decide

theorem witness_RowmaskBits :
    (hw.legal ∧ 127 ≤ 127 ∧ 127 < hw.width ∧ 0 < hw.width) ∧
      tiny.legal ∧ 0 ≤ 7 ∧ 7 < tiny.width := by decide

theorem witness_ComposeFollowsMask :
    hw.legal ∧ (rowmask hw 5 17).length = hw.rowBytes ∧ 127 < hw.width := by decide +kernel

theorem witness_PointDrawsOnePixel :
    State.reset.params.legal ∧ (127 : Byte).toNat < hw.width ∧ (127 : Byte).toNat < hw.height := by decide

theorem witness_HlineDrawsColumns :
    State.reset.params.legal ∧ (0 : Byte).toNat ≤ (127 : Byte).toNat ∧ (127 : Byte).toNat < hw.width ∧
      (9 : Byte).toNat < hw.height := by decide

theorem witness_VlineDrawsRows :
    State.reset.params.legal ∧ (127 : Byte).toNat < hw.width ∧ (0 : Byte).toNat ≤ (127 : Byte).toNat ∧
      (127 : Byte).toNat < hw.height := by decide

theorem witness_FillDrawsRectangle :
    State.reset.params.legal ∧ (4 : Byte).toNat ≤ (11 : Byte).toNat ∧ (11 : Byte).toNat < hw.width ∧
      (1 : Byte).toNat ≤ (2 : Byte).toNat ∧ (2 : Byte).toNat < hw.height := by decide

theorem witness_PointRoundTrip :
    State.reset.params.legal ∧
      (10 : Byte).toNat < hw.width ∧ (3 : Byte).toNat < hw.height ∧ 9 < hw.width ∧
      9 ≠ (10 : Byte).toNat := by decide

theorem witness_VlineIsPoints :
    (9 : Byte).toNat < hw.width ∧ (2 : Byte).toNat ≤ (4 : Byte).toNat ∧
      (4 : Byte).toNat < hw.height := by decide

theorem witness_FillIsLines :
    (4 : Byte).toNat ≤ (4 : Byte).toNat ∧ (4 : Byte).toNat < hw.width ∧
      (1 : Byte).toNat ≤ (2 : Byte).toNat ∧ (2 : Byte).toNat < hw.height := by decide

/-- Each reason for BOUNDS, at its boundary. -/
theorem witness_BadCoordinatesRejected :
    (128 : Byte).toNat ≥ hw.width ∧ (128 : Byte).toNat ≥ hw.height ∧
      (1 : Byte).toNat > (0 : Byte).toNat := by decide

theorem witness_OverlappingLines :
    let a1 : Byte := 2; let a2 : Byte := 9; let b1 : Byte := 6; let b2 : Byte := 13
    State.reset.params.legal ∧ (a1.toNat ≤ a2.toNat ∧ a2.toNat < hw.width) ∧
      (b1.toNat ≤ b2.toNat ∧ b2.toNat < hw.width) ∧
      (a1.toNat ≤ 9 ∧ 9 ≤ a2.toNat) ∧
      (a1.toNat ≤ 5 ∧ 5 ≤ a2.toNat ∧ ¬(b1.toNat ≤ 5 ∧ 5 ≤ b2.toNat)) := by
  decide

/-- BLIT.1 5, 0, 13, 3 on `blitBase` meets every check of the rules. -/
theorem witness_BlitOneBitCopiesPixels :
    blitBase.params.legal ∧ 5 + 13 ≤ hw.width ∧ 3 + 13 ≤ 8 * blitBase.srcLen.toNat ∧
      ∀ i < 13, ((blitBase.srcByte ((3 + i) / 8)).getLsbD (7 - (3 + i) % 8)).toNat
        < blitBase.palLen.toNat := by decide +kernel

theorem witness_BlitEightBitCopiesPixels :
    blitBase8.params.legal ∧
      8 + 3 ≤ hw.width ∧ 8 % 8 = 0 ∧ 8 + 3 * 8 ≤ 8 * blitBase8.srcLen.toNat ∧
      ∀ i < 3, (blitBase8.srcByte (8 / 8 + i)).toNat < blitBase8.palLen.toNat := by decide +kernel

/-- The errors of BLIT, one clause after the other, each with the checks before it passed. -/
theorem witness_BlitErrorsInOrder :
    121 + 8 > hw.width ∧ 120 + 8 ≤ hw.width ∧
      1 + 32 > 8 * blitBase.srcLen.toNat ∧ 0 + 8 ≤ 8 * blitBase.srcLen.toNat ∧
      ((({ blitBase with palLen := 1 } : State).srcByte ((0 + 0) / 8)).getLsbD (7 - (0 + 0) % 8)).toNat
        ≥ ({ blitBase with palLen := 1 } : State).palLen.toNat ∧
      4 % 8 ≠ 0 ∧ 8 + 4 * 8 > 8 * blitBase8.srcLen.toNat ∧
      0 + 1 * 8 ≤ 8 * blitBase8.srcLen.toNat ∧
      (blitBase8.srcByte (0 / 8 + 0)).toNat ≥ blitBase8.palLen.toNat := by decide +kernel

theorem witness_UpdateByteCount : [5, 6].length = 1 + 1 := rfl

theorem witness_BurstPayloadIdentity : [5, 6][1]? = some 6 := rfl

theorem witness_GroupsAreMaximalRuns :
    [11, 12] ∈ runs [9, 11, 12] true ∧ 0 + 1 < [11, 12].length := by decide

theorem witness_ClearSucceeds :
    (onEnv (answers [.ok, .ok, .ok, .ok])).env = answers [.ok, .ok, .ok, .ok] ++ [] := rfl

/-- A CLEAR that has returned, and one that waits on its second byte. -/
theorem witness_ClearFollowsPseudocode :
    txn [State.reset.opc.extractLsb' 8 8, State.reset.opc.extractLsb' 16 8] [.ok, .err, .ok, .ok]
      = .done .err [(.assert, .ok), (.byte 0x20, .err), (.deassert, .ok)] [.ok] ∧
    txn [State.reset.opc.extractLsb' 8 8, State.reset.opc.extractLsb' 16 8] [.ok, .ok]
      = .waits (.byte 0x00) [] [(.assert, .ok), (.byte 0x20, .ok)] ∧
    noAnswerNext [] := ⟨by decide +kernel, by decide +kernel, by simp [noAnswerNext]⟩

/-- A FLUSH that has returned, and one that waits on the refresh's ASSERT after one row was sent. -/
theorem witness_FlushFollowsPseudocode :
    State.reset.flushGroups (runs State.reset.dirtyRows State.reset.coalesce) State.reset.dirty
        [.err, .ok, .ok]
      = .done (.bus, 0) [(.assert, .err), (.deassert, .ok)] [.ok] ∧
    (flushOf 1).flushGroups (runs (flushOf 1).dirtyRows (flushOf 1).coalesce) (flushOf 1).dirty
        (List.replicate 22 .ok)
      = .waits .assert ([.byte 0, .byte 0], 0) (okFrame ((flushOf 1).updateBytes [0])) ∧
    noAnswerNext [.engine] :=
  ⟨by decide +kernel, by decide +kernel, by simp [noAnswerNext]⟩

/-- CLEAR waits after one answer, and a FLUSH that waits on its ASSERT waits on a byte after one more. -/
theorem witness_AnswersMayComeLater :
    (∃ t, exec .clear { State.reset with env := answers [.ok] } = .next t ∧ t.pending ≠ none) ∧
      waiting.pending ≠ none ∧
      (stepped { waiting with env := answers [.ok] }).map (·.pending) = some (some (.byte 0x00)) :=
  ⟨⟨_, rfl, by decide +kernel⟩, by decide +kernel, by decide +kernel⟩

/-- A FLUSH that presents the opcode of its first update, and one that presents a row byte. -/
theorem witness_BytesSentInTheirPhases :
    (State.serve [.busDone .ok] (flushOf 6).beginFlush).Inv ∧
      (State.serve [.busDone .ok] (flushOf 6).beginFlush).pending = some (.byte 0x80) ∧
      (State.serve (answers [.ok, .ok, .ok]) (flushOf 6).beginFlush).Inv ∧
      (State.serve (answers [.ok, .ok, .ok]) (flushOf 6).beginFlush).pending = some (.byte 0xFF) :=
  ⟨serve_inv _ (flushing_inv (by decide)), by decide +kernel,
    serve_inv _ (flushing_inv (by decide)), by decide +kernel⟩

/-- A FLUSH of one row: 22 requests for the row and 4 for the refresh; and one of no row. -/
theorem witness_FlushSucceeds :
    (flushOf 1).StorageInv ∧
      (flushOf 1).flushRequests (runs (flushOf 1).dirtyRows (flushOf 1).coalesce) = 26 ∧
      (flushOf 0).StorageInv ∧ (flushOf 0).dirty = 0 :=
  ⟨(flushOf_inv (by decide)).storage, by decide +kernel, (flushOf_inv (by decide)).storage, rfl⟩

/-- Two groups: the first is sent, the second fails on its ASSERT; and a refresh that fails. -/
theorem witness_FlushFailureKeepsRows :
    (flushOf 6).StorageInv ∧
      runs (flushOf 6).dirtyRows (flushOf 6).coalesce = [[1]] ++ [2] :: [] ∧
      txn ((flushOf 6).updateBytes [2]) [.err, .ok]
        = .done .err [(.assert, .err), (.deassert, .ok)] [] ∧
      txn [(flushOf 6).nop0, (flushOf 6).nop1] [.ok, .ok, .err, .ok]
        = .done .err [(.assert, .ok), (.byte 0, .ok), (.byte 0, .err), (.deassert, .ok)] [] :=
  ⟨(flushOf_inv (by decide)).storage, by decide +kernel, by decide +kernel, by decide +kernel⟩

theorem witness_StepKeepsFrames :
    (waitingOn [.busDone .ok]).Inv ∧ ¬resetNext (waitingOn [.busDone .ok]) ∧
      ∃ t, step (waitingOn [.busDone .ok]) = .next t :=
  ⟨inv_env waiting_inv _, not_resetNext (by decide +kernel), next_of_stepped (by decide +kernel)⟩

/-- The ends of the legal ranges. -/
theorem witness_ResetHasInvariant :
    tiny.legal ∧ (⟨248, 255, 0, 0⟩ : Config.Params).legal := by decide

theorem witness_StepKeepsInvariant :
    (waitingOn [.busDone .ok]).Inv ∧ ∃ t, step (waitingOn [.busDone .ok]) = .next t :=
  ⟨inv_env waiting_inv _, next_of_stepped (by decide +kernel)⟩

/-- A POINT about to run changes the pixel it names. -/
theorem witness_ChangedRowIsDirty :
    (accepted 0x30A13).Inv ∧ (stepped (accepted 0x30A13)).isSome = true ∧
      (stepped (accepted 0x30A13)).map (fun t => fbBit t.params t.fb 3 10)
        ≠ some (fbBit hw (accepted 0x30A13).fb 3 10) :=
  ⟨accepted_inv _, by decide +kernel, by decide +kernel⟩

theorem witness_OnlyDrawingWritesFramebuffer :
    ¬resetNext (accepted 0x30A13) ∧
      (stepped (accepted 0x30A13)).map (·.fb) = some [(49, 4)] ∧ (accepted 0x30A13).fb = [] ∧
      (stepped (accepted 0x30A13)).map (·.dirty) = some 8 ∧ (accepted 0x30A13).dirty = 0 ∧
      (waitingOn [.hostRead 0x2000]).Inv ∧
      (waitingOn [.hostRead 0x2000]).env.head? = some (.hostRead 0x2000) :=
  ⟨not_resetNext (by decide +kernel), by decide +kernel, by decide +kernel, by decide +kernel,
    by decide +kernel, inv_env waiting_inv _, rfl⟩

/-- A failed CLEAR makes every row dirty: a state from which a successful one clears them. -/
def dirtied : State := State.serve [.busDone .err, .busDone .ok] (accepted 1).beginClear

theorem dirtied_inv : dirtied.Inv :=
  serve_inv _ (beginClear_inv (accepted_inv 1) (by decide +kernel) (by decide +kernel))

/-- `dirtied` after the host has issued CLEAR again. -/
def clearing : State := (dirtied.hostWrite 0x010 1).hostWrite 0x014 0

theorem clearing_inv : clearing.Inv :=
  ⟨hostWrite_storage (hostWrite_storage dirtied_inv.storage _ _) _ _,
    hostWrite_channel (hostWrite_channel dirtied_inv.channel _ _) _ _⟩

/-- A FLUSH of rows 1 and 2 that waits on the DEASSERT of row 1's update. -/
def sending : State := State.serve (answers (List.replicate 21 .ok)) (flushOf 6).beginFlush

theorem sending_inv : sending.Inv := serve_inv _ (flushing_inv (by decide))

/-- A flag cleared in each of the four ways: by a reset; by CLEAR; by the DEASSERT of the update in progress;
by a whole update of a FLUSH that the step begins. -/
theorem witness_DirtyClearedOnlyByTransmission :
    (State.Inv { dirtied with env := [.reset] } ∧ dirtied.isDirty 127 = true ∧
      (stepped { dirtied with env := [.reset] }).map (·.isDirty 127) = some false) ∧
    (State.Inv { clearing with env := answers [.ok, .ok, .ok, .ok] } ∧ clearing.isDirty 127 = true ∧
      (stepped { clearing with env := answers [.ok, .ok, .ok, .ok] }).map (·.isDirty 127)
        = some false) ∧
    (State.Inv { sending with env := answers [.ok] } ∧ sending.pending = some .deassert ∧
      sending.job = .update ∧ sending.cursor.current = [1] ∧ sending.isDirty 1 = true ∧
      (stepped { sending with env := answers [.ok] }).map (·.isDirty 1) = some false) ∧
    (State.Inv { flushOf 6 with env := answers (List.replicate 22 .ok) } ∧ (flushOf 6).isDirty 1 = true ∧
      (flushOf 6).groupsToCome = [[1], [2]] ∧
      (stepped { flushOf 6 with env := answers (List.replicate 22 .ok) }).map (·.isDirty 1)
        = some false) :=
  ⟨⟨inv_env dirtied_inv _, by decide +kernel, by decide +kernel⟩,
    ⟨inv_env clearing_inv _, by decide +kernel, by decide +kernel⟩,
    ⟨inv_env sending_inv _, by decide +kernel, by decide +kernel,
      by decide +kernel, by decide +kernel, by decide +kernel⟩,
    ⟨inv_env (flushOf_inv (by decide)) _, by decide +kernel, by decide +kernel, by decide +kernel⟩⟩

theorem witness_OnlyQueriesWriteResult :
    ¬resetNext (accepted 0x509) ∧ (accepted 0x509).result = 0 ∧
      (stepped (accepted 0x509)).map (·.result) = some 0x60 :=
  ⟨not_resetNext (by decide +kernel), by decide +kernel, by decide +kernel⟩

/-- ERR changed in each of the three ways: by a reset, by the end of a command, by an acceptance. -/
theorem witness_ErrorCodeKept :
    (State.Inv { dirtied with env := [.reset] } ∧ dirtied.err = .bus ∧
      (stepped { dirtied with env := [.reset] }).map (·.err) = some .ok) ∧
    ((accepted 0x8009).Inv ∧ (accepted 0x8009).err = .ok ∧
      (stepped (accepted 0x8009)).map (·.err) = some .bounds) ∧
    (State.Inv { dirtied with env := [.hostWrite 0x017 0] } ∧
      (stepped { dirtied with env := [.hostWrite 0x017 0] }).map (·.err) = some .ok) :=
  ⟨⟨inv_env dirtied_inv _, by decide +kernel, by decide +kernel⟩,
    ⟨accepted_inv _, by decide +kernel, by decide +kernel⟩,
    ⟨inv_env dirtied_inv _, by decide +kernel⟩⟩

theorem witness_IdleBlockKeepsState :
    (onEnv []).busy = false ∧ (onEnv [.engine]).env = .engine :: [] ∧
      (onEnv [.busDone .err]).pending = none ∧ (onEnv [.busDone .err]).env = .busDone .err :: [] := by
  decide +kernel

theorem witness_HostAccessDoesNotDisturbCommand :
    waiting.busy = true ∧ (waiting.hostWrite 0x010 0x13).ovr = true := by decide +kernel

end Sys2Proof.Tests
end

section
/-! ## Every step keeps the invariant

What a step can be is said once (`StepCase`, `step_cases`), and what a command other than CLEAR and FLUSH
leaves (`LocalEffect`, `exec_cases`). The invariant and the parameters then follow case by case from the
laws of the operations. -/

namespace Sys2Proof.Machine

/-! ### What a command can do -/

/-- What a command that makes no bus request leaves of `s`, before it ends with a code: everything
unchanged, or, with code OK, RESULT written by a query, or rows drawn or blitted inside the framebuffer. -/
inductive LocalEffect (i : Instr) (s : State) : ErrCode → State → Prop where
  | unchanged (code : ErrCode) : LocalEffect i s code s
  | result (w : Word) (hi : (∃ rgb, i = .quant rgb) ∨ (∃ row, i = .gla row) ∨ ∃ b, i = .xform b) :
      LocalEffect i s .ok (s.setResult w)
  | rows {mask : List Byte} (color : Bool) {rows : List Nat} (hi : writesFb i = true)
      (hmask : mask.length = s.params.rowBytes) (hrows : ∀ r ∈ rows, r < s.params.height) :
      LocalEffect i s .ok (s.drawRows mask color rows)
  | blit {b : Blit} (hi : writesFb i = true) (hb : s.blitError b = .ok) :
      LocalEffect i s .ok (s.blitRow b)

/-- What a command leaves: CLEAR and FLUSH as far as the answers at hand reach, any other its effect and
its code (R90). -/
inductive Executed (i : Instr) (s : State) : State → Prop where
  | clear (hi : i = .clear) : Executed i s s.beginClear.drain
  | flush (hi : i = .flush) : Executed i s s.beginFlush.drain
  | finished {code : ErrCode} {u : State} (he : LocalEffect i s code u) : Executed i s (u.finish code)

/-- A checked command has its effect, or raises its error and leaves everything unchanged (R114). -/
theorem checked_executed {i : Instr} {s t : State} {code : ErrCode} {effect : State → State}
    (he : code = .ok → LocalEffect i s .ok (effect s)) (h : s.checked code effect = .next t) :
    Executed i s t := by
  by_cases hc : code = .ok
  · subst hc
    cases h
    exact .finished (he rfl)
  · rw [checked_error s code effect hc] at h
    cases h
    exact .finished (.unchanged code)

theorem firstError_bounds_ok {applies : Bool} (h : firstError [(applies, .bounds)] = .ok) :
    applies = false := by
  cases applies
  · rfl
  · cases h

/-- Rows up to `y2` drawn with a row mask, once the bounds have been checked (R110, R113). -/
theorem drawRows_localEffect {i : Instr} {s : State} {x1 x2 y1 y2 : Nat} (color : Bool)
    {rows : List Nat} (hi : writesFb i = true) (hrows : ∀ r ∈ rows, r ≤ y2)
    (hc : firstError [(badColumns s.params x1 x2 || badRows s.params y1 y2, .bounds)] = .ok) :
    LocalEffect i s .ok (s.drawRows (rowmask s.params x1 x2) color rows) := by
  obtain ⟨-, hbad⟩ := Bool.or_eq_false_iff.1 (firstError_bounds_ok hc)
  obtain ⟨-, hy⟩ := badRows_eq_false.1 hbad
  exact .rows color hi (rowmask_length _ _ _) fun r hr => (hrows r hr).trans_lt hy

theorem blit_executed {i : Instr} {s t : State} {b : Blit} (hi : writesFb i = true)
    (h : s.blit b = .next t) : Executed i s t :=
  checked_executed (fun hb => .blit hi hb) h

/-- Everything a command can do. -/
theorem exec_cases {i : Instr} {s t : State} (h : exec i s = .next t) : Executed i s t := by
  cases i with
  | nop => cases h; exact .finished (.unchanged .ok)
  | clear => cases h; exact .clear rfl
  | flush => cases h; exact .flush rfl
  | point x y color =>
    unfold exec execPoint at h
    exact checked_executed (drawRows_localEffect color rfl (by simp)) h
  | hline x1 x2 y color =>
    unfold exec execHline at h
    exact checked_executed (drawRows_localEffect color rfl (by simp)) h
  | vline x y1 y2 color =>
    unfold exec execVline at h
    exact checked_executed (drawRows_localEffect color rfl fun r hr => (mem_rowRange.1 hr).2) h
  | fill x1 y1 x2 y2 color =>
    unfold exec execFill at h
    exact checked_executed (drawRows_localEffect color rfl fun r hr => (mem_rowRange.1 hr).2) h
  | blit1 srclsb palq x y count srcoff => exact blit_executed rfl h
  | blit8 srclsb palq x y count srcoff =>
    cases srclsb with
    | false => exact blit_executed rfl h
    | true => cases h; exact .finished (.unchanged .rsvd)
  | quant rgb => cases h; exact .finished (.result _ (.inl ⟨rgb, rfl⟩))
  | gla row =>
    unfold exec execGla at h
    exact checked_executed (fun _ => .result _ (.inr (.inl ⟨row, rfl⟩))) h
  | xform b => cases h; exact .finished (.result _ (.inr (.inr ⟨b, rfl⟩)))

/-! ### What a step can do -/

/-- Everything a step can do, by the event whose turn it is. -/
inductive StepCase (s : State) : State → Prop where
  | hostRead {a : HostAddr} {env : List Event} (henv : s.env = .hostRead a :: env) :
      StepCase s (State.hostRead { s with env := env } a)
  | hostWrite {a : HostAddr} {w : Word} {env : List Event} (henv : s.env = .hostWrite a w :: env) :
      StepCase s (State.hostWrite { s with env := env } a w)
  | reset {env : List Event} (henv : s.env = .reset :: env) :
      StepCase s (State.blockReset { s with env := env })
  /-- The engine's turn, with no command to begin (R172, R222). -/
  | rests {env : List Event} (henv : s.env = [] ∧ env = [] ∨ s.env = .engine :: env)
      (hrest : s.eng = .idle ∨ s.pending ≠ none) : StepCase s { s with env := env }
  /-- An answer that finds the block idle without a request (log entry 3). -/
  | dropped {o : BusOutcome} {env : List Event} (henv : s.env = .busDone o :: env)
      (hidle : s.eng = .idle) (hquiet : s.pending = none) : StepCase s { s with env := env }
  | answered {o : BusOutcome} {env : List Event} (henv : s.env = .busDone o :: env)
      (hp : s.pending ≠ none) : StepCase s s.drain
  | rejects {w : Cmd} {u : State} {e : DecodeError} (hturn : engineTurn s w u)
      (hdec : decode w = .error e) : StepCase s (u.rejectWord e)
  | executes {w : Cmd} {u t : State} {i : Instr} (hturn : engineTurn s w u) (hdec : decode w = .ok i)
      (hexec : Executed i u t) : StepCase s t

theorem step_of_done {s u : State} (h : s.nextMove = .done u) : step s = .next u := by
  unfold step
  rw [h]

theorem step_of_start {s u : State} {w : Cmd} (h : s.nextMove = .start w u) :
    step s = runCommand w u := by
  unfold step
  rw [h]

/-- The engine begins the accepted command, or has nothing to begin. -/
theorem engineMove_cases (s : State) :
    (∃ w, s.eng = .exec w ∧ s.pending = none ∧ s.engineMove = .start w s) ∨
      ((s.eng = .idle ∨ s.pending ≠ none) ∧ s.engineMove = .done s) := by
  unfold State.engineMove
  cases s.eng <;> cases s.pending <;> simp

/-- An answer lets the engine begin the accepted command, is dropped by an idle block, or is served. -/
theorem answerMove_cases (s : State) :
    (∃ w, s.eng = .exec w ∧ s.pending = none ∧ s.answerMove = .start w s) ∨
      (s.eng = .idle ∧ s.pending = none ∧ s.answerMove = .done { s with env := s.env.tail }) ∨
        (s.pending ≠ none ∧ s.answerMove = .done s.drain) := by
  unfold State.answerMove
  cases s.eng <;> cases s.pending <;> simp

/-- At the engine's turn the accepted word is rejected or its command executed (R90, R96, R97). -/
theorem stepCase_of_start {s t u : State} {w : Cmd} (hturn : engineTurn s w u)
    (hmove : s.nextMove = .start w u) (h : step s = .next t) : StepCase s t := by
  rw [step_of_start hmove, runCommand] at h
  cases hdec : decode w with
  | error e =>
    rw [hdec] at h
    cases h
    exact .rejects hturn hdec
  | ok i =>
    rw [hdec] at h
    exact .executes hturn hdec (exec_cases h)

theorem stepCase_of_done {s t u : State} (hmove : s.nextMove = .done u) (hu : StepCase s u)
    (h : step s = .next t) : StepCase s t := by
  rw [step_of_done hmove] at h
  cases h
  exact hu

/-- Everything a step can do: the cases of `StepCase`. -/
theorem step_cases {s t : State} (h : step s = .next t) : StepCase s t := by
  cases henv : s.env with
  | nil =>
    have hmove : s.nextMove = s.engineMove := by simp only [State.nextMove, henv]
    rcases engineMove_cases s with ⟨w, heng, hp, hm⟩ | ⟨hrest, hm⟩
    · exact stepCase_of_start ⟨heng, hp, .inl ⟨.inl henv, rfl⟩⟩ (hmove.trans hm) h
    · have hs : StepCase s { s with env := s.env } := .rests (.inl ⟨henv, henv⟩) hrest
      exact stepCase_of_done (hmove.trans hm) hs h
  | cons e env =>
    cases e with
    | hostRead a =>
      exact stepCase_of_done (by simp only [State.nextMove, henv]) (.hostRead henv) h
    | hostWrite a w =>
      exact stepCase_of_done (by simp only [State.nextMove, henv]) (.hostWrite henv) h
    | reset => exact stepCase_of_done (by simp only [State.nextMove, henv]) (.reset henv) h
    | engine =>
      have hmove : s.nextMove = State.engineMove { s with env := env } := by
        simp only [State.nextMove, henv]
      rcases engineMove_cases { s with env := env } with ⟨w, heng, hp, hm⟩ | ⟨hrest, hm⟩
      · exact stepCase_of_start ⟨heng, hp, .inr ⟨env, henv, rfl⟩⟩ (hmove.trans hm) h
      · exact stepCase_of_done (hmove.trans hm) (.rests (.inr henv) hrest) h
    | busDone o =>
      have hmove : s.nextMove = s.answerMove := by simp only [State.nextMove, henv]
      rcases answerMove_cases s with ⟨w, heng, hp, hm⟩ | ⟨hidle, hp, hm⟩ | ⟨hp, hm⟩
      · exact stepCase_of_start ⟨heng, hp, .inl ⟨.inr ⟨o, env, henv⟩, rfl⟩⟩ (hmove.trans hm) h
      · rw [henv] at hm
        exact stepCase_of_done (hmove.trans hm) (.dropped henv hidle hp) h
      · exact stepCase_of_done (hmove.trans hm) (.answered henv hp) h

/-- Taking the turn changes nothing but the events to come. -/
theorem engineTurn_eq {s u : State} {w : Cmd} (h : engineTurn s w u) :
    ∃ env, u = { s with env := env } := by
  obtain ⟨-, -, ⟨-, rfl⟩ | ⟨env, -, rfl⟩⟩ := h
  · exact ⟨u.env, rfl⟩
  · exact ⟨env, rfl⟩

/-- A rejected word ends with its error and nothing else (R96, R97). -/
theorem rejectWord_eq_finish (s : State) (e : DecodeError) : ∃ code, s.rejectWord e = s.finish code := by
  cases e
  · exact ⟨.illegalOp, rfl⟩
  · exact ⟨.rsvd, rfl⟩

theorem command_of_decode {s : State} {w : Cmd} {i : Instr} (he : s.eng = .exec w)
    (hd : decode w = .ok i) : s.command = some i := by
  simp only [State.command, he, hd]

/-! ### The parameters stay -/

theorem hostRead_params (s : State) (a : HostAddr) : (s.hostRead a).params = s.params := by
  unfold State.hostRead
  split <;> rfl

theorem writeTarget_params (s : State) (w : Word) (tgt : Target) :
    (s.writeTarget w tgt).params = s.params := by
  cases tgt <;> rfl

theorem hostWrite_params (s : State) (a : HostAddr) (w : Word) :
    (s.hostWrite a w).params = s.params := by
  unfold State.hostWrite
  split
  · rfl
  · exact writeTarget_params s w _

theorem LocalEffect.params_eq {i : Instr} {s u : State} {code : ErrCode}
    (h : LocalEffect i s code u) : u.params = s.params := by
  cases h with
  | unchanged => rfl
  | result => rfl
  | rows => rw [drawRows_eq]
  | blit => rw [blitRow_eq]

theorem presentNext_params (s : State) : s.presentNext.params = s.params := by
  unfold State.presentNext
  split <;> rfl

theorem nextGroup_params (s : State) : s.nextGroup.params = s.params := by
  unfold State.nextGroup
  split <;> rfl

theorem afterTxn_params (s : State) (job : Job) (o : BusOutcome) :
    (s.afterTxn job o).params = s.params := by
  cases job with
  | none => rfl
  | clear => cases o <;> rfl
  | update =>
    cases o with
    | ok => exact nextGroup_params s.groupSent
    | err => rfl
  | refresh => cases o <;> rfl

theorem onOutcome_params (s : State) (o : BusOutcome) : (s.onOutcome o).params = s.params := by
  cases hp : s.pending with
  | none => simp only [State.onOutcome, hp]
  | some q =>
    by_cases hq : q = .deassert
    · rw [onOutcome_deassert s o (hq ▸ hp), afterTxn_params]
      rfl
    · cases o with
      | ok => rw [onOutcome_ok s q hp hq, presentNext_params, logBus_params]
      | err => rw [onOutcome_err s q hp hq, presentAbort_params, logBus_params]

theorem serve_params (env : List Event) (s : State) : (State.serve env s).params = s.params := by
  fun_induction State.serve env s with
  | case1 => rfl
  | case2 s o env q hp ih => rw [ih, onOutcome_params]
  | case3 => rfl

theorem Executed.params_eq {i : Instr} {s t : State} (h : Executed i s t) : t.params = s.params := by
  cases h with
  | clear => exact serve_params _ s.beginClear
  | flush => exact (serve_params _ s.beginFlush).trans (nextGroup_params _)
  | finished he => exact he.params_eq

/-- No step changes the parameters (R5, R8, log entry 7). -/
theorem step_params {s t : State} (h : step s = .next t) : t.params = s.params := by
  cases step_cases h with
  | hostRead => exact hostRead_params _ _
  | hostWrite => exact hostWrite_params _ _ _
  | reset | rests | dropped => rfl
  | answered => exact serve_params _ s
  | rejects hturn =>
    obtain ⟨env, rfl⟩ := engineTurn_eq hturn
    obtain ⟨code, hcode⟩ := rejectWord_eq_finish { s with env := env } _
    rw [hcode]
    rfl
  | executes hturn _ hexec =>
    obtain ⟨env, rfl⟩ := engineTurn_eq hturn
    exact hexec.params_eq

/-! ### The invariant is kept -/

/-- Ending a command with no request presented keeps the invariant. -/
theorem finish_inv {s : State} (h : s.Inv) (hp : s.pending = none) (code : ErrCode) :
    (s.finish code).Inv :=
  ⟨StorageInv_congr h.storage rfl rfl rfl rfl rfl rfl rfl, finish_channel h.channel hp code⟩

theorem LocalEffect.pending_eq {i : Instr} {s u : State} {code : ErrCode}
    (h : LocalEffect i s code u) : u.pending = s.pending := by
  cases h with
  | unchanged => rfl
  | result => rfl
  | rows => rw [drawRows_eq]
  | blit => rw [blitRow_eq]

theorem LocalEffect.keeps_inv {i : Instr} {s u : State} {code : ErrCode} (he : LocalEffect i s code u)
    (h : s.Inv) (hp : s.pending = none) : u.Inv := by
  cases he with
  | unchanged => exact h
  | result w =>
    exact ⟨StorageInv_congr h.storage rfl rfl rfl rfl rfl rfl rfl,
      ChannelInv_keep_quiet h.channel hp h.channel.busyErr rfl rfl rfl rfl rfl rfl rfl⟩
  | rows color _ hmask hrows =>
    exact ⟨drawRows_storage h.storage hmask color hrows, drawRows_channel h.channel hp _ _ _⟩
  | blit _ hb =>
    obtain ⟨-, hy, -⟩ := blitError_ok hb
    exact ⟨blitRow_storage h.storage hy, blitRow_channel h.channel hp _⟩

/-- A command keeps the invariant when it is the accepted one and has not begun. -/
theorem Executed.keeps_inv {i : Instr} {s t : State} (he : Executed i s t) (h : s.Inv)
    (hp : s.pending = none) (hc : s.command = some i) : t.Inv := by
  cases he with
  | clear hi => exact drain_inv (beginClear_inv h hp (hi ▸ hc))
  | flush hi => exact drain_inv (beginFlush_inv h (hi ▸ hc))
  | finished he => exact finish_inv (he.keeps_inv h hp) (he.pending_eq.trans hp) _

/-- Every step keeps the invariant. -/
theorem step_inv {s t : State} (h : s.Inv) (hstep : step s = .next t) : t.Inv := by
  cases step_cases hstep with
  | @hostRead a env =>
    have h' := inv_env h env
    exact ⟨hostRead_storage h'.storage a, hostRead_channel h'.channel a⟩
  | @hostWrite a w env =>
    have h' := inv_env h env
    exact ⟨hostWrite_storage h'.storage a w, hostWrite_channel h'.channel a w⟩
  | reset => exact blockReset_inv (inv_env h _).storage.legal
  | rests | dropped => exact inv_env h _
  | answered => exact drain_inv h
  | rejects hturn =>
    obtain ⟨env, rfl⟩ := engineTurn_eq hturn
    obtain ⟨-, hp, -⟩ := hturn
    obtain ⟨code, hcode⟩ := rejectWord_eq_finish { s with env := env } _
    rw [hcode]
    exact finish_inv (inv_env h env) hp code
  | executes hturn hdec hexec =>
    obtain ⟨env, rfl⟩ := engineTurn_eq hturn
    obtain ⟨heng, hp, -⟩ := hturn
    exact hexec.keeps_inv (inv_env h env) hp (command_of_decode heng hdec)

/-- Settles O53: the cases of a step, each by the laws of its operations. -/
theorem stepKeepsInvariant : Obligations.StepKeepsInvariant :=
  fun _ _ h hstep => ⟨step_inv h hstep, step_params hstep⟩

/-- Settles O52: a quiet block with empty memories, whatever the legal parameters; this hardware's are
legal. -/
theorem resetHasInvariant : Obligations.ResetHasInvariant :=
  ⟨resetOf_inv (by decide), fun _ hp => resetOf_inv hp⟩

end Sys2Proof.Machine
end

section
/-! ## The host port

Where a host address goes (`target_of_register`, `target_pal` and their kind), and from it what a write
stores and a read returns. -/

namespace Sys2Proof.Machine

/-! ### The step of a host access -/

theorem step_hostRead {s : State} {a : HostAddr} {env : List Event} (h : s.env = .hostRead a :: env) :
    step s = .next (State.hostRead { s with env := env } a) :=
  step_of_done (by simp only [State.nextMove, h])

theorem step_hostWrite {s : State} {a : HostAddr} {w : Word} {env : List Event}
    (h : s.env = .hostWrite a w :: env) : step s = .next (State.hostWrite { s with env := env } a w) :=
  step_of_done (by simp only [State.nextMove, h])

/-! ### The address map -/

/-- The two low address bits are ignored (R22, R76). -/
theorem wordAddress_eq (a : HostAddr) : wordAddress a = a.toNat / 4 * 4 := by
  have hmask : a &&& 0x3FFC#14 = a >>> 2 <<< 2 := by
    rw [show 0x3FFC#14 = BitVec.allOnes 14 <<< 2 by decide]
    apply BitVec.eq_of_getLsbD_eq
    intro i hi
    simp only [BitVec.getLsbD_and, BitVec.getLsbD_shiftLeft, BitVec.getLsbD_ushiftRight,
      BitVec.getLsbD_allOnes]
    by_cases h : i < 2
    · simp [h]
    · have h2 : 2 + (i - 2) = i := by omega
      have h3 : i - 2 < 14 := by omega
      simp [hi, h, h2, h3]
  have hlt := a.isLt
  rw [wordAddress, hmask, BitVec.toNat_shiftLeft, BitVec.toNat_ushiftRight, Nat.shiftLeft_eq,
    Nat.shiftRight_eq_div_pow]
  omega

theorem target_eq (a : HostAddr) : target a = targetAt (a.toNat / 4 * 4) := by
  rw [target, wordAddress_eq]

/-- The register at a word offset below 0x040. -/
theorem target_of_register {a : HostAddr} {o : Nat} (h : a.toNat / 4 * 4 = o) (ho : o < 0x040) :
    target a = registerTarget (o / 4) := by
  rw [target_eq, h, targetAt, if_pos ho]

theorem registerTarget_of_ge {n : Nat} (hn : 11 ≤ n) : registerTarget n = .unmapped := by
  obtain ⟨k, rfl⟩ := Nat.exists_eq_add_of_le' hn
  rfl

theorem target_unmapped {a : HostAddr} (h : 0x02C ≤ a.toNat ∧ a.toNat < 0x040 ∨
    0x060 ≤ a.toNat ∧ a.toNat < 0x400 ∨ 0x800 ≤ a.toNat ∧ a.toNat < 0x1000) :
    target a = .unmapped := by
  rw [target_eq, targetAt]
  rcases h with h | h | h
  · rw [if_pos (by omega), registerTarget_of_ge (by omega)]
  · rw [if_neg (by omega), if_neg (by omega), if_pos (by omega)]
  · rw [if_neg (by omega), if_neg (by omega), if_neg (by omega), if_neg (by omega), if_pos (by omega)]

theorem target_dirty {a : HostAddr} (h1 : 0x040 ≤ a.toNat) (h2 : a.toNat < 0x060) :
    target a = .dirty ((a.toNat - 0x040) / 4) := by
  rw [target_eq, targetAt, if_neg (by omega), if_pos (by omega),
    show (a.toNat / 4 * 4 - 0x040) / 4 = (a.toNat - 0x040) / 4 by omega]

theorem target_pal {a : HostAddr} (h1 : 0x400 ≤ a.toNat) (h2 : a.toNat < 0x800) :
    target a = .pal ((a.toNat - 0x400) / 4) := by
  rw [target_eq, targetAt, if_neg (by omega), if_neg (by omega), if_neg (by omega), if_pos (by omega),
    show (a.toNat / 4 * 4 - 0x400) / 4 = (a.toNat - 0x400) / 4 by omega]

theorem target_src {a : HostAddr} (h1 : 0x1000 ≤ a.toNat) (h2 : a.toNat < 0x2000) :
    target a = .src ((a.toNat - 0x1000) / 4) := by
  rw [target_eq, targetAt, if_neg (by omega), if_neg (by omega), if_neg (by omega), if_neg (by omega),
    if_neg (by omega), if_pos (by omega),
    show (a.toNat / 4 * 4 - 0x1000) / 4 = (a.toNat - 0x1000) / 4 by omega]

theorem target_fb {a : HostAddr} (h : 0x2000 ≤ a.toNat) : target a = .fb ((a.toNat - 0x2000) / 4) := by
  rw [target_eq, targetAt, if_neg (by omega), if_neg (by omega), if_neg (by omega), if_neg (by omega),
    if_neg (by omega), if_neg (by omega),
    show (a.toNat / 4 * 4 - 0x2000) / 4 = (a.toNat - 0x2000) / 4 by omega]

/-! ### Writes -/

/-- A write that is not guarded, or finds the block idle, is not dropped (R25, R240). -/
theorem step_hostWrite_kept {s : State} {a : HostAddr} {w : Word} {env : List Event} {tgt : Target}
    (henv : s.env = .hostWrite a w :: env) (ht : target a = tgt)
    (hkept : s.busy = false ∨ tgt.guarded = false) :
    step s = .next (State.writeTarget { s with env := env } w tgt) := by
  have hdrop : ¬(State.busy { s with env := env } && tgt.guarded) = true := by
    rcases hkept with h | h
    · rw [show State.busy { s with env := env } = false from h]; simp
    · rw [h]; simp
  rw [step_hostWrite henv, State.hostWrite, ht, if_neg hdrop]

/-- Settles O8: CMD_HI's write is an acceptance. -/
theorem commandAccepted : Obligations.CommandAccepted := by
  intro s a w env henv hbusy ha
  exact ⟨_, step_hostWrite_kept henv (target_of_register ha (by decide)) (.inl hbusy), rfl, rfl⟩

/-- A target that no write changes (R41). -/
inductive Target.ReadOnly : Target → Prop where
  | id : ReadOnly .id
  | result : ReadOnly .result
  | dirty (j : Nat) : ReadOnly (.dirty j)
  | fb (k : Nat) : ReadOnly (.fb k)
  | unmapped : ReadOnly .unmapped

theorem Target.ReadOnly.not_guarded {tgt : Target} (h : tgt.ReadOnly) : tgt.guarded = false := by
  cases h <;> rfl

theorem Target.ReadOnly.writeTarget_eq {tgt : Target} (h : tgt.ReadOnly) (s : State) (w : Word) :
    s.writeTarget w tgt = s := by
  cases h <;> rfl

/-- The read-only and unmapped ranges of the address map (R25). -/
theorem target_readOnly {a : HostAddr}
    (h : a.toNat / 4 * 4 = 0x000 ∨ a.toNat / 4 * 4 = 0x00C ∨ 0x02C ≤ a.toNat ∧ a.toNat < 0x400 ∨
      0x800 ≤ a.toNat ∧ a.toNat < 0x1000 ∨ 0x2000 ≤ a.toNat) : (target a).ReadOnly := by
  rcases h with h | h | h | h | h
  · rw [target_of_register h (by decide)]; exact .id
  · rw [target_of_register h (by decide)]; exact .result
  · by_cases hd : 0x040 ≤ a.toNat ∧ a.toNat < 0x060
    · rw [target_dirty hd.1 hd.2]; exact .dirty _
    · rw [target_unmapped (by omega)]; exact .unmapped
  · rw [target_unmapped (.inr (.inr h))]; exact .unmapped
  · rw [target_fb h]; exact .fb _

/-- Settles O12: such a write has a read-only target; an unmapped target reads 0. -/
theorem readOnlyWritesIgnored : Obligations.ReadOnlyWritesIgnored := by
  intro s a env ha
  refine ⟨fun w henv => ?_, fun henv hun => ?_⟩
  · have hro := target_readOnly ha
    rw [step_hostWrite_kept henv rfl (.inr hro.not_guarded), hro.writeTarget_eq]
  · rw [step_hostRead henv, State.hostRead, target_unmapped hun,
      if_neg (by simp [Target.busyUnspecified])]
    rfl

/-- A length register stores the smaller of the word and its limit (R34, R35). -/
theorem toNat_ofNat_min {n size x : Nat} (hs : size < 2 ^ n) :
    (BitVec.ofNat n (min x size)).toNat = min x size := by
  rw [BitVec.toNat_ofNat, Nat.mod_eq_of_lt (by omega)]

/-- Settles O13: each register's write, by its target. -/
theorem registerWritesStore : Obligations.RegisterWritesStore := by
  intro s a w env henv
  refine ⟨fun ha => ?_, fun hbusy => ?_⟩
  · rw [step_hostWrite_kept henv (target_of_register ha (by decide)) (.inr rfl)]
    have hovr : (if w.getLsbD 8 then false else s.ovr) = (s.ovr && !w.getLsbD 8) := by
      cases w.getLsbD 8 <;> simp
    rw [hovr]
    rfl
  · have kept : ∀ {o : Nat}, a.toNat / 4 * 4 = o → o < 0x040 →
        step s = .next (State.writeTarget { s with env := env } w (registerTarget (o / 4))) :=
      fun ha ho => step_hostWrite_kept henv (target_of_register ha ho) (.inl hbusy)
    refine ⟨fun ha => kept ha (by decide), fun ha => kept ha (by decide), fun ha => ?_, fun ha => ?_,
      fun ha => kept ha (by decide), fun ha => ?_, fun ha => kept ha (by decide)⟩
    · exact ⟨_, toNat_ofNat_min (by decide), kept ha (by decide)⟩
    · exact ⟨_, toNat_ofNat_min (by decide), kept ha (by decide)⟩
    · rw [BitVec.setWidth_eq_extractLsb' (by decide)]
      exact kept ha (by decide)

theorem palEntry_writePalWord (s : State) (i : Nat) (w : Word) (j : Nat) :
    (s.writePalWord i w).palEntry j = if j = i then w.setWidth 24 else s.palEntry j := by
  rw [State.palEntry, State.writePalWord, find_put, BitVec.setWidth_eq_extractLsb' (by decide)]
  split <;> rfl

/-- A SRCBUF word stores its four bytes at their addresses (R39, R71). -/
theorem srcByte_writeSrcWord (s : State) (k : Nat) (w : Word) (j : Nat) :
    (s.writeSrcWord k w).srcByte j
      = if j / 4 = k then w.extractLsb' (8 * (j % 4)) 8 else s.srcByte j := by
  simp only [State.srcByte, State.writeSrcWord, find_put, byteOfWord]
  by_cases hk : j / 4 = k
  · have hj : j = 4 * k + j % 4 := by omega
    have hlt : j % 4 < 4 := Nat.mod_lt _ (by decide)
    rw [if_pos hk]
    generalize j % 4 = n at hj hlt
    subst hj
    interval_cases n <;> simp
  · rw [if_neg hk, if_neg (by omega), if_neg (by omega), if_neg (by omega), if_neg (by omega)]

/-- Settles O14: the two windows' writes, by what they store. -/
theorem windowWritesStore : Obligations.WindowWritesStore := by
  intro s a w env henv hbusy
  refine ⟨fun h1 h2 => ?_, fun h1 h2 => ?_⟩
  · exact ⟨_, step_hostWrite_kept henv (target_pal h1 h2) (.inl hbusy), palEntry_writePalWord s _ w⟩
  · exact ⟨_, step_hostWrite_kept henv (target_src h1 h2) (.inl hbusy), srcByte_writeSrcWord s _ w⟩

/-! ### Reads -/

/-- A read that is not unspecified, or finds the block idle, returns the current value (R22, R241). -/
theorem hostRead_returns {s : State} {a : HostAddr} {env : List Event} {w : Word} {tgt : Target}
    (hw : (State.hostRead { s with env := env } a).hostLog.head? = some (a, w)) (ht : target a = tgt)
    (hspec : s.busy = false ∨ tgt.busyUnspecified = false) : w = s.readTarget tgt := by
  have hfree : ¬(State.busy { s with env := env } && tgt.busyUnspecified) = true := by
    rcases hspec with h | h
    · rw [show State.busy { s with env := env } = false from h]; simp
    · rw [h]; simp
  rw [State.hostRead, ht, if_neg hfree] at hw
  have hlogged : (a, State.readTarget { s with env := env } tgt) = (a, w) := Option.some.inj hw
  rw [← (Prod.mk.inj hlogged).2]
  cases tgt <;> rfl

/-- Fields side by side as a number. -/
theorem toNat_append_eq {m n : Nat} (x : BitVec m) (y : BitVec n) :
    (x ++ y).toNat = x.toNat * 2 ^ n + y.toNat := by
  rw [BitVec.toNat_append, ← Nat.shiftLeft_add_eq_or_of_lt y.isLt, Nat.shiftLeft_eq]

/-- Reserved bits above a field read 0 (R41). -/
theorem toNat_setWidth_of_le {m n : Nat} (h : m ≤ n) (x : BitVec m) : (x.setWidth n).toNat = x.toNat := by
  rw [BitVec.toNat_setWidth, Nat.mod_eq_of_lt (x.isLt.trans_le (Nat.pow_le_pow_right (by decide) h))]

theorem idWord_toNat {p : Config.Params} (hp : p.legal) :
    (idWord p).toNat = p.rowBytes + p.height * 2 ^ 8 + 1 * 2 ^ 24 := by
  have hrow := rowBytes_mul hp
  obtain ⟨-, -, hwidth, -, hheight⟩ := hp
  have hrev : Config.revision.toNat = 1 := rfl
  simp only [idWord, hrev, toNat_append_eq, BitVec.toNat_ofNat]
  omega

theorem status_toNat (s : State) :
    s.status.toNat = s.busy.toNat + s.err.code.toNat * 2 ^ 4 + s.ovr.toNat * 2 ^ 8 := by
  rw [State.status, toNat_setWidth_of_le (by decide)]
  simp only [toNat_append_eq, BitVec.toNat_ofBool, BitVec.toNat_ofNat]
  omega

theorem trail_toNat (s : State) : s.trail.toNat = s.rowLen.toNat + s.endLen.toNat * 2 ^ 4 := by
  rw [State.trail, toNat_setWidth_of_le (by decide)]
  simp only [toNat_append_eq, BitVec.toNat_ofNat]
  omega

/-- Settles O16: each register's word, by its target. -/
theorem registerReadsReturn : Obligations.RegisterReadsReturn := by
  intro s a env henv
  refine ⟨_, step_hostRead henv, fun w hw => ?_⟩
  have read : ∀ {o : Nat}, a.toNat / 4 * 4 = o → o < 0x040 →
      (registerTarget (o / 4)).busyUnspecified = false → w = s.readTarget (registerTarget (o / 4)) :=
    fun ha ho hspec => hostRead_returns hw (target_of_register ha ho) (.inr hspec)
  refine ⟨fun ha hp => ?_, fun ha => ?_, fun ha => ?_, fun ha => ?_, fun ha => ?_, fun ha => ?_,
    fun ha => ?_, fun ha => ?_, fun ha => ?_, fun ha => ?_⟩ <;> rw [read ha (by decide) rfl]
  · exact idWord_toNat hp
  · exact (toNat_setWidth_of_le (by decide) _).trans (BitVec.toNat_ofBool _)
  · exact status_toNat s
  · rfl
  · rfl
  · exact toNat_setWidth_of_le (by decide) _
  · exact toNat_setWidth_of_le (by decide) _
  · rfl
  · exact toNat_setWidth_of_le (by decide) _
  · exact trail_toNat s

/-- Bit `i` of a DIRTY word below bit 32 is the flag of its row, if there is such a row (R37). -/
theorem dirtyWord_bit (s : State) {j i : Nat} (hj : j < 8) (hi : i < 32) :
    (s.dirtyWord j).getLsbD i = (decide (32 * j + i < s.params.height) && s.isDirty (32 * j + i)) := by
  have hrow : 32 * j + i < Config.dirtyBits := show _ < 256 by omega
  rw [State.dirtyWord, BitVec.getLsbD_setWidth, BitVec.getLsbD_ushiftRight, BitVec.getLsbD_and, allRows_get,
    State.isDirty]
  simp only [hi, hrow, decide_true, Bool.true_and]
  exact Bool.and_comm _ _

/-- Byte `n` of a word made of bytes (R71). -/
theorem wordOfBytes_byte (byte : Nat → Byte) {n : Nat} (hn : n < 4) :
    (wordOfBytes byte).extractLsb' (8 * n) 8 = byte n := by
  unfold wordOfBytes
  interval_cases n
  · rw [BitVec.extractLsb'_append_eq_of_add_le (by decide), BitVec.extractLsb'_eq_self]
  · rw [BitVec.extractLsb'_append_eq_of_le (by decide), BitVec.extractLsb'_append_eq_of_add_le (by decide),
      BitVec.extractLsb'_eq_self]
  · rw [BitVec.extractLsb'_append_eq_of_le (by decide), BitVec.extractLsb'_append_eq_of_le (by decide),
      BitVec.extractLsb'_append_eq_of_add_le (by decide), BitVec.extractLsb'_eq_self]
  · rw [BitVec.extractLsb'_append_eq_of_le (by decide), BitVec.extractLsb'_append_eq_of_le (by decide),
      BitVec.extractLsb'_append_eq_left]

theorem wordOfBytes_bit (byte : Nat → Byte) {i : Nat} (hi : i < 32) :
    (wordOfBytes byte).getLsbD i = (byte (i / 8)).getLsbD (i % 8) := by
  rw [← wordOfBytes_byte byte (show i / 8 < 4 by omega), BitVec.getLsbD_extractLsb', Nat.div_add_mod]
  simp [Nat.mod_lt]

/-- A byte of the FB window holds eight pixels of a row, where there is such a row (R40, R42). -/
theorem fbWindowByte_bit (s : State) (o : Nat) {b : Nat} (hb : b < 8) :
    (s.fbWindowByte o).getLsbD b = (decide (o < s.params.height * s.params.rowBytes)
      && fbBit s.params s.fb (o / s.params.rowBytes) (8 * (o % s.params.rowBytes) + b)) := by
  have hbyte : (8 * (o % s.params.rowBytes) + b) / 8 = o % s.params.rowBytes := by omega
  have hbit : (8 * (o % s.params.rowBytes) + b) % 8 = b := by omega
  have haddr : fbOffset s.params (o / s.params.rowBytes) (o % s.params.rowBytes) = o := Nat.div_add_mod' o _
  rw [State.fbWindowByte, fbBit, hbyte, hbit, haddr]
  split
  · simp [*]
  · simp [*]

/-- Settles O17: each window's word, by its target. -/
theorem windowReadsReturn : Obligations.WindowReadsReturn := by
  intro s a env henv
  refine ⟨_, step_hostRead henv, fun w hw => ?_⟩
  refine ⟨fun hbusy ha => ?_, fun hbusy h1 h2 i hi => ?_, fun hbusy h i hi => ?_, fun h1 h2 => ?_,
    fun h1 h2 n hn => ?_⟩
  · exact hostRead_returns hw (target_of_register ha (by decide)) (.inl hbusy)
  · rw [hostRead_returns hw (target_dirty h1 h2) (.inl hbusy)]
    exact dirtyWord_bit s (by omega) hi
  · rw [hostRead_returns hw (target_fb h) (.inl hbusy), State.readTarget, wordOfBytes_bit _ hi,
      fbWindowByte_bit s _ (Nat.mod_lt _ (by decide)), Nat.mul_comm 4]
  · rw [hostRead_returns hw (target_pal h1 h2) (.inr rfl)]
    exact toNat_setWidth_of_le (by decide) _
  · rw [hostRead_returns hw (target_src h1 h2) (.inr rfl)]
    exact wordOfBytes_byte (fun n => s.srcByte (4 * ((a.toNat - 0x1000) / 4) + n)) hn

end Sys2Proof.Machine
end

section
/-! ## What writes FB, DIRTY and RESULT

What a step can do to FB and DIRTY is said once (`DisplayCase`, `step_display`), from what a CLEAR and a
FLUSH do while they are served (`ClearServed`, `FlushServed`) and what every other command leaves
(`LocalEffect`). RESULT is kept by all but the queries' effect. -/

namespace Sys2Proof.Machine

/-! ### Host accesses -/

/-- FB, DIRTY and RESULT of `t` are those of `s`. -/
structure State.sameDisplay (s t : State) : Prop where
  fb : t.fb = s.fb
  dirty : t.dirty = s.dirty
  result : t.result = s.result

/-- No host read writes FB, DIRTY or RESULT (R79). -/
theorem hostRead_display (s : State) (a : HostAddr) : s.sameDisplay (s.hostRead a) := by
  unfold State.hostRead
  split <;> exact ⟨rfl, rfl, rfl⟩

/-- No host write writes FB, DIRTY or RESULT (R41, R44). -/
theorem hostWrite_display (s : State) (a : HostAddr) (w : Word) : s.sameDisplay (s.hostWrite a w) := by
  unfold State.hostWrite
  split
  · exact ⟨rfl, rfl, rfl⟩
  · cases target a <;> exact ⟨rfl, rfl, rfl⟩

/-! ### Commands that make no bus request -/

theorem row_lt_dirtyBits {p : Config.Params} (hp : p.legal) {r : Nat} (hr : r < p.height) :
    r < Config.dirtyBits := by
  obtain ⟨-, -, -, -, hheight⟩ := hp
  exact hr.trans_le (hheight.trans (by decide))

theorem isDirty_setRows {d : BitVec Config.dirtyBits} {rows : List Nat} {r : Nat}
    (hr : r < Config.dirtyBits) (hmem : r ∈ rows) : (setRows d rows).getLsbD r = true := by
  simp [getLsbD_setRows, hr, hmem]

/-- A pixel outside the rows composed is unchanged. -/
theorem fbBit_composeRows_outside {p : Config.Params} (hp : p.legal) (m : Memory) {mask : List Byte}
    (hm : mask.length = p.rowBytes) (color : Bool) {rows : List Nat} {r c : Nat} (hc : c < p.width)
    (hr : r ∉ rows) :
    fbBit p (rows.foldl (fun m r => compose p m r mask color) m) r c = fbBit p m r c := by
  have hk := column_byte hp hc
  have hrow : fbOffset p r (c / 8) / p.rowBytes = r := by
    unfold fbOffset
    rw [Nat.add_comm, Nat.add_mul_div_right _ _ (by omega), Nat.div_eq_of_lt hk, Nat.zero_add]
  unfold fbBit
  rw [fbRead_composeRows_outside p m mask color hm rows _ (hrow.symm ▸ hr)]

/-- A row in which a drawing command changes a pixel is dirty afterwards (R112, R141). -/
theorem LocalEffect.isDirty_of_changed {i : Instr} {s u : State} {code : ErrCode}
    (h : LocalEffect i s code u) (hp : s.params.legal) {r c : Nat} (hr : r < s.params.height)
    (hc : c < s.params.width) (hne : fbBit s.params u.fb r c ≠ fbBit s.params s.fb r c) :
    u.isDirty r = true := by
  have hlt := row_lt_dirtyBits hp hr
  cases h with
  | unchanged => exact absurd rfl hne
  | result => exact absurd rfl hne
  | @rows mask color rows _ hmask _ =>
    rw [drawRows_eq] at hne ⊢
    have hmem : r ∈ rows := by
      by_contra hout
      exact hne (fbBit_composeRows_outside hp s.fb hmask color hc hout)
    exact isDirty_setRows hlt hmem
  | @blit b _ _ =>
    rw [fbBit_blitRow b s r c hp hc] at hne
    have hin : r = b.y ∧ b.x ≤ c ∧ c < b.x + b.n := by
      by_contra hout
      exact hne (if_neg hout)
    obtain ⟨rfl, hx, hn⟩ := hin
    have hpos : b.n > 0 := by omega
    rw [blitRow_eq]
    simp only [State.isDirty, if_pos hpos]
    exact isDirty_setRows hlt (by simp)

/-- No such command clears a DIRTY flag (R44). -/
theorem LocalEffect.isDirty_of_isDirty {i : Instr} {s u : State} {code : ErrCode}
    (h : LocalEffect i s code u) {r : Nat} (hr : s.isDirty r = true) : u.isDirty r = true := by
  have hset : ∀ rows : List Nat, (setRows s.dirty rows).getLsbD r = true := fun rows => by
    rw [getLsbD_setRows, show s.dirty.getLsbD r = true from hr, Bool.true_or]
  cases h with
  | unchanged => exact hr
  | result => exact hr
  | rows => rw [drawRows_eq]; exact hset _
  | blit =>
    rw [blitRow_eq]
    simp only [State.isDirty]
    split
    · exact hset _
    · exact hr

/-- Only a drawing command writes FB or DIRTY (R44). -/
theorem LocalEffect.writesFb_of_changed {i : Instr} {s u : State} {code : ErrCode}
    (h : LocalEffect i s code u) (hne : u.fb ≠ s.fb ∨ u.dirty ≠ s.dirty) : writesFb i = true := by
  cases h with
  | unchanged => simp at hne
  | result => simp at hne
  | rows _ hw => exact hw
  | blit hw => exact hw

/-- Only a query that ends with code OK writes RESULT (R28). -/
theorem LocalEffect.query_of_result_ne {i : Instr} {s u : State} {code : ErrCode}
    (h : LocalEffect i s code u) (hne : u.result ≠ s.result) :
    code = .ok ∧ ((∃ rgb, i = .quant rgb) ∨ (∃ row, i = .gla row) ∨ ∃ b, i = .xform b) := by
  cases h with
  | unchanged => exact absurd rfl hne
  | result w hi => exact ⟨rfl, hi⟩
  | rows => rw [drawRows_eq] at hne; exact absurd rfl hne
  | blit => rw [blitRow_eq] at hne; exact absurd rfl hne

/-! ### Answering one request -/

/-- Everything an answer to a presented request can do (R173). -/
inductive AnswerCase (s : State) : BusOutcome → State → Prop where
  | goesOn {q : BusReq} (hp : s.pending = some q) (hq : q ≠ .deassert) :
      AnswerCase s .ok (s.logBus q .ok).presentNext
  | aborts {q : BusReq} (hp : s.pending = some q) (hq : q ≠ .deassert) :
      AnswerCase s .err (s.logBus q .err).presentAbort
  | closes (o : BusOutcome) (hp : s.pending = some .deassert) :
      AnswerCase s o ((s.logBus .deassert o).closeTxn.afterTxn s.job (s.txnOutcome o))

theorem onOutcome_cases {s : State} {q : BusReq} (hp : s.pending = some q) (o : BusOutcome) :
    AnswerCase s o (s.onOutcome o) := by
  by_cases hq : q = .deassert
  · subst hq
    rw [onOutcome_deassert s o hp]
    exact .closes o hp
  · cases o with
    | ok => rw [onOutcome_ok s q hp hq]; exact .goesOn hp hq
    | err => rw [onOutcome_err s q hp hq]; exact .aborts hp hq

/-- What presenting the next request of a transaction, or aborting it, leaves as it is. -/
structure State.sameCommand (s t : State) : Prop extends s.sameWire t where
  dirty : s.dirty = t.dirty
  result : s.result = t.result
  busLog : s.busLog = t.busLog
  job : s.job = t.job
  cursor : s.cursor = t.cursor

theorem presentNext_sameCommand (s : State) : s.presentNext.sameCommand s := by
  unfold State.presentNext
  split <;> exact ⟨⟨rfl, rfl, rfl, rfl, rfl, rfl⟩, rfl, rfl, rfl, rfl, rfl⟩

theorem presentNext_failed (s : State) : s.presentNext.failed = s.failed := by
  unfold State.presentNext
  split <;> rfl

theorem presentAbort_sameCommand (s : State) : s.presentAbort.sameCommand s :=
  ⟨⟨rfl, rfl, rfl, rfl, rfl, rfl⟩, rfl, rfl, rfl, rfl, rfl⟩

theorem nextGroup_of_nil {s : State} (h : s.cursor.later = []) :
    s.nextGroup
      = State.openTxn { s with cursor := ⟨s.cursor.sent, [], []⟩ } .refresh s.refreshSeq := by
  simp only [State.nextGroup, h]

theorem nextGroup_of_cons {s : State} {g : List Nat} {groups : List (List Nat)}
    (h : s.cursor.later = g :: groups) :
    s.nextGroup
      = State.openTxn { s with cursor := ⟨s.cursor.sent, g, groups⟩ } .update (s.updateSeq g) := by
  simp only [State.nextGroup, h]

theorem nextGroup_sameWire (s : State) : s.nextGroup.sameWire s := by
  unfold State.nextGroup
  split <;> exact ⟨rfl, rfl, rfl, rfl, rfl, rfl⟩

theorem nextGroup_dirty (s : State) : s.nextGroup.dirty = s.dirty := by
  unfold State.nextGroup
  split <;> rfl

theorem nextGroup_result (s : State) : s.nextGroup.result = s.result := by
  unfold State.nextGroup
  split <;> rfl

theorem nextGroup_busLog (s : State) : s.nextGroup.busLog = s.busLog := by
  unfold State.nextGroup
  split <;> rfl

theorem nextGroup_job_ne_clear (s : State) : s.nextGroup.job ≠ .clear := by
  unfold State.nextGroup
  split <;> simp

theorem nextGroup_later_subset (s : State) : ∀ g ∈ s.nextGroup.cursor.later, g ∈ s.cursor.later := by
  unfold State.nextGroup
  split
  · rename_i rows later heq
    intro g hg
    rw [heq]
    exact List.mem_cons_of_mem rows hg
  · exact fun _ hg => hg

/-! ### Serving: RESULT -/

theorem afterTxn_result (s : State) (job : Job) (o : BusOutcome) :
    (s.afterTxn job o).result = s.result := by
  cases job with
  | none => rfl
  | clear => cases o <;> rfl
  | update =>
    cases o with
    | ok => exact nextGroup_result s.groupSent
    | err => rfl
  | refresh => cases o <;> rfl

theorem onOutcome_result {s : State} {q : BusReq} (hp : s.pending = some q) (o : BusOutcome) :
    (s.onOutcome o).result = s.result := by
  have hcase := onOutcome_cases hp o
  generalize s.onOutcome o = u at hcase ⊢
  cases hcase with
  | goesOn => exact (presentNext_sameCommand _).result
  | aborts => rfl
  | closes => exact afterTxn_result _ _ _

/-- No bus answer writes RESULT (R28). -/
theorem serve_result (env : List Event) (s : State) : (State.serve env s).result = s.result := by
  fun_induction State.serve env s with
  | case1 => rfl
  | case2 o env s q hp ih => rw [ih, onOutcome_result hp]
  | case3 => rfl

/-! ### Serving: CLEAR -/

/-- What serving does to FB and DIRTY while a CLEAR of `s` is in progress: nothing until the command ends;
then FB is zero, and DIRTY is zero on success and full on failure (R179). -/
inductive ClearServed (s t : State) : Prop where
  | inProgress (hfb : t.fb = s.fb) (hdirty : t.dirty = s.dirty)
  | cleared (hfb : t.fb = []) (hdirty : t.dirty = 0) (herr : t.err = .ok) (hbusy : t.busy = false)
  | failed (hfb : t.fb = []) (hdirty : t.dirty = allRows s.params)

/-- With the flags of all rows set, every row of a legal framebuffer is dirty. -/
theorem isDirty_allRows {p : Config.Params} {t : State} (hp : p.legal) (ht : t.dirty = allRows p) {r : Nat}
    (hr : r < p.height) : t.isDirty r = true := by
  rw [State.isDirty, ht, allRows_get]
  simp [hr, row_lt_dirtyBits hp hr]

theorem ClearServed.of_same {s s' t : State} (h : ClearServed s' t) (hparams : s'.params = s.params)
    (hfb : s'.fb = s.fb) (hdirty : s'.dirty = s.dirty) : ClearServed s t := by
  cases h with
  | inProgress hf hd => exact .inProgress (hf.trans hfb) (hd.trans hdirty)
  | cleared hf hd he hb => exact .cleared hf hd he hb
  | failed hf hd => exact .failed hf (hparams ▸ hd)

theorem ClearServed.with_env {s t : State} (h : ClearServed s t) (env : List Event) :
    ClearServed s { t with env := env } := by
  cases h with
  | inProgress hf hd => exact .inProgress hf hd
  | cleared hf hd he hb => exact .cleared hf hd he hb
  | failed hf hd => exact .failed hf hd

/-- An answer to a CLEAR's request leaves FB and DIRTY and the CLEAR in progress, or ends the command. -/
theorem onOutcome_clear {s : State} {q : BusReq} (hp : s.pending = some q) (hj : s.job = .clear)
    (o : BusOutcome) :
    (s.onOutcome o).job = .clear ∧ (s.onOutcome o).fb = s.fb ∧ (s.onOutcome o).dirty = s.dirty ∨
      (s.onOutcome o).pending = none ∧ ClearServed s (s.onOutcome o) := by
  have hcase := onOutcome_cases hp o
  generalize s.onOutcome o = u at hcase ⊢
  cases hcase with
  | @goesOn q =>
    have hsame := presentNext_sameCommand (s.logBus q .ok)
    exact .inl ⟨hsame.job.trans hj, hsame.fb, hsame.dirty⟩
  | aborts => exact .inl ⟨hj, rfl, rfl⟩
  | closes =>
    rw [hj]
    cases s.txnOutcome o with
    | ok => exact .inr ⟨rfl, .cleared rfl rfl rfl rfl⟩
    | err => exact .inr ⟨rfl, .failed rfl rfl⟩

/-- Serving a CLEAR, from any request of its transaction on. -/
theorem serve_clear (env : List Event) (s : State) (hj : s.job = .clear) :
    ClearServed s (State.serve env s) := by
  fun_induction State.serve env s with
  | case1 => exact .inProgress rfl rfl
  | case2 o env s q hp ih =>
    rcases onOutcome_clear hp hj o with ⟨hjob, hfb, hdirty⟩ | ⟨hquiet, hserved⟩
    · exact (ih hjob).of_same (onOutcome_params s o) hfb hdirty
    · rw [serve_quiet _ _ hquiet]
      exact hserved.with_env env
  | case3 => exact .inProgress rfl rfl

/-! ### Serving: FLUSH -/

/-- Among the completed requests `new` stands, all OK up to and with its DEASSERT, an update transaction that
carries row `r`: the rest of the one in progress at `s`, or a whole one of `groups`. -/
inductive State.RowCarried (s : State) (groups : List (List Nat)) (r : Nat)
    (new : List (BusReq × BusOutcome)) : Prop where
  | rest (hj : s.job = .update) (hf : s.failed = false) (hr : r ∈ s.cursor.current)
      (later : List (BusReq × BusOutcome)) (hnew : new = s.restOk ++ later)
  | whole (g : List Nat) (hg : g ∈ groups) (hr : r ∈ g) (before later : List (BusReq × BusOutcome))
      (hnew : new = before ++ okFrame (s.updateBytes g) ++ later)

/-- What serving a FLUSH of `s` that has `groups` to come does to FB and DIRTY: FB stays, and a flag is
cleared only where the row has been carried (R188). -/
structure FlushServed (s : State) (groups : List (List Nat)) (t : State) : Prop where
  fb : t.fb = s.fb
  carried : ∃ new : List (BusReq × BusOutcome), t.busLog = new.reverse ++ s.busLog ∧
    ∀ r, s.isDirty r = true → t.isDirty r = false → s.RowCarried groups r new

/-- Where nothing is cleared, nothing has to be carried. -/
theorem FlushServed.of_same {s t : State} (groups : List (List Nat)) (hfb : t.fb = s.fb)
    (hdirty : t.dirty = s.dirty) (new : List (BusReq × BusOutcome))
    (hlog : t.busLog = new.reverse ++ s.busLog) : FlushServed s groups t := by
  refine ⟨hfb, new, hlog, fun r hs ht => ?_⟩
  rw [State.isDirty, hdirty] at ht
  exact absurd (hs.symm.trans ht) (by simp)

/-- After an OK the rest of the transaction is what was left of it. -/
theorem restOk_presentNext {s : State} {q : BusReq} (hp : s.pending = some q) (hq : q ≠ .deassert) :
    s.restOk = (q, .ok) :: (s.logBus q .ok).presentNext.restOk := by
  have hrest : s.restOk
      = (q, .ok) :: s.left.map (fun p => (BusReq.byte p.2, BusOutcome.ok)) ++ [(.deassert, .ok)] := by
    unfold State.restOk
    rw [hp]
    cases q with
    | deassert => exact absurd rfl hq
    | assert => rfl
    | byte b => rfl
  rw [hrest]
  unfold State.presentNext
  rw [logBus_left]
  cases s.left <;> rfl

/-- The rest of an update transaction just opened is the whole of it. -/
theorem restOk_openTxn_update (s : State) {g : List Nat} (hg : g ≠ []) :
    (s.openTxn .update (s.updateSeq g)).restOk = okFrame (s.updateBytes g) := by
  rw [← updateSeq_bytes s g hg]
  simp [State.restOk, okFrame]

/-- The groups to come all have rows (R180). -/
def State.groupsHaveRows (s : State) : Prop := ∀ g ∈ s.cursor.later, g ≠ []

/-- A FLUSH of which nothing has been begun carries its rows in whole transactions of the groups. -/
theorem FlushServed.of_nextGroup {s t : State} (hg : s.groupsHaveRows)
    (h : FlushServed s.nextGroup s.nextGroup.cursor.later t) :
    ∃ new : List (BusReq × BusOutcome), t.busLog = new.reverse ++ s.busLog ∧
      ∀ r, s.isDirty r = true → t.isDirty r = false → ∃ g before later,
        g ∈ s.cursor.later ∧ r ∈ g ∧ new = before ++ okFrame (s.updateBytes g) ++ later := by
  obtain ⟨-, new, hlog, hnew⟩ := h
  refine ⟨new, by rw [hlog, nextGroup_busLog], fun r hs ht => ?_⟩
  rw [State.isDirty, ← nextGroup_dirty] at hs
  cases hnew r hs ht with
  | whole g hmem hr before later h =>
    rw [updateBytes_congr (nextGroup_sameWire s)] at h
    exact ⟨g, before, later, nextGroup_later_subset s g hmem, hr, h⟩
  | rest hj _ hr later h =>
    cases heq : s.cursor.later with
    | nil => rw [nextGroup_of_nil heq] at hj; cases hj
    | cons g groups =>
      have hne : g ≠ [] := hg g (by rw [heq]; exact List.mem_cons_self)
      have hrest : s.nextGroup.restOk = okFrame (s.updateBytes g) := by
        rw [nextGroup_of_cons heq, ← updateSeq_congr (withCursor_sameWire s ⟨s.cursor.sent, g, groups⟩),
          restOk_openTxn_update _ hne, updateBytes_congr (withCursor_sameWire s _)]
      rw [nextGroup_of_cons heq] at hr
      exact ⟨g, [], later, List.mem_cons_self, hr, by rw [h, hrest, List.nil_append]⟩

/-- When an update has returned OK, its rows have been carried by the rest of it, every other row by a group
to come. -/
theorem FlushServed.of_groupSent {s t : State} (hp : s.pending = some .deassert) (hj : s.job = .update)
    (hf : s.failed = false) (hg : s.groupsHaveRows)
    (h : FlushServed (s.sentGroup [(.deassert, .ok)]).nextGroup
      (s.sentGroup [(.deassert, .ok)]).nextGroup.cursor.later t) :
    FlushServed s s.cursor.later t := by
  obtain ⟨new, hlog, hnew⟩ := FlushServed.of_nextGroup (s := s.sentGroup [(.deassert, .ok)]) hg h
  refine ⟨h.fb.trans (nextGroup_sameWire _).fb, (.deassert, .ok) :: new, ?_, fun r hs ht => ?_⟩
  · simpa [State.sentGroup, State.logAll] using hlog
  · by_cases hr : r ∈ s.cursor.current
    · exact .rest hj hf hr new (by simp [State.restOk, hp])
    · have hs' : (s.sentGroup [(.deassert, .ok)]).isDirty r = true := by
        rw [State.isDirty, sentGroup_dirty, getLsbD_clearRows]
        simpa [hr, State.isDirty] using hs
      obtain ⟨g, before, later, hmem, hrg, heq⟩ := hnew r hs' ht
      rw [updateBytes_congr (sentGroup_sameWire s _)] at heq
      exact .whole g hmem hrg ((.deassert, .ok) :: before) later (by rw [heq]; rfl)

/-- A request completed before does not change what carries a row, where it belongs to the same
transaction. -/
theorem FlushServed.of_logged {s s' t : State} {q : BusReq} {o : BusOutcome}
    (h : FlushServed s' s'.cursor.later t) (hsame : s'.sameCommand (s.logBus q o))
    (hrest : s'.failed = false → s.failed = false ∧ s.restOk = (q, o) :: s'.restOk) :
    FlushServed s s.cursor.later t := by
  obtain ⟨hfb, new, hlog, hnew⟩ := h
  refine ⟨hfb.trans hsame.fb, (q, o) :: new, ?_, fun r hs ht => ?_⟩
  · rw [hlog, hsame.busLog]
    simp
  · rw [State.isDirty, ← logBus_dirty s q o, ← hsame.dirty] at hs
    cases hnew r hs ht with
    | rest hj hf hr later heq =>
      obtain ⟨hf', hrest'⟩ := hrest hf
      rw [hsame.cursor] at hr
      exact .rest (hsame.job.symm.trans hj) hf' hr later (by rw [heq, hrest']; rfl)
    | whole g hg hr before later heq =>
      rw [hsame.cursor] at hg
      have hbytes : s'.updateBytes g = s.updateBytes g :=
        (updateBytes_congr hsame.tosameWire g).trans (updateBytes_congr ⟨rfl, rfl, rfl, rfl, rfl, rfl⟩ g)
      exact .whole g hg hr ((q, o) :: before) later (by rw [heq, hbytes]; rfl)

/-- Where a transaction of a FLUSH ends, the next one is opened if it was an update that has returned OK;
otherwise the command ends. -/
theorem afterTxn_flush (s : State) {job : Job} (hj : job ≠ .clear) (o : BusOutcome) :
    job = .update ∧ o = .ok ∧ s.afterTxn job o = s.groupSent.nextGroup ∨
      (s.afterTxn job o).pending = s.pending ∧ (s.afterTxn job o).fb = s.fb ∧
        (s.afterTxn job o).dirty = s.dirty ∧ (s.afterTxn job o).busLog = s.busLog := by
  cases job with
  | none => exact .inr ⟨rfl, rfl, rfl, rfl⟩
  | clear => exact absurd rfl hj
  | update =>
    cases o with
    | ok => exact .inl ⟨rfl, rfl, rfl⟩
    | err => exact .inr ⟨rfl, rfl, rfl, rfl⟩
  | refresh => cases o <;> exact .inr ⟨rfl, rfl, rfl, rfl⟩

theorem txnOutcome_ok {s : State} {o : BusOutcome} (h : s.txnOutcome o = .ok) :
    s.failed = false ∧ o = .ok := by
  unfold State.txnOutcome at h
  split at h
  · cases h
  · exact ⟨by simpa using ‹¬s.failed = true›, h⟩

/-- Serving a FLUSH, from any request of any of its transactions on. -/
theorem serve_flush (env : List Event) (s : State) (hj : s.job ≠ .clear) (hg : s.groupsHaveRows) :
    FlushServed s s.cursor.later (State.serve env s) := by
  fun_induction State.serve env s with
  | case1 => exact .of_same _ rfl rfl [] rfl
  | case2 o env s q hp ih =>
    have hcase := onOutcome_cases hp o
    generalize s.onOutcome o = u at hcase ih ⊢
    cases hcase with
    | @goesOn q hp hq =>
      have hsame := presentNext_sameCommand (s.logBus q .ok)
      refine (ih ?_ ?_).of_logged hsame fun hf => ⟨?_, restOk_presentNext hp hq⟩
      · rw [hsame.job]; exact hj
      · rw [State.groupsHaveRows, hsame.cursor]; exact hg
      · rw [presentNext_failed] at hf; exact hf
    | @aborts q hp hq =>
      exact (ih hj hg).of_logged (presentAbort_sameCommand _) fun hf => by cases hf
    | closes _ hp =>
      rcases afterTxn_flush (s.logBus .deassert o).closeTxn hj (s.txnOutcome o) with
        ⟨hup, hok, heq⟩ | ⟨hquiet, hfb, hdirty, hlog⟩
      · obtain ⟨hf, rfl⟩ := txnOutcome_ok hok
        have hsent : (s.logBus .deassert .ok).closeTxn.groupSent = s.sentGroup [(.deassert, .ok)] := rfl
        rw [heq, hsent] at ih ⊢
        exact .of_groupSent hp hup hf hg
          (ih (nextGroup_job_ne_clear _) fun g hmem =>
            hg g (nextGroup_later_subset (s.sentGroup [(.deassert, .ok)]) g hmem))
      · rw [serve_quiet _ _ hquiet]
        exact .of_same _ hfb hdirty [(.deassert, o)] hlog
  | case3 => exact .of_same _ rfl rfl [] rfl

/-- A FLUSH that begins at `start`, which is `s` with the groups to come in its cursor, carries its rows in
whole transactions of these groups (R185). -/
theorem beginFlush_served {s start : State} (hgroups : start.cursor.later = s.groupsToCome)
    (hrows : start.groupsHaveRows) (hwire : start.sameWire s) (hdirty : start.dirty = s.dirty)
    (hbus : start.busLog = s.busLog) (env : List Event) :
    FlushServed s s.groupsToCome (State.serve env start.nextGroup) := by
  have hserved := serve_flush env start.nextGroup (nextGroup_job_ne_clear start) fun g hg =>
    hrows g (nextGroup_later_subset start g hg)
  obtain ⟨new, hlog, hnew⟩ := FlushServed.of_nextGroup hrows hserved
  refine ⟨hserved.fb.trans ((nextGroup_sameWire start).fb.trans hwire.fb), new, hbus ▸ hlog,
    fun r hs ht => ?_⟩
  rw [State.isDirty, ← hdirty] at hs
  obtain ⟨g, before, later, hmem, hr, heq⟩ := hnew r hs ht
  rw [updateBytes_congr hwire] at heq
  exact .whole g (hgroups ▸ hmem) hr before later heq

/-! ### What a step can do to FB and DIRTY -/

/-- Everything a step can do to FB and DIRTY: nothing, a reset, or what the command in progress does. -/
inductive DisplayCase (s : State) : State → Prop where
  | same {t : State} (h : s.sameDisplay t) : DisplayCase s t
  | reset {t : State} (hnext : resetNext s) (hfb : t.fb = []) (hdirty : t.dirty = 0) : DisplayCase s t
  | clear {t : State} (hc : s.command = some .clear) (h : ClearServed s t) : DisplayCase s t
  | flush {t : State} (hc : s.command = some .flush) (h : FlushServed s s.groupsToCome t) :
      DisplayCase s t
  | finished {i : Instr} {code : ErrCode} {env : List Event} {u : State} (hc : s.command = some i)
      (he : LocalEffect i { s with env := env } code u) : DisplayCase s (u.finish code)

/-- A presented request that is answered belongs to a CLEAR or a FLUSH, which goes on. -/
theorem drain_display {s : State} (h : s.ChannelInv) (hp : s.pending ≠ none) : DisplayCase s s.drain := by
  obtain ⟨-, -, ⟨hj, hc, -⟩ | ⟨hj, hc⟩⟩ := h.framed hp
  · exact .clear hc (serve_clear s.env s hj)
  · have hgroups : s.groupsToCome = s.cursor.later := if_neg hp
    refine .flush hc (hgroups ▸ serve_flush s.env s ?_ fun g hg => ?_)
    · rcases hj with hj | hj <;> rw [hj] <;> simp
    · rcases hj with hj | hj
      · exact consecutive_ne_nil ((h.cursorRuns hj).2 g hg)
      · rw [(h.cursorRefresh hj).2] at hg
        exact absurd hg (List.not_mem_nil)

/-- What a step can do to FB and DIRTY. -/
theorem step_display {s t : State} (h : s.Inv) (hstep : step s = .next t) : DisplayCase s t := by
  cases step_cases hstep with
  | @hostRead a env =>
    obtain ⟨hfb, hdirty, hresult⟩ := hostRead_display { s with env := env } a
    exact .same ⟨hfb, hdirty, hresult⟩
  | @hostWrite a w env =>
    obtain ⟨hfb, hdirty, hresult⟩ := hostWrite_display { s with env := env } a w
    exact .same ⟨hfb, hdirty, hresult⟩
  | @reset env henv => exact .reset ⟨env, henv⟩ rfl rfl
  | rests | dropped => exact .same ⟨rfl, rfl, rfl⟩
  | answered _ hp => exact drain_display h.channel hp
  | rejects hturn =>
    obtain ⟨env, rfl⟩ := engineTurn_eq hturn
    obtain ⟨code, hcode⟩ := rejectWord_eq_finish { s with env := env } _
    rw [hcode]
    exact .same ⟨rfl, rfl, rfl⟩
  | executes hturn hdec hexec =>
    obtain ⟨env, rfl⟩ := engineTurn_eq hturn
    obtain ⟨heng, hp, -⟩ := hturn
    have hc := command_of_decode heng hdec
    cases hexec with
    | clear hi =>
      have hserved := serve_clear env (State.beginClear { s with env := env }) rfl
      exact .clear (hi ▸ hc) (hserved.of_same rfl rfl rfl)
    | flush hi =>
      have hgroups : s.groupsToCome = runs s.dirtyRows s.coalesce := if_pos hp
      exact .flush (hi ▸ hc) (beginFlush_served
        (start := { s with env := env, cursor := ⟨[], [], runs s.dirtyRows s.coalesce⟩ }) hgroups.symm
        (fun g hg => consecutive_ne_nil (runs_consecutive _ _ g hg)) ⟨rfl, rfl, rfl, rfl, rfl, rfl⟩
        rfl rfl _)
    | finished he => exact .finished hc he

/-- Settles O54: the cases of `DisplayCase`; drawing marks the row, a failed CLEAR marks every row. -/
theorem changedRowIsDirty : Obligations.ChangedRowIsDirty := by
  intro s t h hstep r c hr hc hne
  have hlegal := h.storage.legal
  cases step_display h hstep with
  | same hsame => rw [hsame.fb] at hne; exact absurd rfl hne
  | reset hnext hfb hdirty => exact .inr ⟨hfb, hdirty, .inl hnext⟩
  | clear hcmd hserved =>
    cases hserved with
    | inProgress hfb => rw [hfb] at hne; exact absurd rfl hne
    | cleared hfb hdirty herr => exact .inr ⟨hfb, hdirty, .inr ⟨hcmd, herr⟩⟩
    | failed _ hdirty => exact .inl (isDirty_allRows hlegal hdirty hr)
  | flush _ hserved => rw [hserved.fb] at hne; exact absurd rfl hne
  | finished _ he => exact .inl (he.isDirty_of_changed hlegal hr hc hne)

/-- Settles O55: the cases of `DisplayCase`, and the host port's frame. -/
theorem onlyDrawingWritesFramebuffer : Obligations.OnlyDrawingWritesFramebuffer := by
  intro s t h hreset hstep
  refine ⟨fun hfb => ?_, fun hdirty => ?_, ?_⟩
  · cases step_display h hstep with
    | same hsame => exact absurd hsame.fb hfb
    | reset hnext => exact absurd hnext hreset
    | clear hc => exact ⟨.clear, hc, rfl⟩
    | flush _ hserved => exact absurd hserved.fb hfb
    | @finished i _ _ _ hc he => exact ⟨i, hc, he.writesFb_of_changed (.inl hfb)⟩
  · cases step_display h hstep with
    | same hsame => exact absurd hsame.dirty hdirty
    | reset hnext => exact absurd hnext hreset
    | clear hc => exact ⟨.clear, hc, .inl rfl⟩
    | flush hc => exact ⟨.flush, hc, .inr rfl⟩
    | @finished i _ _ _ hc he => exact ⟨i, hc, .inl (he.writesFb_of_changed (.inr hdirty))⟩
  · rintro e he (⟨a, rfl⟩ | ⟨a, w, rfl⟩)
    · obtain ⟨env, henv⟩ := List.head?_eq_some_iff.1 he
      obtain rfl := Host.Outcome.next.inj ((step_hostRead henv).symm.trans hstep)
      obtain ⟨hfb, hdirty, -⟩ := hostRead_display { s with env := env } a
      exact ⟨hfb, hdirty⟩
    · obtain ⟨env, henv⟩ := List.head?_eq_some_iff.1 he
      obtain rfl := Host.Outcome.next.inj ((step_hostWrite henv).symm.trans hstep)
      obtain ⟨hfb, hdirty, -⟩ := hostWrite_display { s with env := env } a w
      exact ⟨hfb, hdirty⟩

/-- Settles O56: the cases of `DisplayCase`; what carries the row is in `FlushServed`. -/
theorem dirtyClearedOnlyByTransmission : Obligations.DirtyClearedOnlyByTransmission := by
  intro s t h hstep r hs ht
  have hkept : t.isDirty r ≠ true := by rw [ht]; simp
  have hheight : r < s.params.height := by
    by_contra hge
    exact absurd (hs.symm.trans (h.storage.dirtyLt r (by omega))) (by simp)
  cases step_display h hstep with
  | same hsame =>
    refine absurd ?_ hkept
    rw [State.isDirty, hsame.dirty]
    exact hs
  | reset hnext => exact .inl hnext
  | clear hc hserved =>
    cases hserved with
    | inProgress _ hdirty =>
      refine absurd ?_ hkept
      rw [State.isDirty, hdirty]
      exact hs
    | cleared _ _ herr hbusy => exact .inr (.inl ⟨hc, herr, hbusy⟩)
    | failed _ hdirty => exact absurd (isDirty_allRows h.storage.legal hdirty hheight) hkept
  | flush hc hserved =>
    obtain ⟨new, hlog, hnew⟩ := hserved.carried
    refine .inr (.inr ⟨hc, new, hlog, ?_⟩)
    cases hnew r hs ht with
    | rest hj hf hr later heq => exact .inl ⟨hj, hf, hr, later, heq⟩
    | whole g hg hr before later heq => exact .inr ⟨g, before, later, hg, hr, heq⟩
  | finished _ he => exact absurd (he.isDirty_of_isDirty hs) hkept

/-- Settles O57: the cases of a step; only the effect of a query writes RESULT. -/
theorem onlyQueriesWriteResult : Obligations.OnlyQueriesWriteResult := by
  intro s t hreset hstep hne
  cases step_cases hstep with
  | hostRead => exact absurd (hostRead_display _ _).result hne
  | hostWrite => exact absurd (hostWrite_display _ _ _).result hne
  | @reset env henv => exact absurd ⟨env, henv⟩ hreset
  | rests | dropped => exact absurd rfl hne
  | answered => exact absurd (serve_result _ _) hne
  | @rejects w u e hturn =>
    obtain ⟨env, rfl⟩ := engineTurn_eq hturn
    obtain ⟨code, hcode⟩ := rejectWord_eq_finish { s with env := env } e
    rw [hcode] at hne
    exact absurd rfl hne
  | @executes _ _ _ i hturn hdec hexec =>
    obtain ⟨env, rfl⟩ := engineTurn_eq hturn
    obtain ⟨heng, -, -⟩ := hturn
    cases hexec with
    | clear => exact absurd (serve_result _ _) hne
    | flush => exact absurd ((serve_result _ _).trans (nextGroup_result _)) hne
    | finished he =>
      obtain ⟨rfl, hquery⟩ := he.query_of_result_ne hne
      exact ⟨rfl, rfl, i, command_of_decode heng hdec, hquery⟩

end Sys2Proof.Machine
end

section
/-! ## The phases of the bytes

The rows of an update transaction written out, and the invariant's account of a presented byte. -/

namespace Sys2Proof.Machine

/-- The bytes of the rows of an update transaction from the `j`-th of `n` on: each row's payload, then the
trailer of its place (R180, R181). -/
theorem rowsSeq_eq_flatMap (s : State) (rows : List Nat) (j n : Nat) (hn : j + rows.length = n) :
    s.rowsSeq rows = (rows.zipIdx j).flatMap fun (r, j) => s.payloadSeq r ++
      List.replicate (if j + 1 < n then s.rowLen.toNat else s.endLen.toNat) (.trailer, s.trb) := by
  induction rows generalizing j with
  | nil => rfl
  | cons r rows ih =>
    have hrest := ih (j + 1) (by rw [← hn, List.length_cons]; omega)
    rw [List.zipIdx_cons, List.flatMap_cons, ← hrest]
    cases rows with
    | nil =>
      have hlast : ¬j + 1 < n := by simp only [List.length_cons, List.length_nil] at hn; omega
      simp only [State.rowsSeq, State.trailerSeq, if_true, if_neg hlast, List.append_nil]
    | cons r' rows =>
      have hmore : j + 1 < n := by simp only [List.length_cons] at hn; omega
      simp only [State.rowsSeq, State.trailerSeq, if_pos hmore, Bool.false_eq_true, if_false]

/-- A presented byte follows what has been presented before it, and what is left follows the byte. -/
theorem presentedByte_txnSeq {s : State} {b : Byte} (h : s.ChannelInv) (hp : s.pending = some (.byte b)) :
    ∃ presented, presented ++ (s.phase, b) :: s.left = s.txnSeq := by
  have hf : s.failed = false := by
    by_contra hfailed
    have hlast := h.failedLast (by simpa using hfailed)
    rw [hp] at hlast
    cases hlast
  obtain ⟨presented, hseq, -, hlast⟩ := h.sequence (by rw [hp]; simp) hf
  obtain ⟨before, rfl⟩ := List.getLast?_eq_some_iff.1 (hlast b hp)
  exact ⟨before, by rw [hseq, List.append_assoc, List.singleton_append]⟩

/-- Settles O48: the byte sequences written out, and the invariant's account of the transaction in
progress. -/
theorem bytesSentInTheirPhases : Obligations.BytesSentInTheirPhases := by
  refine ⟨fun s => ⟨rfl, rfl, fun rows => ?_⟩, fun s b h hp => presentedByte_txnSeq h.channel hp⟩
  rw [State.updateSeq, rowsSeq_eq_flatMap s rows 0 rows.length (Nat.zero_add _)]
  rfl

end Sys2Proof.Machine
end

section
/-! ## Chip-select windows

An answered request continues the windows (`scanFrames_presented`), so serving does (`serve_frames`), and
with it every step that is no reset. -/

namespace Sys2Proof.Machine

/-- The requests completed from `s` to `t` continue the chip-select windows from where `s` stands to where
`t` stands (R84, R173, R176). -/
def State.FramesTo (s t : State) : Prop :=
  ∃ new : List (BusReq × BusOutcome), t.busLog = new.reverse ++ s.busLog ∧
    scanFrames s.insideWindow (new.map Prod.fst) = some t.insideWindow

/-! ### Where a state stands -/

theorem insideWindow_congr {s t : State} (h : t.pending = s.pending) :
    t.insideWindow = s.insideWindow := by
  simp only [State.insideWindow, h]

theorem insideWindow_of_quiet {s : State} (h : s.pending = none) : s.insideWindow = false := by
  simp only [State.insideWindow, h]

/-- After ASSERT a byte or DEASSERT is presented, both inside the window (R173). -/
theorem presentNext_insideWindow (s : State) : s.presentNext.insideWindow = true := by
  unfold State.presentNext
  split <;> rfl

/-- The next transaction of a FLUSH starts with its ASSERT (R173, R185). -/
theorem nextGroup_insideWindow (s : State) : s.nextGroup.insideWindow = false := by
  unfold State.nextGroup
  split <;> rfl

/-- After a transaction the command ends, or opens the next one outside of any window. -/
theorem afterTxn_insideWindow {s : State} (h : s.pending = none) (job : Job) (o : BusOutcome) :
    (s.afterTxn job o).insideWindow = false := by
  cases job with
  | none => exact insideWindow_of_quiet h
  | clear => cases o <;> exact insideWindow_of_quiet h
  | update =>
    cases o with
    | ok => exact nextGroup_insideWindow s.groupSent
    | err => exact insideWindow_of_quiet h
  | refresh => cases o <;> exact insideWindow_of_quiet h

/-! ### What completes requests -/

theorem afterTxn_busLog (s : State) (job : Job) (o : BusOutcome) :
    (s.afterTxn job o).busLog = s.busLog := by
  cases job with
  | none => rfl
  | clear => cases o <;> rfl
  | update =>
    cases o with
    | ok => exact nextGroup_busLog s.groupSent
    | err => rfl
  | refresh => cases o <;> rfl

/-- An answer completes the presented request and no other (R173). -/
theorem onOutcome_busLog {s : State} {q : BusReq} (hp : s.pending = some q) (o : BusOutcome) :
    (s.onOutcome o).busLog = (q, o) :: s.busLog := by
  have hcase := onOutcome_cases hp o
  generalize s.onOutcome o = u at hcase ⊢
  cases hcase with
  | goesOn hp' =>
    cases hp.symm.trans hp'
    exact (presentNext_sameCommand (s.logBus q .ok)).busLog
  | aborts hp' =>
    cases hp.symm.trans hp'
    rfl
  | closes _ hp' =>
    cases hp.symm.trans hp'
    exact afterTxn_busLog _ _ _

/-- The presented request stands on its right side, and its answer leaves the channel where it leads:
inside after ASSERT and after a byte, outside after DEASSERT (R173, R176). -/
theorem scanFrames_presented {s : State} {q : BusReq} (hp : s.pending = some q) (o : BusOutcome)
    (qs : List BusReq) :
    scanFrames s.insideWindow (q :: qs) = scanFrames (s.onOutcome o).insideWindow qs := by
  have hopen (hq : q ≠ .deassert) :
      scanFrames s.insideWindow (q :: qs) = scanFrames true qs := by
    simp only [State.insideWindow, hp]
    cases q with
    | assert => rfl
    | byte b => rfl
    | deassert => exact absurd rfl hq
  have hcase := onOutcome_cases hp o
  generalize s.onOutcome o = u at hcase ⊢
  cases hcase with
  | goesOn hp' hq =>
    cases hp.symm.trans hp'
    rw [presentNext_insideWindow, hopen hq]
  | aborts hp' hq =>
    cases hp.symm.trans hp'
    exact hopen hq
  | closes _ hp' =>
    cases hp.symm.trans hp'
    rw [afterTxn_insideWindow (by rfl), show s.insideWindow = true by simp only [State.insideWindow, hp]]
    rfl

/-! ### Windows continued -/

/-- Where no request is completed and the presented one stays on its side, the windows go on. -/
theorem framesTo_of_same {s t : State} (hlog : t.busLog = s.busLog)
    (hinside : t.insideWindow = s.insideWindow) : s.FramesTo t :=
  ⟨[], hlog, by rw [hinside]; rfl⟩

/-- Serving answers, from any request of any transaction on. -/
theorem serve_frames (env : List Event) (s : State) : s.FramesTo (State.serve env s) := by
  fun_induction State.serve env s with
  | case1 => exact framesTo_of_same rfl rfl
  | case2 o env s q hp ih =>
    obtain ⟨new, hlog, hscan⟩ := ih
    refine ⟨(q, o) :: new, ?_, (scanFrames_presented hp o _).trans hscan⟩
    rw [hlog, onOutcome_busLog hp]
    simp
  | case3 => exact framesTo_of_same rfl rfl

/-- Serving from a start that has completed nothing since `s` and stands where `s` does. -/
theorem serve_frames_of_start {s start : State} (hlog : start.busLog = s.busLog)
    (hinside : start.insideWindow = s.insideWindow) (env : List Event) :
    s.FramesTo (State.serve env start) := by
  obtain ⟨new, hnew, hscan⟩ := serve_frames env start
  exact ⟨new, hlog ▸ hnew, hinside ▸ hscan⟩

theorem hostRead_busLog_pending (s : State) (a : HostAddr) :
    (s.hostRead a).busLog = s.busLog ∧ (s.hostRead a).pending = s.pending := by
  unfold State.hostRead
  split <;> exact ⟨rfl, rfl⟩

theorem hostWrite_busLog_pending (s : State) (a : HostAddr) (w : Word) :
    (s.hostWrite a w).busLog = s.busLog ∧ (s.hostWrite a w).pending = s.pending := by
  unfold State.hostWrite
  split
  · exact ⟨rfl, rfl⟩
  · cases target a <;> exact ⟨rfl, rfl⟩

/-- Only CLEAR and FLUSH make bus requests (R84). -/
theorem LocalEffect.busLog_eq {i : Instr} {s u : State} {code : ErrCode}
    (h : LocalEffect i s code u) : u.busLog = s.busLog := by
  cases h with
  | unchanged => rfl
  | result => rfl
  | rows => rw [drawRows_eq]
  | blit => rw [blitRow_eq]

/-- A command that begins does so outside of any window. -/
theorem Executed.frames {i : Instr} {s t : State} (h : Executed i s t) (hp : s.pending = none) :
    s.FramesTo t := by
  have houtside := insideWindow_of_quiet hp
  cases h with
  | clear => exact serve_frames_of_start (s := s) (start := s.beginClear) rfl houtside.symm s.env
  | flush =>
    exact serve_frames_of_start (start := s.beginFlush) (nextGroup_busLog _)
      ((nextGroup_insideWindow _).trans houtside.symm) _
  | finished he => exact framesTo_of_same he.busLog_eq (insideWindow_congr he.pending_eq)

/-- Settles O51: the cases of a step; the commands that begin and the answers that are served continue
the windows. -/
theorem stepKeepsFrames : Obligations.StepKeepsFrames := by
  intro s t _ hreset hstep
  change s.FramesTo t
  cases step_cases hstep with
  | @hostRead a env =>
    obtain ⟨hlog, hp⟩ := hostRead_busLog_pending { s with env := env } a
    exact framesTo_of_same hlog (insideWindow_congr hp)
  | @hostWrite a w env =>
    obtain ⟨hlog, hp⟩ := hostWrite_busLog_pending { s with env := env } a w
    exact framesTo_of_same hlog (insideWindow_congr hp)
  | @reset env henv => exact absurd ⟨env, henv⟩ hreset
  | rests | dropped => exact framesTo_of_same rfl rfl
  | answered => exact serve_frames s.env s
  | @rejects w u e hturn =>
    obtain ⟨env, rfl⟩ := engineTurn_eq hturn
    obtain ⟨code, hcode⟩ := rejectWord_eq_finish { s with env := env } e
    rw [hcode]
    exact framesTo_of_same rfl rfl
  | executes hturn _ hexec =>
    obtain ⟨env, rfl⟩ := engineTurn_eq hturn
    obtain ⟨-, hp, -⟩ := hturn
    exact hexec.frames hp

end Sys2Proof.Machine
end

section
/-! ## Host accesses beside a running command

What a host access moves while BUSY = 1 (`hostRead_eq`, `hostWrite_eq_of_busy`) is three fields that
serving a command neither reads nor writes (`serve_withHostSide`). -/

namespace Sys2Proof.Machine

/-- `s` with OVR, the log of host reads and the count of unspecified reads replaced: all that a host
access moves while a command runs (R240, R241). -/
def State.withHostSide (s : State) (ovr : Bool) (log : List (HostAddr × Word)) (count : Nat) : State :=
  { s with ovr := ovr, hostLog := log, freeCount := count }

/-! ### What a host access moves -/

/-- A host read adds the word it returns to the log, and at most counts an unspecified value (R79). -/
theorem hostRead_eq (s : State) (a : HostAddr) :
    ∃ (w : Word) (n : Nat), s.hostRead a = { s with hostLog := (a, w) :: s.hostLog, freeCount := n } := by
  unfold State.hostRead
  split
  · exact ⟨Config.busyRead s.freeCount, s.freeCount + 1, rfl⟩
  · exact ⟨s.readTarget (target a), s.freeCount, rfl⟩

/-- A target whose writes are not guarded stores nothing but OVR (R27, R41). -/
theorem writeTarget_eq_of_not_guarded {tgt : Target} (h : tgt.guarded = false) (s : State) (w : Word) :
    s.writeTarget w tgt = { s with ovr := (s.writeTarget w tgt).ovr } := by
  cases tgt with
  | id | status | result | dirty | fb | unmapped => rfl
  | ctrl | cmdLo | cmdHi | srcLen | palLen | opc | nopb | trail | pal | src => cases h

/-- While BUSY = 1 a host write can change only OVR (R240). -/
theorem hostWrite_eq_of_busy {s : State} (hbusy : s.busy = true) (a : HostAddr) (w : Word) :
    s.hostWrite a w = { s with ovr := (s.hostWrite a w).ovr } := by
  unfold State.hostWrite
  split
  · rfl
  · rename_i hkept
    exact writeTarget_eq_of_not_guarded (by simpa [hbusy] using hkept) s w

/-- Settles O15: the step of a host read, and what a host read moves. -/
theorem hostReadHasNoSideEffect : Obligations.HostReadHasNoSideEffect := by
  intro s a env henv
  obtain ⟨w, n, hread⟩ := hostRead_eq { s with env := env } a
  exact ⟨w, n, by rw [step_hostRead henv, hread]⟩

/-! ### The engine does not look at it -/

section
variable (s : State) (ovr : Bool) (log : List (HostAddr × Word)) (count : Nat)

theorem presentNext_withHostSide :
    (s.withHostSide ovr log count).presentNext = s.presentNext.withHostSide ovr log count := by
  unfold State.presentNext
  rw [show (s.withHostSide ovr log count).left = s.left from rfl]
  split <;> rfl

theorem nextGroup_withHostSide :
    (s.withHostSide ovr log count).nextGroup = s.nextGroup.withHostSide ovr log count := by
  have hbytes (rows : List Nat) : (s.withHostSide ovr log count).updateSeq rows = s.updateSeq rows :=
    updateSeq_congr (s := s.withHostSide ovr log count) (t := s) ⟨rfl, rfl, rfl, rfl, rfl, rfl⟩ rows
  cases hlater : s.cursor.later with
  | nil =>
    rw [nextGroup_of_nil hlater, nextGroup_of_nil (s := s.withHostSide ovr log count) hlater]
    rfl
  | cons rows later =>
    rw [nextGroup_of_cons hlater, nextGroup_of_cons (s := s.withHostSide ovr log count) hlater, hbytes]
    rfl

theorem afterTxn_withHostSide (job : Job) (o : BusOutcome) :
    (s.withHostSide ovr log count).afterTxn job o
      = (s.afterTxn job o).withHostSide ovr log count := by
  cases job with
  | none => rfl
  | clear => cases o <;> rfl
  | update =>
    cases o with
    | ok => exact nextGroup_withHostSide s.groupSent ovr log count
    | err => rfl
  | refresh => cases o <;> rfl

theorem onOutcome_withHostSide {q : BusReq} (hp : s.pending = some q) (o : BusOutcome) :
    (s.withHostSide ovr log count).onOutcome o
      = (s.onOutcome o).withHostSide ovr log count := by
  have hp' : (s.withHostSide ovr log count).pending = some q := hp
  by_cases hq : q = .deassert
  · subst hq
    rw [onOutcome_deassert s o hp, onOutcome_deassert _ o hp']
    exact afterTxn_withHostSide (s.logBus .deassert o).closeTxn ovr log count _ _
  · cases o with
    | ok =>
      rw [onOutcome_ok s q hp hq, onOutcome_ok _ q hp' hq]
      exact presentNext_withHostSide (s.logBus q .ok) ovr log count
    | err =>
      rw [onOutcome_err s q hp hq, onOutcome_err _ q hp' hq]
      rfl

/-- Serving goes on as it would without the host's accesses (R82). -/
theorem serve_withHostSide (env : List Event) :
    State.serve env (s.withHostSide ovr log count)
      = (State.serve env s).withHostSide ovr log count := by
  induction env generalizing s with
  | nil => simp only [serve_nil]; rfl
  | cons e env ih =>
    cases hp : s.pending with
    | none => rw [serve_quiet s _ hp, serve_quiet (s.withHostSide ovr log count) _ hp]; rfl
    | some q =>
      cases e with
      | busDone o =>
        have hne : s.pending ≠ none := by rw [hp]; simp
        rw [serve_answer s o env hne, serve_answer (s.withHostSide ovr log count) o env hne,
          onOutcome_withHostSide s _ _ _ hp, ih]
      | _ => rfl

end

/-- Serving keeps OVR, the log of host reads and the count of unspecified reads. -/
theorem serve_hostSide (env : List Event) (s : State) :
    (State.serve env s).ovr = s.ovr ∧ (State.serve env s).hostLog = s.hostLog ∧
      (State.serve env s).freeCount = s.freeCount := by
  have hserve : State.serve env s = (State.serve env s).withHostSide s.ovr s.hostLog s.freeCount :=
    serve_withHostSide s s.ovr s.hostLog s.freeCount env
  rw [hserve]
  exact ⟨rfl, rfl, rfl⟩

theorem serve_with_ovr (env : List Event) (s : State) (ovr : Bool) :
    State.serve env { s with ovr := ovr } = { State.serve env s with ovr := ovr } := by
  obtain ⟨-, hlog, hcount⟩ := serve_hostSide env s
  calc State.serve env { s with ovr := ovr }
      = (State.serve env s).withHostSide ovr s.hostLog s.freeCount :=
        serve_withHostSide s ovr s.hostLog s.freeCount env
    _ = { State.serve env s with ovr := ovr } := by rw [← hlog, ← hcount]; rfl

theorem serve_with_reads (env : List Event) (s : State) (log : List (HostAddr × Word)) (count : Nat) :
    State.serve env { s with hostLog := log, freeCount := count }
      = { State.serve env s with hostLog := log, freeCount := count } := by
  obtain ⟨hovr, -, -⟩ := serve_hostSide env s
  calc State.serve env { s with hostLog := log, freeCount := count }
      = (State.serve env s).withHostSide s.ovr log count := serve_withHostSide s s.ovr log count env
    _ = { State.serve env s with hostLog := log, freeCount := count } := by rw [← hovr]; rfl

/-- Settles O60: a host access moves only what serving a command neither reads nor writes. -/
theorem hostAccessDoesNotDisturbCommand : Obligations.HostAccessDoesNotDisturbCommand := by
  intro s a w env hbusy
  constructor
  · exact (congrArg (State.serve env) (hostWrite_eq_of_busy hbusy a w)).trans (serve_with_ovr env s _)
  · obtain ⟨word, n, hread⟩ := hostRead_eq s a
    rw [hread]
    exact serve_with_reads env s _ n

end Sys2Proof.Machine
end

section
/-! ## The command word

The opcode map read in both directions (`command_fields`, `fields_of_command`) gives the two round trips;
the reserved bits of R97's masks are the fields that an opcode does not use (`reservedZero_iff_mask`). -/

namespace Sys2Proof

/-! ### The flags of BLIT -/

/-- The flag field read flag by flag (R92, R95). -/
theorem flags_blitFlags (bpp8 srclsb palq : Bool) :
    (blitFlags bpp8 srclsb palq).getLsbD 0 = bpp8 ∧
      (blitFlags bpp8 srclsb palq).getLsbD 1 = srclsb ∧
        (blitFlags bpp8 srclsb palq).getLsbD 2 = palq := by
  decide +revert

/-- The flags are the whole flag field (R92, R95). -/
theorem blitFlags_flags (f : Fields) : blitFlags f.bpp8 f.srclsb f.palq = f.fl := by
  have hall : ∀ fl : BitVec 3,
      blitFlags (fl.getLsbD 0) (fl.getLsbD 1) (fl.getLsbD 2) = fl := by decide
  exact hall f.fl

/-- The command of the opcode map's row for opcode 0x7 (R94, R95). -/
def Fields.blitCommand (f : Fields) : Instr :=
  if f.bpp8 then .blit8 f.srclsb f.palq f.a f.b f.c f.e
  else .blit1 f.srclsb f.palq f.a f.b f.c f.e

theorem fields_blitCommand (f : Fields) :
    f.blitCommand.fields = ⟨7, false, f.fl, f.a, f.b, f.c, 0, f.e⟩ := by
  unfold Fields.blitCommand
  rw [← blitFlags_flags f]
  cases f.bpp8 <;> rfl

theorem blitCommand_of_flags (bpp8 srclsb palq : Bool) (x y count : Byte) (srcoff : BitVec 24) :
    Fields.blitCommand ⟨7, false, blitFlags bpp8 srclsb palq, x, y, count, 0, srcoff⟩
      = if bpp8 then .blit8 srclsb palq x y count srcoff else .blit1 srclsb palq x y count srcoff := by
  obtain ⟨hbpp, hlsb, hpalq⟩ := flags_blitFlags bpp8 srclsb palq
  simp only [Fields.blitCommand, Fields.bpp8, Fields.srclsb, Fields.palq, hbpp, hlsb, hpalq]

/-- BLIT has a command word unless BPP8 and SRCLSB are both 1 (R97). -/
theorem wellFormed_blitCommand (f : Fields) :
    f.blitCommand.wellFormed = !(f.bpp8 && f.srclsb) := by
  unfold Fields.blitCommand
  cases f.bpp8 <;> rfl

/-! ### The opcode map in both directions -/

/-- The opcode map gives back a command from its fields, and the fields the opcode does not use are
zero (R94, R97). -/
theorem command_fields (i : Instr) :
    ∃ u, i.fields.command = some (u, i) ∧ i.fields.reservedZero u = true := by
  cases i with
  | blit1 srclsb palq x y count srcoff =>
    exact ⟨_, congrArg (fun i => some (_, i))
      (blitCommand_of_flags false srclsb palq x y count srcoff), rfl⟩
  | blit8 srclsb palq x y count srcoff =>
    exact ⟨_, congrArg (fun i => some (_, i))
      (blitCommand_of_flags true srclsb palq x y count srcoff), rfl⟩
  | _ => exact ⟨_, rfl, rfl⟩

/-- Fields whose unused fields are zero are the fields of the command they make (R94, R97): the row gives
the opcode, the command keeps the used fields, and the unused ones are zero on both sides. -/
theorem fields_of_command {f : Fields} {u : Uses} {i : Instr} (hc : f.command = some (u, i))
    (hz : f.reservedZero u = true) : i.fields = f := by
  unfold Fields.command at hc
  split at hc
  case h_8 hop =>
    cases hc
    refine (fields_blitCommand f).trans ?_
    cases f
    simp_all [Fields.reservedZero, ← BitVec.toNat_inj]
  case h_12 => cases hc
  all_goals
    cases hc
    cases f
    simp_all [Fields.reservedZero, Instr.fields, ← BitVec.toNat_inj]

/-- The opcodes without a row are 0xB to 0xF (R96). -/
theorem command_eq_none_iff (f : Fields) : f.command = none ↔ 0xB ≤ f.op.toNat := by
  unfold Fields.command
  split
  case h_12 => simp only [true_iff]; grind
  all_goals
    rename_i hop
    simp [hop]

/-- The one row of the opcode map with a command that has no word is BLIT's (R97). -/
theorem wellFormed_of_command {f : Fields} {u : Uses} {i : Instr} (hc : f.command = some (u, i)) :
    i.wellFormed = !(decide (f.op.toNat = 7) && f.bpp8 && f.srclsb) := by
  unfold Fields.command at hc
  split at hc
  case h_8 hop =>
    cases hc
    rw [hop]
    exact wellFormed_blitCommand f
  case h_12 => cases hc
  all_goals
    rename_i hop
    cases hc
    rw [hop]
    rfl

/-! ### Reserved bits as a mask -/

/-- Fields with 1 in every bit of the fields that are not used, the opcode aside (R97). -/
def Uses.maskFields (u : Uses) : Fields where
  op := 0
  col := !u.col
  fl := if u.fl then 0 else BitVec.allOnes 3
  a := if u.a then 0 else BitVec.allOnes 8
  b := if u.b then 0 else BitVec.allOnes 8
  c := if u.c then 0 else BitVec.allOnes 8
  d := if u.d then 0 else BitVec.allOnes 8
  e := if u.e then 0 else BitVec.allOnes 24

/-- The mask of R97's table is made of the fields that the opcode does not use. -/
theorem reservedMask_of_command {f : Fields} {u : Uses} {i : Instr} (hc : f.command = some (u, i)) :
    Fields.ofWord (Machine.reservedMask f.op.toNat) = u.maskFields := by
  unfold Fields.command at hc
  split at hc
  case h_12 => cases hc
  all_goals
    rename_i hop
    cases hc
    rw [hop]
    decide

/-- A word is zero exactly when each of its fields is (R92). -/
theorem eq_zero_iff_fields (w : Cmd) : w = 0 ↔ Fields.ofWord w = ⟨0, false, 0, 0, 0, 0, 0, 0⟩ := by
  constructor
  · rintro rfl
    decide
  · intro h
    rw [← toWord_ofWord w, h]
    decide

/-- A field under its part of the mask. -/
theorem field_and_mask_eq_zero_iff {n : Nat} (used : Bool) (x : BitVec n) :
    (x &&& if used = true then 0 else BitVec.allOnes n) = 0 ↔ (used || x == 0) = true := by
  cases used
  · simp only [Bool.false_eq_true, if_false, BitVec.and_allOnes, Bool.false_or, beq_iff_eq]
  · simp only [if_true, Bool.true_or, iff_true]
    exact BitVec.and_zero

theorem flag_and_mask_eq_false_iff (used x : Bool) :
    (x && !used) = false ↔ (used || !x) = true := by
  decide +revert

/-- The fields that an opcode does not use are zero exactly when the word has no bit of the mask
(R97). -/
theorem reservedZero_iff_mask {w : Cmd} {u : Uses} {i : Instr}
    (hc : (Fields.ofWord w).command = some (u, i)) :
    (Fields.ofWord w).reservedZero u = true ↔
      w &&& Machine.reservedMask (Fields.ofWord w).op.toNat = 0 := by
  have hmask := reservedMask_of_command hc
  generalize Machine.reservedMask (Fields.ofWord w).op.toNat = mask at hmask ⊢
  simp only [Fields.ofWord, Uses.maskFields, Fields.mk.injEq] at hmask
  obtain ⟨hop, hcol, hfl, ha, hb, hc, hd, he⟩ := hmask
  have hopcode : w.extractLsb' 0 4 &&& 0 = 0 := BitVec.and_zero
  rw [eq_zero_iff_fields]
  simp only [Fields.ofWord, BitVec.extractLsb'_and, BitVec.getLsbD_and, Fields.mk.injEq,
    hop, hcol, hfl, ha, hb, hc, hd, he, hopcode, flag_and_mask_eq_false_iff,
    field_and_mask_eq_zero_iff, Fields.reservedZero, Bool.and_eq_true, and_assoc, true_and]

/-! ### The decoder -/

theorem decode_of_none {w : Cmd} (hc : (Fields.ofWord w).command = none) :
    decode w = .error .illegalOp := by
  simp only [decode, hc]

theorem decode_of_command {w : Cmd} {u : Uses} {i : Instr}
    (hc : (Fields.ofWord w).command = some (u, i)) :
    decode w
      = if (Fields.ofWord w).reservedZero u && i.wellFormed then .ok i else .error .rsvd := by
  simp only [decode, hc]

/-- A word decodes to `i` when the opcode map makes `i` of its fields, no reserved bit is 1 and `i` is
well-formed (R94, R97). -/
theorem decode_eq_ok_iff {w : Cmd} {i : Instr} :
    decode w = .ok i ↔ ∃ u, (Fields.ofWord w).command = some (u, i) ∧
      (Fields.ofWord w).reservedZero u = true ∧ i.wellFormed = true := by
  constructor
  · intro h
    cases hc : (Fields.ofWord w).command with
    | none => cases h.symm.trans (decode_of_none hc)
    | some p =>
      obtain ⟨u, j⟩ := p
      rw [decode_of_command hc] at h
      split at h
      case isTrue hchecks =>
        cases h
        exact ⟨u, rfl, Bool.and_eq_true_iff.1 hchecks⟩
      case isFalse => cases h
  · rintro ⟨u, hc, hz, hwf⟩
    rw [decode_of_command hc, hz, hwf]
    rfl

/-- Settles O1: the fields put into the word are the fields read from it, and the opcode map gives the
command back. -/
theorem decodeEncodeRoundTrip : Obligations.DecodeEncodeRoundTrip := by
  intro i hwf
  obtain ⟨u, hc, hz⟩ := command_fields i
  rw [decode_eq_ok_iff, encode, ofWord_toWord]
  exact ⟨u, hc, hz, hwf⟩

/-- Settles O2: with the unused fields zero, the word's fields are the command's, and the fields are the
whole word. -/
theorem encodeDecodeRoundTrip : Obligations.EncodeDecodeRoundTrip := by
  intro w i hdec
  obtain ⟨u, hc, hz, hwf⟩ := decode_eq_ok_iff.1 hdec
  exact ⟨hwf, by rw [encode, fields_of_command hc hz, toWord_ofWord]⟩

/-! ### Words that are rejected -/

/-- Performing a word that does not decode only records its error and ends the command (R96, R97). -/
theorem runCommand_of_error {w : Cmd} {e : DecodeError} (h : decode w = .error e)
    (s : Machine.State) : Machine.runCommand w s = .next (s.rejectWord e) := by
  simp only [Machine.runCommand, h, Machine.rejectCommand]

/-- Settles O3: the opcode map has no row for such an opcode. -/
theorem illegalOpcodeRejected : Obligations.IllegalOpcodeRejected := by
  intro w hop
  have hdec : decode w = .error .illegalOp := decode_of_none ((command_eq_none_iff _).2 hop)
  exact ⟨hdec, rfl, runCommand_of_error hdec⟩

/-- R97: a reserved bit of the opcode is 1, or the word is a BLIT with BPP8 and SRCLSB both 1. -/
def RsvdWord (w : Cmd) : Prop :=
  w &&& Machine.reservedMask (w.extractLsb' 0 4).toNat ≠ 0 ∨
    (w.extractLsb' 0 4).toNat = 7 ∧ w.getLsbD 5 = true ∧ w.getLsbD 6 = true

/-- The decoder's two checks are those of R97. -/
theorem checks_iff_not_rsvdWord {w : Cmd} {u : Uses} {i : Instr}
    (hc : (Fields.ofWord w).command = some (u, i)) :
    ((Fields.ofWord w).reservedZero u && i.wellFormed) = true ↔ ¬RsvdWord w := by
  have hbpp : (Fields.ofWord w).bpp8 = w.getLsbD 5 := by simp [Fields.ofWord, Fields.bpp8]
  have hlsb : (Fields.ofWord w).srclsb = w.getLsbD 6 := by simp [Fields.ofWord, Fields.srclsb]
  rw [Bool.and_eq_true, reservedZero_iff_mask hc, wellFormed_of_command hc, hbpp, hlsb, RsvdWord,
    not_or, not_not, Bool.not_eq_true', Bool.eq_false_iff, ne_eq, Bool.and_eq_true,
    Bool.and_eq_true, decide_eq_true_eq, and_assoc]
  rfl

/-- A word with an opcode of the map raises RSVD or is a command, as R97 says. -/
theorem decode_of_opcode_le {w : Cmd} (hop : (w.extractLsb' 0 4).toNat ≤ 0xA) :
    ∃ i, (RsvdWord w → decode w = .error .rsvd) ∧ (¬RsvdWord w → decode w = .ok i) := by
  cases hc : (Fields.ofWord w).command with
  | none =>
    have hge : 0xB ≤ (w.extractLsb' 0 4).toNat := (command_eq_none_iff _).1 hc
    omega
  | some p =>
    obtain ⟨u, i⟩ := p
    have hchecks := checks_iff_not_rsvdWord hc
    rw [decode_of_command hc]
    exact ⟨i, fun hr => if_neg fun h => hchecks.1 h hr, fun hr => if_pos (hchecks.2 hr)⟩

/-- Settles O4: the mask collects the bits of the fields the opcode does not use. -/
theorem reservedBitsRejected : Obligations.ReservedBitsRejected := by
  intro w hop
  obtain ⟨i, hrsvd, hok⟩ := decode_of_opcode_le hop
  refine ⟨⟨fun h => ?_, hrsvd⟩, fun hr => ⟨i, hok hr⟩, rfl, runCommand_of_error⟩
  by_contra hr
  cases h.symm.trans (hok hr)

/-- Settles O5: each word decoded, one per row of the opcode map. -/
theorem sampleWordsDecode : Obligations.SampleWordsDecode := by
  unfold Obligations.SampleWordsDecode
  decide

end Sys2Proof
end

section
/-! ## The assembler

An operand fits its field when it is a value of the field (`operand_eq_some_iff`); the word of a command is
the sum of its fields at their places (`encode_toNat`). -/

namespace Sys2Proof

open Machine

/-! ### Operands -/

/-- The value of a field that a number stands for (R93, R99). -/
theorem operand_eq_some_iff {w n : Nat} {x : BitVec w} : operand w n = some x ↔ x.toNat = n := by
  unfold operand
  split
  case isTrue hn =>
    rw [Option.some.injEq, ← BitVec.toNat_inj, BitVec.toNat_ofNat, Nat.mod_eq_of_lt hn, eq_comm]
  case isFalse hn =>
    have hx := x.isLt
    simp only [reduceCtorEq, false_iff]
    omega

/-- The colour of a colour operand (R99). -/
theorem colorOperand_eq_some_iff {n : Nat} {b : Bool} : colorOperand n = some b ↔ b.toNat = n := by
  have hbit : ∀ c : BitVec 1, c.getLsbD 0 = b ↔ c = BitVec.ofBool b := by decide +revert
  simp only [colorOperand, Option.map_eq_some_iff, operand_eq_some_iff, hbit, exists_eq_right,
    BitVec.toNat_ofBool]

/-- A line is rejected for an operand that does not fit, whatever comes after it (R99). -/
theorem any_operand (w n : Nat) (p : Bool) :
    (operand w n).any (fun _ => p) = (decide (n < 2 ^ w) && p) := by
  unfold operand
  split <;> simp_all

theorem isSome_operand (w n : Nat) : (operand w n).isSome = decide (n < 2 ^ w) := by
  unfold operand
  split <;> simp_all

theorem isSome_colorOperand (n : Nat) : (colorOperand n).isSome = isColor n := by
  rw [colorOperand, Option.isSome_map, isSome_operand]
  rfl

/-! ### The word as a number -/

/-- A command word is the sum of its fields at their places (R92). -/
theorem encode_toNat (i : Instr) :
    (encode i).toNat = i.fields.op.toNat + i.fields.col.toNat * 2 ^ 4 + i.fields.fl.toNat * 2 ^ 5 +
      i.fields.a.toNat * 2 ^ 8 + i.fields.b.toNat * 2 ^ 16 + i.fields.c.toNat * 2 ^ 24 +
      i.fields.d.toNat * 2 ^ 32 + i.fields.e.toNat * 2 ^ 40 := by
  simp only [encode, Fields.toWord, toNat_append_eq, BitVec.toNat_ofBool]
  omega

theorem blitFlags_toNat (bpp8 srclsb palq : Bool) :
    (blitFlags bpp8 srclsb palq).toNat = bpp8.toNat + srclsb.toNat * 2 + palq.toNat * 4 := by
  decide +revert

/-! ### Lines -/

/-- The assembler accepts the lines of R99 and R100. -/
theorem isSome_assemble (l : AsmLine) : (assemble l).isSome = acceptable l := by
  cases l with
  | blit bpp lsb pq x y count srcoff =>
    have hdepth (x y count : Byte) (srcoff : BitVec 24) :
        (if bpp = 1 then some (Instr.blit1 lsb pq x y count srcoff)
          else if bpp = 8 ∧ lsb = false then some (.blit8 false pq x y count srcoff)
          else none).isSome = (bpp == 1 || bpp == 8 && !lsb) := by
      repeat' split
      all_goals simp_all
    simp [assemble, acceptable, Option.isSome_bind, hdepth, any_operand, fits8, fits24,
      Bool.and_assoc]
  | _ =>
    simp [assemble, acceptable, Option.isSome_bind, any_operand, isSome_operand,
      isSome_colorOperand, fits8, fits24, Bool.and_assoc]

/-- The command of an accepted line is well-formed and its word is the one R99 and R100 give. -/
theorem encode_of_assemble {l : AsmLine} {i : Instr} (h : assemble l = some i) :
    i.wellFormed = true ∧ (encode i).toNat = lineWord l := by
  rw [encode_toNat]
  cases l
  all_goals simp only [assemble, Option.bind_eq_bind, Option.bind_eq_some_iff, operand_eq_some_iff,
    colorOperand_eq_some_iff, Option.pure_def, Option.some.injEq] at h
  case nop | clear | flush | init | refresh =>
    subst h
    exact ⟨rfl, rfl⟩
  case quant | gla | xform =>
    obtain ⟨x, rfl, rfl⟩ := h
    exact ⟨rfl, by simp [Instr.fields, lineWord]⟩
  case set | reset =>
    obtain ⟨x, rfl, y, rfl, rfl⟩ := h
    exact ⟨rfl, by simp [Instr.fields, lineWord]⟩
  case point =>
    obtain ⟨x, rfl, y, rfl, c, rfl, rfl⟩ := h
    exact ⟨rfl, by simp [Instr.fields, lineWord]⟩
  case hline | vline =>
    obtain ⟨x, rfl, y, rfl, z, rfl, c, rfl, rfl⟩ := h
    exact ⟨rfl, by simp [Instr.fields, lineWord]⟩
  case fill =>
    obtain ⟨x1, rfl, y1, rfl, x2, rfl, y2, rfl, c, rfl, rfl⟩ := h
    exact ⟨rfl, by simp [Instr.fields, lineWord]⟩
  case blit bpp lsb pq _ _ _ _ =>
    obtain ⟨x, rfl, y, rfl, count, rfl, srcoff, rfl, hi⟩ := h
    split at hi
    case isTrue hbpp =>
      cases hi
      refine ⟨rfl, ?_⟩
      cases lsb <;> cases pq <;> simp [Instr.fields, lineWord, hbpp, blitFlags_toNat]
    split at hi
    case isTrue hbpp =>
      obtain ⟨rfl, rfl⟩ := hbpp
      cases hi
      exact ⟨rfl, by cases pq <;> simp [Instr.fields, lineWord, blitFlags_toNat]⟩
    case isFalse => cases hi

/-- Settles O6: each line by its operands. -/
theorem assemblerFollowsSyntaxTable : Obligations.AssemblerFollowsSyntaxTable :=
  fun l => ⟨isSome_assemble l, fun _ => encode_of_assemble⟩

end Sys2Proof
end

section
/-! ## The accepted word performed, and the errors of BLIT

The error of a BLIT is the first check that applies in the order of R213 (`blitError_eq`), and it ends the
command with its code and no effect (`blit_raises`). -/

namespace Sys2Proof.Machine

/-! ### The engine's turn -/

/-- The engine's turn is a move that starts the accepted command (R90, log entry 1). -/
theorem nextMove_of_engineTurn {s t : State} {w : Cmd} (h : engineTurn s w t) :
    s.nextMove = .start w t := by
  obtain ⟨heng, hpending, ⟨henv | ⟨o, env, henv⟩, rfl⟩ | ⟨env, henv, rfl⟩⟩ := h
  · simp only [State.nextMove, henv, State.engineMove, heng, hpending]
  · simp only [State.nextMove, henv, State.answerMove, heng, hpending]
  · simp only [State.nextMove, henv, State.engineMove, heng, hpending]

/-- Settles O7: the engine starts the accepted word, which is decoded and performed. -/
theorem stepRunsDecodedCommand : Obligations.StepRunsDecodedCommand := by
  intro s t w hturn
  rw [step_of_start (nextMove_of_engineTurn hturn)]
  exact ⟨fun i hdec => by rw [runCommand, hdec], fun hdec => runCommand_of_error hdec t,
    fun hdec => runCommand_of_error hdec t⟩

/-! ### The checks of a BLIT, in order -/

/-- A BLIT with an error only records it and ends (R114, R140, R212). -/
theorem blit_raises {s : State} {b : Blit} {code : ErrCode} (h : s.blitError b = code)
    (hcode : code ≠ .ok) : s.blit b = .next { s with err := code, eng := .idle } := by
  rw [State.blit, h, checked_error s code _ hcode]
  rfl

/-- The destination is not inside the framebuffer (R131). -/
abbrev Blit.OutOfBounds (b : Blit) (p : Config.Params) : Prop :=
  b.x ≥ p.width ∨ b.y ≥ p.height ∨ b.x + b.n > p.width

/-- Some pixel's index is not below the declared palette (R139). -/
abbrev State.BadIndex (s : State) (b : Blit) : Prop :=
  ∃ i < b.n, s.srcIdx b (b.srcPos i) ≥ s.palLen.toNat

/-- The error of a BLIT: the first check that applies (R131, R137 to R139, R213). -/
theorem blitError_eq (s : State) (b : Blit) :
    s.blitError b
      = if b.OutOfBounds s.params then .bounds
        else if b.bpp8 = true ∧ b.off % 8 ≠ 0 then .srcAlign
        else if b.off + b.n * b.bpp > 8 * s.srcLen.toNat then .srcRange
        else if s.BadIndex b then .palRange else .ok := by
  have hidx : ((s.blitIdx b).any fun idx => decide (idx ≥ s.palLen.toNat)) = decide (s.BadIndex b) := by
    rw [Bool.eq_iff_iff]
    simp only [State.blitIdx, List.any_map, List.any_eq_true, List.mem_range, Function.comp_apply,
      decide_eq_true_eq]
  simp only [State.blitError, firstError, hidx, Bool.or_eq_true, Bool.and_eq_true, bne_iff_ne,
    decide_eq_true_eq, or_assoc]

section

variable {s : State} {b : Blit}

theorem blit_bounds (hout : b.OutOfBounds s.params) :
    s.blit b = .next { s with err := .bounds, eng := .idle } :=
  blit_raises (by rw [blitError_eq, if_pos hout]) (by decide)

theorem blit_srcAlign (hin : ¬b.OutOfBounds s.params) (halign : b.bpp8 = true ∧ b.off % 8 ≠ 0) :
    s.blit b = .next { s with err := .srcAlign, eng := .idle } :=
  blit_raises (by rw [blitError_eq, if_neg hin, if_pos halign]) (by decide)

theorem blit_srcRange (hin : ¬b.OutOfBounds s.params) (halign : ¬(b.bpp8 = true ∧ b.off % 8 ≠ 0))
    (hrange : b.off + b.n * b.bpp > 8 * s.srcLen.toNat) :
    s.blit b = .next { s with err := .srcRange, eng := .idle } :=
  blit_raises (by rw [blitError_eq, if_neg hin, if_neg halign, if_pos hrange]) (by decide)

theorem blit_palRange (hin : ¬b.OutOfBounds s.params) (halign : ¬(b.bpp8 = true ∧ b.off % 8 ≠ 0))
    (hrange : b.off + b.n * b.bpp ≤ 8 * s.srcLen.toNat) (hidx : s.BadIndex b) :
    s.blit b = .next { s with err := .palRange, eng := .idle } :=
  blit_raises
    (by rw [blitError_eq, if_neg hin, if_neg halign, if_neg (Nat.not_lt.2 hrange), if_pos hidx])
    (by decide)

end

/-! ### The indices of a BLIT -/

/-- One bit of a byte, taken by shift and mask. -/
theorem toNat_shiftRight_and_one (x : Byte) (k : Nat) :
    ((x >>> k) &&& 1#8).toNat = (x.getLsbD k).toNat := by
  rw [BitVec.getLsbD, Nat.toNat_testBit, BitVec.toNat_and, BitVec.toNat_ushiftRight,
    Nat.shiftRight_eq_div_pow, BitVec.toNat_ofNat, Nat.one_mod, Nat.and_one_is_mod]

/-- The index of pixel `i` of a BLIT.1: one source bit, in the order SRCLSB says (R132, R133). -/
theorem srcIdx_blit1 (s : State) (srclsb palq : Bool) (x y count : Byte) (srcoff : BitVec 24) (i : Nat) :
    s.srcIdx (blit1Args srclsb palq x y count srcoff)
        ((blit1Args srclsb palq x y count srcoff).srcPos i)
      = ((s.srcByte ((srcoff.toNat + i) / 8)).getLsbD
          (if srclsb then (srcoff.toNat + i) % 8 else 7 - (srcoff.toNat + i) % 8)).toNat := by
  have hpos : (blit1Args srclsb palq x y count srcoff).srcPos i = srcoff.toNat + i := by
    simp [blit1Args, Blit.srcPos, Blit.bpp]
  rw [hpos]
  exact toNat_shiftRight_and_one _ _

/-- The index of pixel `i` of a BLIT.8: a source byte (R132, R133). -/
theorem srcIdx_blit8 (s : State) (palq : Bool) (x y count : Byte) (srcoff : BitVec 24) (i : Nat) :
    s.srcIdx (blit8Args palq x y count srcoff) ((blit8Args palq x y count srcoff).srcPos i)
      = (s.srcByte (srcoff.toNat / 8 + i)).toNat := by
  have hpos : (blit8Args palq x y count srcoff).srcPos i / 8 = srcoff.toNat / 8 + i :=
    Nat.add_mul_div_right _ _ (Nat.succ_pos 7)
  exact congrArg (fun j => (s.srcByte j).toNat) hpos

/-! ### The errors of the commands -/

/-- Settles O40: the checks in order, BLIT.8 with SRCLSB before them. -/
theorem blitErrorsInOrder : Obligations.BlitErrorsInOrder := by
  intro s srclsb palq x y count srcoff out raised
  have halign1 : ¬((blit1Args srclsb palq x y count srcoff).bpp8 = true ∧ srcoff.toNat % 8 ≠ 0) :=
    fun h => Bool.false_ne_true h.1
  have halign8 (h : srcoff.toNat % 8 = 0) :
      ¬((blit8Args palq x y count srcoff).bpp8 = true ∧ srcoff.toNat % 8 ≠ 0) := fun hn => hn.2 h
  have hend : srcoff.toNat + count.toNat
      = srcoff.toNat + count.toNat * (blit1Args srclsb palq x y count srcoff).bpp := by
    rw [show (blit1Args srclsb palq x y count srcoff).bpp = 1 from rfl, Nat.mul_one]
  refine ⟨fun hout => ?_, fun hin hrange => ?_, fun hin hrange hidx => ?_, rfl, fun hout => ?_,
    fun hin hoff => ?_, fun hin hoff hrange => ?_, fun hin hoff hrange hidx => ?_⟩
  · exact blit_bounds (b := blit1Args srclsb palq x y count srcoff) hout
  · exact blit_srcRange hin halign1 (hend ▸ hrange)
  · simp only [← srcIdx_blit1 s srclsb palq x y count] at hidx
    exact blit_palRange hin halign1 (hend ▸ hrange) hidx
  · exact blit_bounds (b := blit8Args palq x y count srcoff) hout
  · exact blit_srcAlign hin ⟨rfl, hoff⟩
  · exact blit_srcRange hin (halign8 hoff) hrange
  · simp only [← srcIdx_blit8 s palq x y count] at hidx
    exact blit_palRange hin (halign8 hoff) hrange hidx

end Sys2Proof.Machine
end

section
/-! ## The raster commands

A raster command checks its range once (`rangeCheck_eq`) and then draws its rows with one row mask
(`exec_point`, `exec_hline`, `exec_vline`, `exec_fill`). What drawing rows leaves (`exec_draws`) and what a
BLIT leaves (`blit_copies`) are said once each. That a VLINE or a FILL is a sequence of one-row commands is
one induction over the rows (`afterAll_oneRow`). -/

namespace Sys2Proof.Machine

/-! ### Masks and composition -/

/-- Settles O27, by the bits of the mask's byte `c / 8`. -/
theorem rowmaskBits : Obligations.RowmaskBits := by
  intro p x1 x2 hp _ _
  refine ⟨rowmask_length p x1 x2, fun c hc => ?_⟩
  rw [rowmask_get p x1 x2 _ (column_byte hp hc), Option.getD_some,
    maskByte_bit x1 x2 _ _ (Nat.mod_lt c (by decide)), Nat.div_add_mod c 8]

/-- Settles O28: in row `r` bit by bit (R111), elsewhere because only that row is written. -/
theorem composeFollowsMask : Obligations.ComposeFollowsMask := by
  intro p m r mask color hp hmask
  refine ⟨fun r' c hc => ?_, fun o ho => fbRead_compose_outside p m r mask color hmask o ho⟩
  unfold fbBit
  rw [fbRead_compose p m r mask color hmask r' _ (column_byte hp hc)]
  by_cases hr : r' = r
  · subst hr
    rw [if_pos rfl, composeByte_bit color _ _ _ (Nat.mod_lt c (by decide))]
    simp only [true_and]
  · rw [if_neg hr, if_neg fun h => hr h.1]

/-! ### The range check -/

/-- Columns `x1 .. x2` and rows `y1 .. y2` are ranges inside the framebuffer (R113). -/
abbrev InRange (p : Config.Params) (x1 x2 y1 y2 : Nat) : Prop :=
  (x1 ≤ x2 ∧ x2 < p.width) ∧ y1 ≤ y2 ∧ y2 < p.height

/-- The check of the raster commands that take coordinates (R113). -/
theorem rangeCheck_eq (p : Config.Params) (x1 x2 y1 y2 : Nat) :
    firstError [(badColumns p x1 x2 || badRows p y1 y2, .bounds)]
      = if InRange p x1 x2 y1 y2 then .ok else .bounds := by
  have hbad : (badColumns p x1 x2 || badRows p y1 y2) = false ↔ InRange p x1 x2 y1 y2 := by
    rw [Bool.or_eq_false_iff, badColumns_eq_false, badRows_eq_false]
  rw [firstError_single]
  by_cases h : InRange p x1 x2 y1 y2
  · rw [if_pos h, hbad.2 h, if_neg Bool.false_ne_true]
  · rw [if_neg h, if_pos (Bool.eq_true_of_not_eq_false (mt hbad.1 h))]

section

variable {s : State} {x1 x2 y1 y2 : Nat} {effect : State → State}

/-- A command in range has its effect and completes. -/
theorem checked_of_inRange (h : InRange s.params x1 x2 y1 y2) :
    s.checked (firstError [(badColumns s.params x1 x2 || badRows s.params y1 y2, .bounds)]) effect
      = .next (effect s).complete := by
  rw [rangeCheck_eq, if_pos h, checked_ok]

/-- A command out of range raises BOUNDS and has no effect (R113, R114). -/
theorem checked_of_not_inRange (h : ¬InRange s.params x1 x2 y1 y2) :
    s.checked (firstError [(badColumns s.params x1 x2 || badRows s.params y1 y2, .bounds)]) effect
      = .next { s with err := .bounds, eng := .idle } := by
  rw [rangeCheck_eq, if_neg h, checked_error _ _ _ (by decide)]
  rfl

end

/-- Settles O33: the check of POINT, HLINE, VLINE and FILL fails, and so does BLIT's first. -/
theorem badCoordinatesRejected : Obligations.BadCoordinatesRejected := by
  refine ⟨rfl, fun s a b c d color => ⟨fun hout => ?_, fun hout => ?_, fun hout => ?_, fun hout => ?_,
    fun srclsb palq srcoff hout => ⟨?_, ?_⟩⟩⟩
  · unfold exec execPoint
    exact checked_of_not_inRange (by omega)
  · unfold exec execHline
    exact checked_of_not_inRange (by omega)
  · unfold exec execVline
    exact checked_of_not_inRange (by omega)
  · unfold exec execFill
    exact checked_of_not_inRange (by omega)
  · exact blit_bounds (b := blit1Args srclsb palq a b c srcoff) hout
  · exact blit_bounds (b := blit8Args palq a b c srcoff) hout

/-! ### The commands in range -/

section

variable {s : State} {x x1 x2 y y1 y2 : Byte}

/-- POINT in range draws one column of one row (R120). -/
theorem exec_point (hx : x.toNat < s.params.width) (hy : y.toNat < s.params.height) (color : Bool) :
    exec (.point x y color) s
      = .next (s.drawRows (rowmask s.params x.toNat x.toNat) color [y.toNat]).complete := by
  unfold exec execPoint
  exact checked_of_inRange ⟨⟨Nat.le_refl _, hx⟩, Nat.le_refl _, hy⟩

/-- HLINE in range draws its columns of one row (R122). -/
theorem exec_hline (hx : x1.toNat ≤ x2.toNat) (hx2 : x2.toNat < s.params.width)
    (hy : y.toNat < s.params.height) (color : Bool) :
    exec (.hline x1 x2 y color) s
      = .next (s.drawRows (rowmask s.params x1.toNat x2.toNat) color [y.toNat]).complete := by
  unfold exec execHline
  exact checked_of_inRange ⟨⟨hx, hx2⟩, Nat.le_refl _, hy⟩

/-- VLINE in range draws one column of its rows (R124). -/
theorem exec_vline (hx : x.toNat < s.params.width) (hy : y1.toNat ≤ y2.toNat)
    (hy2 : y2.toNat < s.params.height) (color : Bool) :
    exec (.vline x y1 y2 color) s
      = .next (s.drawRows (rowmask s.params x.toNat x.toNat) color
          (rowRange y1.toNat y2.toNat)).complete := by
  unfold exec execVline
  exact checked_of_inRange ⟨⟨Nat.le_refl _, hx⟩, hy, hy2⟩

/-- FILL in range draws its columns of its rows (R126). -/
theorem exec_fill (hx : x1.toNat ≤ x2.toNat) (hx2 : x2.toNat < s.params.width)
    (hy : y1.toNat ≤ y2.toNat) (hy2 : y2.toNat < s.params.height) (color : Bool) :
    exec (.fill x1 y1 x2 y2 color) s
      = .next (s.drawRows (rowmask s.params x1.toNat x2.toNat) color
          (rowRange y1.toNat y2.toNat)).complete := by
  unfold exec execFill
  exact checked_of_inRange ⟨⟨hx, hx2⟩, hy, hy2⟩

end

/-! ### What drawing leaves -/

/-- The DIRTY flags after rows of the framebuffer are marked (R112). -/
theorem getLsbD_setRows_of_legal {s : State} (hp : s.params.legal) {rows : List Nat}
    (hrows : ∀ r ∈ rows, r < s.params.height) (r : Nat) :
    (setRows s.dirty rows).getLsbD r = (s.isDirty r || decide (r ∈ rows)) := by
  have hlt : r ∈ rows → r < Config.dirtyBits := fun hr => row_lt_dirtyBits hp (hrows r hr)
  rw [getLsbD_setRows, ← Bool.decide_and, decide_eq_decide.2 (and_iff_right_of_imp hlt)]
  rfl

/-- Everything that a command leaves which draws rows of the framebuffer with one row mask and completes
(R110 to R112). -/
theorem exec_draws {i : Instr} {s : State} {x1 x2 : Nat} {color : Bool} {rows : List Nat}
    (hp : s.params.legal) (hrows : ∀ r ∈ rows, r < s.params.height)
    (hexec : exec i s = .next (s.drawRows (rowmask s.params x1 x2) color rows).complete) :
    ∃ (m : Memory) (d : BitVec Config.dirtyBits),
      exec i s = .next { s with fb := m, dirty := d, err := .ok, eng := .idle } ∧
      (∀ r c, c < s.params.width →
        fbBit s.params m r c
          = if r ∈ rows ∧ x1 ≤ c ∧ c ≤ x2 then color else fbBit s.params s.fb r c) ∧
      (∀ o, o / s.params.rowBytes ∉ rows → fbRead m o = fbRead s.fb o) ∧
      ∀ r, d.getLsbD r = (s.isDirty r || decide (r ∈ rows)) := by
  rw [drawRows_eq] at hexec
  exact ⟨_, _, hexec, fun r c hc => fbBit_composeRows hp s.fb x1 x2 color rows r c hc,
    fun o ho => fbRead_composeRows_outside s.params s.fb _ color (rowmask_length _ x1 x2) rows o ho,
    getLsbD_setRows_of_legal hp hrows⟩

/-- The rows up to `y2` are rows of the framebuffer. -/
theorem lt_of_mem_rowRange {y1 y2 height r : Nat} (hy2 : y2 < height) (hr : r ∈ rowRange y1 y2) :
    r < height :=
  (mem_rowRange.1 hr).2.trans_lt hy2

/-- Settles O29: POINT draws the row list `[y]` with the mask of column `x` alone. -/
theorem pointDrawsOnePixel : Obligations.PointDrawsOnePixel := by
  intro s x y color hp hx hy
  have hrows : ∀ r ∈ [y.toNat], r < s.params.height := List.forall_mem_singleton.2 hy
  simpa only [List.mem_singleton, ← ge_antisymm_iff] using exec_draws hp hrows (exec_point hx hy color)

/-- Settles O30: HLINE draws the row list `[y]`. -/
theorem hlineDrawsColumns : Obligations.HlineDrawsColumns := by
  intro s x1 x2 y color hp hx hx2 hy
  have hrows : ∀ r ∈ [y.toNat], r < s.params.height := List.forall_mem_singleton.2 hy
  simpa only [List.mem_singleton] using exec_draws hp hrows (exec_hline hx hx2 hy color)

/-- Settles O31: VLINE draws the rows `y1 .. y2` with the mask of column `x` alone. -/
theorem vlineDrawsRows : Obligations.VlineDrawsRows := by
  intro s x y1 y2 color hp hx hy hy2
  simpa only [mem_rowRange, ← ge_antisymm_iff] using
    exec_draws hp (fun _ => lt_of_mem_rowRange hy2) (exec_vline hx hy hy2 color)

/-- Settles O32: FILL draws the rows `y1 .. y2`. -/
theorem fillDrawsRectangle : Obligations.FillDrawsRectangle := by
  intro s x1 y1 x2 y2 color hp hx hx2 hy hy2
  simpa only [mem_rowRange] using
    exec_draws hp (fun _ => lt_of_mem_rowRange hy2) (exec_fill hx hx2 hy hy2 color)

/-! ### Commands one after the other -/

/-- The state a command leaves is the next state it answers. -/
theorem after_of_exec {i : Instr} {s t : State} (h : exec i s = .next t) : after i s = t := by
  rw [after, h]

theorem afterAll_cons (i : Instr) (is : List Instr) (s : State) :
    afterAll (i :: is) s = afterAll is (after i s) := rfl

/-- Settles O34, from what POINT leaves. -/
theorem pointRoundTrip : Obligations.PointRoundTrip := by
  intro s c r color hp hc hr
  obtain ⟨m, d, hexec, hpixel, -, -⟩ := pointDrawsOnePixel s c r color hp hc hr
  rw [after_of_exec hexec]
  refine ⟨?_, fun c' hc' hne => ?_⟩
  · rw [hpixel _ _ hc, if_pos ⟨rfl, rfl⟩]
  · rw [hpixel _ _ hc', if_neg fun h => hne h.2]

/-- Settles O35, from what each HLINE leaves: a column outside the second line's range is one of the first
line's, or as it was. -/
theorem overlappingLines : Obligations.OverlappingLines := by
  intro s a1 a2 b1 b2 y hp ha ha2 hb hb2 hy c hc
  refine ⟨fun hunion => ?_, fun r hset hout => ?_⟩
  · obtain ⟨m, d, hfirst, hpixel, -, -⟩ := hlineDrawsColumns s a1 a2 y true hp ha ha2 hy
    obtain ⟨m', d', hsecond, hpixel', -, -⟩ :=
      hlineDrawsColumns { s with fb := m, dirty := d, err := .ok, eng := .idle }
        b1 b2 y true hp hb hb2 hy
    rw [afterAll_cons, after_of_exec hfirst, afterAll_cons, after_of_exec hsecond]
    refine (hpixel' _ _ hc).trans ?_
    by_cases hinB : b1.toNat ≤ c ∧ c ≤ b2.toNat
    · rw [if_pos ⟨rfl, hinB⟩]
    · have hinA : a1.toNat ≤ c ∧ c ≤ a2.toNat := hunion.resolve_right hinB
      rw [if_neg fun h => hinB h.2]
      exact (hpixel _ _ hc).trans (if_pos ⟨rfl, hinA⟩)
  · obtain ⟨m, d, hexec, hpixel, -, -⟩ := hlineDrawsColumns s b1 b2 y false hp hb hb2 hy
    rw [after_of_exec hexec]
    exact (hpixel _ _ hc).trans ((if_neg hout).trans hset)

/-- Commands that each draw one row with the same mask leave FB and DIRTY as drawing their rows together
does (R125, R127). `p` is fixed because the mask depends on the parameters. -/
theorem afterAll_oneRow {p : Config.Params} {cmd : Nat → Instr} {mask : List Byte} {color : Bool}
    {rows : List Nat}
    (hcmd : ∀ r ∈ rows, ∀ s : State, s.params = p →
      exec (cmd r) s = .next (s.drawRows mask color [r]).complete)
    {s : State} (hs : s.params = p) :
    (s.drawRows mask color rows).complete.fb = (afterAll (rows.map cmd) s).fb ∧
      (s.drawRows mask color rows).complete.dirty = (afterAll (rows.map cmd) s).dirty := by
  induction rows generalizing s with
  | nil => exact ⟨rfl, rfl⟩
  | cons r rows ih =>
    have hfirst := hcmd r List.mem_cons_self s hs
    rw [drawRows_eq] at hfirst
    have hrest := ih (fun q hq => hcmd q (List.mem_cons_of_mem r hq))
      (s := { s with fb := compose s.params s.fb r mask color, dirty := setRows s.dirty [r],
                     err := .ok, eng := .idle }) hs
    rw [drawRows_eq] at hrest
    rw [List.map_cons, afterAll_cons, after_of_exec hfirst, drawRows_eq]
    exact hrest

/-- The rows `y1 .. y2` as the statements list them. -/
theorem range'_eq_rowRange (y1 y2 : Nat) : List.range' y1 (y2 + 1 - y1) = rowRange y1 y2 :=
  List.range'_eq_map_range

/-- A row up to a byte operand fits a byte operand. -/
theorem toNat_ofNat_of_mem_rowRange {y1 r : Nat} {y2 : Byte} (hr : r ∈ rowRange y1 y2.toNat) :
    (BitVec.ofNat 8 r).toNat = r :=
  Nat.mod_eq_of_lt (lt_of_mem_rowRange y2.isLt hr)

/-- Commands with a row operand, one for each of the rows `y1 .. y2`, leave FB and DIRTY as drawing the rows
together does. -/
theorem afterAll_rowRange {s : State} {cmd : Byte → Instr} {mask : List Byte} {color : Bool} {y1 : Nat}
    {y2 : Byte} (hy2 : y2.toNat < s.params.height)
    (hcmd : ∀ (y : Byte) (t : State), t.params = s.params → y.toNat < s.params.height →
      exec (cmd y) t = .next (t.drawRows mask color [y.toNat]).complete) :
    let t := (s.drawRows mask color (rowRange y1 y2.toNat)).complete
    let t' := afterAll ((rowRange y1 y2.toNat).map fun y => cmd (BitVec.ofNat 8 y)) s
    t.fb = t'.fb ∧ t.dirty = t'.dirty := by
  refine afterAll_oneRow (fun r hr t ht => ?_) rfl
  have hrow := toNat_ofNat_of_mem_rowRange hr
  have hexec := hcmd (BitVec.ofNat 8 r) t ht (hrow.symm ▸ lt_of_mem_rowRange hy2 hr)
  rwa [hrow] at hexec

/-- POINTs down one column leave FB and DIRTY as drawing its rows together does. -/
theorem afterAll_points {s : State} {x y2 : Byte} (hx : x.toNat < s.params.width)
    (hy2 : y2.toNat < s.params.height) (y1 : Nat) (color : Bool) :
    let t := (s.drawRows (rowmask s.params x.toNat x.toNat) color (rowRange y1 y2.toNat)).complete
    let t' := afterAll ((rowRange y1 y2.toNat).map fun y => .point x (BitVec.ofNat 8 y) color) s
    t.fb = t'.fb ∧ t.dirty = t'.dirty :=
  afterAll_rowRange (cmd := fun y => .point x y color) hy2 fun _ _ ht hy => by
    rw [exec_point (ht ▸ hx) (ht ▸ hy), ht]

/-- Settles O36: both draw the rows `y1 .. y2` with the mask of column `x`. -/
theorem vlineIsPoints : Obligations.VlineIsPoints := by
  intro s x y1 y2 color hx hy hy2
  rw [after_of_exec (exec_vline hx hy hy2 color), range'_eq_rowRange]
  exact afterAll_points hx hy2 y1.toNat color

/-- Settles O37: all three draw the rows `y1 .. y2` with the mask of columns `x1 .. x2`. -/
theorem fillIsLines : Obligations.FillIsLines := by
  intro s x1 y1 x2 y2 color hx hx2 hy hy2
  rw [after_of_exec (exec_fill hx hx2 hy hy2 color), range'_eq_rowRange]
  constructor
  · exact afterAll_rowRange (cmd := fun y => .hline x1 x2 y color) hy2 fun _ _ ht hy => by
      rw [exec_hline hx (ht ▸ hx2) (ht ▸ hy), ht]
  · rintro rfl
    exact afterAll_points hx2 hy2 y1.toNat color

/-! ### BLIT -/

/-- A BLIT whose checks pass writes its row and completes (R130, R140). -/
theorem blit_of_checks {s : State} {b : Blit} (hin : ¬b.OutOfBounds s.params)
    (halign : ¬(b.bpp8 = true ∧ b.off % 8 ≠ 0)) (hrange : b.off + b.n * b.bpp ≤ 8 * s.srcLen.toNat)
    (hidx : ¬s.BadIndex b) : s.blit b = .next (s.blitRow b).complete := by
  rw [State.blit, blitError_eq, if_neg hin, if_neg halign, if_neg (Nat.not_lt.2 hrange), if_neg hidx,
    checked_ok]

/-- The DIRTY flags after a BLIT: its row's is set when there is a pixel (R141). -/
theorem blitRow_dirty {s : State} {b : Blit} (hp : s.params.legal) (hy : b.y < s.params.height)
    (r : Nat) :
    (s.blitRow b).dirty.getLsbD r = (s.isDirty r || decide (r = b.y ∧ 0 < b.n)) := by
  rw [blitRow_eq]
  by_cases hn : 0 < b.n
  · have hmark := getLsbD_setRows_of_legal hp (List.forall_mem_singleton.2 hy) r
    simpa only [gt_iff_lt, hn, if_true, and_true, List.mem_singleton] using hmark
  · simp only [gt_iff_lt, hn, if_false, and_false, decide_false, Bool.or_false, State.isDirty]

/-- Everything that a BLIT whose checks pass leaves, for any ways `index` and `color` of writing the indices
and the colours of its pixels (R130 to R136, R140, R141). -/
theorem blit_copies {s : State} {b : Blit} {index : Nat → Nat} {color : Nat → Bool}
    (hindex : ∀ i, s.srcIdx b (b.srcPos i) = index i)
    (hcolor : ∀ i, s.blitColor b (index i) = color i) (hp : s.params.legal)
    (hx : b.x < s.params.width) (hy : b.y < s.params.height) (hend : b.x + b.n ≤ s.params.width)
    (halign : ¬(b.bpp8 = true ∧ b.off % 8 ≠ 0)) (hrange : b.off + b.n * b.bpp ≤ 8 * s.srcLen.toNat)
    (hidx : ∀ i < b.n, index i < s.palLen.toNat) :
    ∃ (m : Memory) (d : BitVec Config.dirtyBits),
      s.blit b = .next { s with fb := m, dirty := d, err := .ok, eng := .idle } ∧
      (∀ r c, c < s.params.width →
        fbBit s.params m r c
          = if r = b.y ∧ b.x ≤ c ∧ c < b.x + b.n then color (c - b.x) else fbBit s.params s.fb r c) ∧
      (∀ o, o / s.params.rowBytes ≠ b.y → fbRead m o = fbRead s.fb o) ∧
      ∀ r, d.getLsbD r = (s.isDirty r || decide (r = b.y ∧ 0 < b.n)) := by
  have hin : ¬b.OutOfBounds s.params := by
    rintro (h | h | h)
    exacts [Nat.not_lt.2 h hx, Nat.not_lt.2 h hy, Nat.not_le.2 h hend]
  have hpal : ¬s.BadIndex b := fun ⟨i, hi, hbad⟩ => Nat.not_lt.2 hbad (hindex i ▸ hidx i hi)
  refine ⟨(s.blitRow b).fb, (s.blitRow b).dirty, ?_, fun r c hc => ?_,
    fun o ho => fbRead_blitRow_outside b s o ho, blitRow_dirty hp hy⟩
  · rw [blit_of_checks hin halign hrange hpal, blitRow_eq]
    rfl
  · rw [fbBit_blitRow b s r c hp hc, hindex, hcolor]

/-- The colour of a palette entry: quantized, or with PALQ whether its low byte is not 0 (R134, R135). -/
theorem blitColor_eq (s : State) (b : Blit) (idx : Nat) :
    s.blitColor b idx
      = if b.palq then decide ((s.palEntry idx).toNat % 256 ≠ 0)
        else decide (quant (s.palEntry idx) = 1) := by
  have hlow (rgb : Rgb) : (rgb.extractLsb' 0 8 != 0) = decide (rgb.toNat % 256 ≠ 0) := by
    rw [Bool.eq_iff_iff, bne_iff_ne, decide_eq_true_eq, ne_eq, ← BitVec.toNat_inj]
    rfl
  rw [State.blitColor, hlow, beq_eq_decide]

/-- Settles O38: BLIT.1 has no alignment check, and its source ends at `srcoff + count`. -/
theorem blitOneBitCopiesPixels : Obligations.BlitOneBitCopiesPixels := by
  intro s srclsb palq x y count srcoff hp index color hx hy hend hrange hidx
  let b := blit1Args srclsb palq x y count srcoff
  have halign : ¬(b.bpp8 = true ∧ b.off % 8 ≠ 0) := fun h => Bool.false_ne_true h.1
  have hbits : b.off + b.n * b.bpp ≤ 8 * s.srcLen.toNat := by
    rw [show b.bpp = 1 from rfl, Nat.mul_one]
    exact hrange
  exact blit_copies (srcIdx_blit1 s srclsb palq x y count srcoff) (fun i => blitColor_eq s b (index i))
    hp hx hy hend halign hbits hidx

/-- Settles O39: the offset of BLIT.8 is a multiple of 8, and its source ends at `srcoff + 8 * count`. -/
theorem blitEightBitCopiesPixels : Obligations.BlitEightBitCopiesPixels := by
  intro s palq x y count srcoff hp index color hx hy hend hoff hrange hidx
  let b := blit8Args palq x y count srcoff
  have halign : ¬(b.bpp8 = true ∧ b.off % 8 ≠ 0) := fun h => h.2 hoff
  exact blit_copies (srcIdx_blit8 s palq x y count srcoff) (fun i => blitColor_eq s b (index i))
    hp hx hy hend halign hrange hidx

end Sys2Proof.Machine
end

section
/-! ## The lookup unit, the quantizer and the queries

`rev8` is known by its bits (`getLsbD_rev8`) and undoes itself, so it and the functions made of it lose
nothing. The quantizer is known by its sum over the three bytes of a colour (`lumaSum_eq`), each at most 255;
the rest is arithmetic. What each query does is then the definition of its effect. -/

namespace Sys2Proof.Machine

/-! ### Reversed bytes -/

theorem getLsbD_lowBit_shiftLeft (x : Byte) (n i : Nat) :
    ((x &&& 1#8) <<< n).getLsbD i = (decide (i < 8) && decide (i = n) && x.getLsbD 0) := by
  rw [BitVec.getLsbD_shiftLeft, BitVec.getLsbD_and, BitVec.getLsbD_one]
  rcases Nat.lt_trichotomy i n with h | rfl | h
  · simp [h, h.ne]
  · simp
  · simp [h.ne', Nat.sub_ne_zero_of_lt h]

/-- The bits that `rev8` has placed after `n` turns of its loop (R150). -/
theorem getLsbD_foldl_reversed (b : Byte) (n i : Nat) :
    ((List.range n).foldl (fun acc j => acc ||| (((b >>> (7 - j)) &&& 1#8) <<< j)) 0#8).getLsbD i
      = (decide (i < 8) && decide (i < n) && b.getLsbD (7 - i)) := by
  induction n with
  | zero => simp
  | succ n ih =>
    rw [List.range_succ, List.foldl_append, List.foldl_cons, List.foldl_nil, BitVec.getLsbD_or, ih,
      getLsbD_lowBit_shiftLeft, BitVec.getLsbD_ushiftRight, Nat.add_zero]
    rcases Nat.lt_trichotomy i n with h | rfl | h
    · simp [h, h.ne, Nat.lt_succ_of_lt h]
    · simp
    · simp [h.not_gt, h.ne', Nat.not_lt.2 (Nat.succ_le_of_lt h)]

/-- Bit `i` of a reversed byte (R150). -/
theorem getLsbD_rev8 (b : Byte) {i : Nat} (hi : i < 8) : (rev8 b).getLsbD i = b.getLsbD (7 - i) := by
  rw [rev8, getLsbD_foldl_reversed, decide_eq_true hi, Bool.true_and, Bool.true_and]

theorem rev8_involutive : Function.Involutive rev8 := by
  intro b
  refine BitVec.eq_of_getLsbD_eq fun i hi => ?_
  rw [getLsbD_rev8 _ hi, getLsbD_rev8 _ (by omega), Nat.sub_sub_self (by omega)]

/-! ### Sent bytes -/

theorem xform_eq_not (b : Byte) : xform b = ~~~rev8 b := BitVec.xor_allOnes

theorem xform_bijective : Function.Bijective xform := by
  have hnot : Function.Involutive (fun b : Byte => ~~~b) := fun _ => BitVec.not_not
  rw [funext xform_eq_not]
  exact hnot.bijective.comp rev8_involutive.bijective

/-- A sent byte holds the complements of eight pixels, the first in its top bit (R42, R151). -/
theorem getLsbD_xform (b : Byte) {j : Nat} (hj : j < 8) : (xform b).getLsbD (7 - j) = !b.getLsbD j := by
  have hbit : 7 - j < 8 := by omega
  rw [xform_eq_not, BitVec.getLsbD_not, getLsbD_rev8 b hbit, Nat.sub_sub_self (by omega),
    decide_eq_true hbit, Bool.true_and]

/-- Pixel `8k + j` is bit `j` of byte `k` of its row (R42). -/
theorem fbBit_of_byte (p : Config.Params) (m : Memory) (r k : Nat) {j : Nat} (hj : j < 8) :
    fbBit p m r (8 * k + j) = (fbRead m (fbOffset p r k)).getLsbD j := by
  have hbyte : (8 * k + j) / 8 = k := by omega
  have hbit : (8 * k + j) % 8 = j := by omega
  rw [fbBit, hbyte, hbit]

/-- After the address, the payload of a row is the row's bytes as sent (R180). -/
theorem payloadSeq_data (s : State) (r : Nat) {k : Nat} (hk : k < s.params.rowBytes) :
    (s.payloadSeq r)[k + 1]? = some (.data, xform (fbRead s.fb (fbOffset s.params r k))) := by
  rw [State.payloadSeq, List.getElem?_cons_succ, List.getElem?_map, readRow_get?, if_pos hk]
  rfl

/-- Settles O20: `rev8` by its bits, `xform` as its complement, and the payload's bytes. -/
theorem sentBytesReverseAndInvert : Obligations.SentBytesReverseAndInvert := by
  refine ⟨fun b i hi => getLsbD_rev8 b hi, rev8_involutive, rev8_involutive.bijective, xform_eq_not,
    xform_bijective, by decide, by decide, fun s r k j hk hj => ?_⟩
  refine ⟨_, payloadSeq_data s r hk, ?_⟩
  rw [getLsbD_xform _ hj, fbBit_of_byte _ _ _ _ hj]

/-! ### Gate-line addresses -/

/-- Row numbers that with 1 added fit a byte have addresses of their own (R152, R153). -/
theorem gla_inj {r r' : Nat} (hr : r + 1 < 256) (hr' : r' + 1 < 256) (h : gla r = gla r') : r = r' := by
  have hnat := congrArg BitVec.toNat (rev8_involutive.injective h)
  rw [BitVec.toNat_ofNat, BitVec.toNat_ofNat, Nat.mod_eq_of_lt hr, Nat.mod_eq_of_lt hr'] at hnat
  exact Nat.succ.inj hnat

/-- 0x00 is the reverse of 0x00 only, and no row number with 1 added is 0 (R152, R153). -/
theorem gla_ne_zero {r : Nat} (hr : r + 1 < 256) : gla r ≠ 0x00 := by
  intro h
  have hrev : rev8 0x00 = 0x00 := by decide
  have hnat := congrArg BitVec.toNat (rev8_involutive.injective (h.trans hrev.symm))
  rw [BitVec.toNat_ofNat, Nat.mod_eq_of_lt hr] at hnat
  exact Nat.succ_ne_zero r hnat

/-- Settles O21: the rows of a legal panel with 1 added fit a byte. -/
theorem gateLineAddressInjective : Obligations.GateLineAddressInjective := by
  rintro p ⟨-, -, -, -, hheight⟩
  exact ⟨fun r r' hr hr' => gla_inj (by omega) (by omega), fun r hr => gla_ne_zero (by omega)⟩

/-! ### The quantizer -/

theorem red_eq (rgb : Rgb) : red rgb = rgb.toNat / 2 ^ 16 := by
  have hlt := rgb.isLt
  rw [red, BitVec.extractLsb'_toNat, Nat.shiftRight_eq_div_pow]
  omega

theorem green_eq (rgb : Rgb) : green rgb = rgb.toNat / 2 ^ 8 % 2 ^ 8 := by
  rw [green, BitVec.extractLsb'_toNat, Nat.shiftRight_eq_div_pow]

theorem blue_eq (rgb : Rgb) : blue rgb = rgb.toNat % 2 ^ 8 := by
  rw [blue, BitVec.extractLsb'_toNat, Nat.shiftRight_zero]

/-- The weighted sum over the bytes of a colour 0xRRGGBB (R155). -/
theorem lumaSum_eq (rgb : Rgb) :
    lumaSum rgb
      = rgb.toNat / 2 ^ 16 * 19661 + rgb.toNat / 2 ^ 8 % 2 ^ 8 * 38666 + rgb.toNat % 2 ^ 8 * 7209 := by
  rw [lumaSum, red_eq, green_eq, blue_eq]

theorem red_le (rgb : Rgb) : red rgb ≤ 255 := Nat.le_of_lt_succ (BitVec.isLt _)

theorem green_le (rgb : Rgb) : green rgb ≤ 255 := Nat.le_of_lt_succ (BitVec.isLt _)

theorem blue_le (rgb : Rgb) : blue rgb ≤ 255 := Nat.le_of_lt_succ (BitVec.isLt _)

/-- The sum of white bounds every sum (R156). -/
theorem lumaSum_le (rgb : Rgb) : lumaSum rgb ≤ 16711680 := by
  have hred := red_le rgb
  have hgreen := green_le rgb
  have hblue := blue_le rgb
  unfold lumaSum
  omega

theorem luma_le (rgb : Rgb) : luma rgb ≤ 255 := by
  have hsum := lumaSum_le rgb
  unfold luma
  omega

theorem luma_div (rgb : Rgb) : luma rgb / 128 = quant rgb := Nat.div_div_eq_div_mul _ _ _

theorem quant_le (rgb : Rgb) : quant rgb ≤ 1 := by
  have hluma := luma_le rgb
  rw [← luma_div]
  omega

/-- The threshold on the sum (R157). -/
theorem quant_eq_one_iff_sum (rgb : Rgb) : quant rgb = 1 ↔ 8388608 ≤ lumaSum rgb := by
  have hsum := lumaSum_le rgb
  unfold quant
  omega

/-- The threshold on luma (R157). -/
theorem quant_eq_one_iff_luma (rgb : Rgb) : quant rgb = 1 ↔ 128 ≤ luma rgb := by
  have hluma := luma_le rgb
  rw [← luma_div]
  omega

/-- Without green no sum exceeds that of magenta, which is below the threshold (R157). -/
theorem lumaSum_le_of_green_eq_zero {rgb : Rgb} (h : green rgb = 0) : lumaSum rgb ≤ 6851850 := by
  have hred := red_le rgb
  have hblue := blue_le rgb
  rw [lumaSum, h]
  omega

theorem quant_eq_zero_of_green_eq_zero {rgb : Rgb} (h : green rgb = 0) : quant rgb = 0 := by
  have hsum := lumaSum_le_of_green_eq_zero h
  unfold quant
  omega

/-- The threshold on pure greens: 217 is the first whose sum reaches it (R157). -/
theorem quant_eq_one_iff_green {rgb : Rgb} (hred : red rgb = 0) (hblue : blue rgb = 0) :
    quant rgb = 1 ↔ 217 ≤ green rgb := by
  rw [quant_eq_one_iff_sum, lumaSum, hred, hblue]
  omega

/-- Settles O22: the sum over the bytes, its bound, and the thresholds; then colours by their sums. -/
theorem quantizerThreshold : Obligations.QuantizerThreshold := by
  refine ⟨fun rgb => ?_, by decide, by decide, by decide, by decide, by decide, by decide,
    fun rgb hgreen => ⟨lumaSum_le_of_green_eq_zero hgreen, quant_eq_zero_of_green_eq_zero hgreen⟩,
    by decide, fun rgb => quant_eq_one_iff_green⟩
  rw [← lumaSum_eq]
  exact ⟨lumaSum_le rgb, by decide, rfl, rfl, luma_le rgb, rfl, quant_le rgb, luma_div rgb,
    quant_eq_one_iff_sum rgb, quant_eq_one_iff_luma rgb⟩

/-! ### NOP and the queries -/

/-- Settles O23: NOP is its completion. -/
theorem nopDoesNothing : Obligations.NopDoesNothing := fun _ => rfl

/-- The word that QUANT writes: luma in its second byte, the bit in bit 0 (R161). -/
theorem quantResult_eq (rgb : Rgb) : quantResult rgb = BitVec.ofNat 32 (luma rgb * 2 ^ 8 + quant rgb) := by
  have hluma := luma_le rgb
  have hquant := quant_le rgb
  apply BitVec.eq_of_toNat_eq
  rw [quantResult, toNat_setWidth_of_le (by decide)]
  simp only [toNat_append_eq, BitVec.toNat_ofNat]
  omega

theorem exec_quant (rgb : Rgb) (s : State) :
    exec (.quant rgb) s = .next (s.setResult (quantResult rgb)).complete := rfl

/-- Settles O24: the word written, over the sum of the colour's bytes. -/
theorem quantWritesResult : Obligations.QuantWritesResult := by
  intro s rgb
  rw [← lumaSum_eq, exec_quant, quantResult_eq]
  rfl

/-- The check of GLA (R162). -/
theorem glaCheck_eq (p : Config.Params) (row : Nat) :
    firstError [(badRows p row row, .bounds)] = if row < p.height then .ok else .bounds := by
  have hbad : badRows p row row = false ↔ row < p.height := badRows_eq_false.trans (and_iff_right le_rfl)
  rw [firstError_single]
  by_cases h : row < p.height
  · rw [if_pos h, hbad.2 h, if_neg Bool.false_ne_true]
  · rw [if_neg h, if_pos (Bool.eq_true_of_not_eq_false (mt hbad.1 h))]

theorem exec_gla (row : Byte) (s : State) :
    exec (.gla row) s = s.checked (if row.toNat < s.params.height then .ok else .bounds)
      fun s => s.setResult (BitVec.setWidth 32 (gla row.toNat)) := by
  rw [← glaCheck_eq]
  rfl

/-- Settles O25: the check passes and the address is written, or it fails and BOUNDS is raised. -/
theorem glaWritesResult : Obligations.GlaWritesResult := by
  intro s row
  rw [exec_gla]
  refine ⟨fun hin => ⟨rfl, ?_⟩, fun hout => ?_⟩
  · rw [if_pos hin, checked_ok]
    rfl
  · rw [if_neg (Nat.not_lt.2 hout), checked_error _ _ _ (by decide)]
    rfl

theorem exec_xform (b : Byte) (s : State) :
    exec (.xform b) s = .next (s.setResult (BitVec.setWidth 32 (xform b))).complete := rfl

/-- Settles O26: the byte written is the complement of the reversed one. -/
theorem xformWritesResult : Obligations.XformWritesResult := by
  intro s b
  rw [exec_xform, xform_eq_not]
  rfl

end Sys2Proof.Machine
end

section
/-! ## The bytes of an update transaction, and the groups of a FLUSH

How long the rows of an update are and where each row's payload stands (`rowsSeq_length`,
`drop_rowsSeq`), and how a row joins the runs after it (`joinRuns_cons_cases`). -/

namespace Sys2Proof.Machine

/-! ### Lengths and places -/

theorem payloadSeq_length (s : State) (r : Nat) : (s.payloadSeq r).length = 1 + s.params.rowBytes := by
  simp only [State.payloadSeq, List.length_cons, List.length_map, readRow_length]
  omega

theorem trailerSeq_length (s : State) (last : Bool) :
    (s.trailerSeq last).length = if last then s.endLen.toNat else s.rowLen.toNat :=
  List.length_replicate

/-- A row with rows after it ends with the trailer between rows (R180, R181). -/
theorem rowsSeq_cons (s : State) (r : Nat) {rows : List Nat} (h : rows ≠ []) :
    s.rowsSeq (r :: rows) = s.payloadSeq r ++ (s.trailerSeq false ++ s.rowsSeq rows) := by
  cases rows with
  | nil => exact absurd rfl h
  | cons r' rows => exact List.append_assoc _ _ _

theorem rowsSeq_length (s : State) {rows : List Nat} {m : Nat} (h : rows.length = m + 1) :
    (s.rowsSeq rows).length
      = (m + 1) * (1 + s.params.rowBytes) + m * s.rowLen.toNat + s.endLen.toNat := by
  induction m generalizing rows with
  | zero =>
    obtain ⟨r, rfl⟩ := List.length_eq_one_iff.1 h
    simp [State.rowsSeq, payloadSeq_length, trailerSeq_length]
  | succ m ih =>
    obtain ⟨r, rows, rfl⟩ := List.exists_cons_of_length_eq_add_one h
    have hrest : rows.length = m + 1 := by simpa using h
    rw [rowsSeq_cons s r (List.ne_nil_of_length_eq_add_one hrest), List.length_append,
      List.length_append, payloadSeq_length, trailerSeq_length, ih hrest, if_neg Bool.false_ne_true]
    ring

/-- Settles O41: the opcode byte, then the rows. -/
theorem updateByteCount : Obligations.UpdateByteCount := by
  intro s rows m h
  rw [State.updateSeq, List.length_cons, rowsSeq_length s h]
  omega

/-- From the place of the `j`-th row on, the rows of an update start with that row's payload. -/
theorem drop_rowsSeq (s : State) {rows : List Nat} {j r : Nat} (h : rows[j]? = some r) :
    ∃ rest, (s.rowsSeq rows).drop (j * (1 + s.params.rowBytes + s.rowLen.toNat))
      = s.payloadSeq r ++ rest := by
  induction rows generalizing j with
  | nil => cases h
  | cons q rows ih =>
    cases j with
    | zero =>
      cases h
      rw [Nat.zero_mul, List.drop_zero]
      cases rows with
      | nil => exact ⟨_, rfl⟩
      | cons q' rows => exact ⟨_, rowsSeq_cons s r (List.cons_ne_nil q' rows)⟩
    | succ j =>
      have hj : rows[j]? = some r := h
      have hne : rows ≠ [] := by rintro rfl; cases hj
      have hfirst : (s.payloadSeq q ++ s.trailerSeq false).length
          = 1 + s.params.rowBytes + s.rowLen.toNat := by
        rw [List.length_append, payloadSeq_length, trailerSeq_length, if_neg Bool.false_ne_true]
      rw [rowsSeq_cons s q hne, ← List.append_assoc, Nat.succ_mul, Nat.add_comm, ← hfirst,
        List.drop_length_add_append, hfirst]
      exact ih hj

/-- The address and data bytes at the place of the `j`-th row are that row's payload (R184). -/
theorem payload_at (s : State) {rows : List Nat} {j r : Nat} (h : rows[j]? = some r) :
    ((s.updateSeq rows).drop (1 + j * (1 + s.params.rowBytes + s.rowLen.toNat))).take
      (1 + s.params.rowBytes) = s.payloadSeq r := by
  obtain ⟨rest, hrest⟩ := drop_rowsSeq s h
  rw [State.updateSeq, ← List.drop_drop, List.drop_one, List.tail_cons, hrest, ← payloadSeq_length s r,
    List.take_left]

/-- Settles O42: both are the row's payload, which is the same in every update. -/
theorem burstPayloadIdentity : Obligations.BurstPayloadIdentity := by
  intro s rows j r h
  have halone : ((s.updateSeq [r]).drop 1).take (1 + s.params.rowBytes) = s.payloadSeq r := by
    simpa using payload_at s (rows := [r]) (j := 0) rfl
  rw [payload_at s h, halone]

/-! ### Grouping -/

/-- A row is put in front of the first run when that run starts with the next row, otherwise it is a run of
its own (R186). -/
theorem joinRuns_cons_cases (r : Nat) (rows : List Nat) :
    (∃ run later, joinRuns rows = ((r + 1) :: run) :: later ∧
        joinRuns (r :: rows) = (r :: (r + 1) :: run) :: later) ∨
      (∀ g ∈ (joinRuns rows).head?, ∀ b ∈ g.head?, b ≠ r + 1) ∧
        joinRuns (r :: rows) = [r] :: joinRuns rows := by
  rw [joinRuns]
  split
  · rename_i q run later heq
    rw [heq]
    split
    · rename_i hq
      subst hq
      exact .inl ⟨run, later, rfl, rfl⟩
    · exact .inr ⟨by simpa using ‹¬q = r + 1›, rfl⟩
  · rename_i hno
    refine .inr ⟨fun g hg b hb => ?_, rfl⟩
    obtain ⟨later, hlater⟩ := List.head?_eq_some_iff.1 hg
    obtain ⟨run, rfl⟩ := List.head?_eq_some_iff.1 hb
    exact absurd hlater (hno b run later)

/-- No run could be joined with the next (R186). -/
theorem joinRuns_maximal (rows : List Nat) :
    (joinRuns rows).IsChain fun g h => ∀ a ∈ g.getLast?, ∀ b ∈ h.head?, b ≠ a + 1 := by
  induction rows with
  | nil => exact .nil
  | cons r rows ih =>
    rcases joinRuns_cons_cases r rows with ⟨run, later, hrest, hjoin⟩ | ⟨hapart, hjoin⟩
    · rw [hrest, List.isChain_cons] at ih
      rw [hjoin, List.isChain_cons]
      simpa only [List.getLast?_cons_cons] using ih
    · rw [hjoin, List.isChain_cons]
      refine ⟨fun g hg a ha => ?_, ih⟩
      obtain rfl : r = a := by simpa using ha
      exact hapart g hg

/-- Each row of consecutive rows is followed by the next row number. -/
theorem consecutive_next {rows : List Nat} (h : consecutive rows = true) {j : Nat}
    (hj : j + 1 < rows.length) : rows[j + 1]? = rows[j]?.map (· + 1) := by
  induction rows generalizing j with
  | nil => cases hj
  | cons r rows ih =>
    cases rows with
    | nil => simp at hj
    | cons r' rows =>
      obtain ⟨hnext, hrest⟩ : r' = r + 1 ∧ consecutive (r' :: rows) = true := by
        simpa [consecutive] using h
      cases j with
      | zero => simp [hnext]
      | succ j => exact ih hrest (by simpa using hj)

/-- Settles O43: a run is built row by row from the last, each joined where it can be. -/
theorem groupsAreMaximalRuns : Obligations.GroupsAreMaximalRuns := by
  intro rows
  refine ⟨rfl, runs_flatten rows true, fun g hg => ?_, joinRuns_maximal rows⟩
  have hcons := runs_consecutive rows true g hg
  exact ⟨consecutive_ne_nil hcons, fun j hj => consecutive_next hcons hj⟩

end Sys2Proof.Machine
end

section
/-! ## CLEAR and FLUSH as their pseudocode says

The laws of the serializer say what serving does as the pseudocode runs (`execClear_txn`,
`execFlush_flushGroups`); here the two ways a run ends, returned or waiting, are brought to the state that
`exec` leaves. -/

namespace Sys2Proof.Machine

theorem exec_clear (s : State) : exec .clear s = execClear s := rfl

theorem exec_flush (s : State) : exec .flush s = execFlush s := rfl

/-! ### CLEAR -/

theorem clearSeq_phase {s : State} {p : Phase × Byte} (h : p ∈ s.clearSeq) : p.1 = .cmd := by
  simp only [State.clearSeq, List.mem_cons, List.not_mem_nil, or_false] at h
  rcases h with rfl | rfl <;> rfl

/-- Settles O45: a returned transaction ends the command, a waiting one has sent its bytes in CmdPhase. -/
theorem clearFollowsPseudocode : Obligations.ClearFollowsPseudocode := by
  intro s os env henv
  obtain ⟨hexec, hserved⟩ := execClear_txn s os env henv
  cases hrun : txn [s.opc.extractLsb' 8 8, s.opc.extractLsb' 16 8] os with
  | done o trace rest =>
    rw [show txn [s.clr, s.pad] os = _ from hrun] at hserved
    have hquiet : (((s.beginClear.logAll trace).closeTxn).afterTxn .clear o).pending = none := by
      cases o <;> rfl
    rw [exec_clear, hexec, hserved.trans (serve_quiet _ _ hquiet)]
    cases o
    · simp [State.afterTxn, State.endClear, State.complete, State.finish, State.closeTxn, State.logAll,
        State.beginClear, State.openTxn]
    · simp [State.afterTxn, State.endClear, State.raiseError, State.finish, State.closeTxn, State.logAll,
        State.beginClear, State.openTxn]
  | waits req remaining trace =>
    intro hno
    rw [show txn [s.clr, s.pad] os = _ from hrun] at hserved
    obtain ⟨phase, left, hremaining, hphase, hleft, hserve⟩ := hserved
    have hcmd : phase = .cmd := by
      rcases hphase with rfl | ⟨p, hp, rfl⟩
      · rfl
      · exact clearSeq_phase hp
    refine ⟨left, hremaining, fun p hp => clearSeq_phase (hleft p hp), ?_⟩
    rw [exec_clear, hexec, hserve, serve_noAnswer _ _ hno, hcmd]
    rfl

/-- Settles O44: the pseudocode on four OK answers. -/
theorem clearSucceeds : Obligations.ClearSucceeds :=
  fun s env henv => clearFollowsPseudocode s [.ok, .ok, .ok, .ok] env henv

/-! ### FLUSH -/

/-- Settles O46: a FLUSH that has returned is quiet, one that waits presents the pseudocode's request. -/
theorem flushFollowsPseudocode : Obligations.FlushFollowsPseudocode := by
  intro s os env henv
  obtain ⟨hexec, hflushed⟩ := execFlush_flushGroups s os env henv
  cases hrun : s.flushGroups (runs s.dirtyRows s.coalesce) s.dirty os with
  | done result trace rest =>
    obtain ⟨code, d⟩ := result
    rw [hrun] at hflushed
    simp only [State.flushedAs] at hflushed
    rw [exec_flush, hexec, hflushed]
    simp [State.quieted, State.finish, State.closeTxn, State.endFlush, State.logAll]
  | waits req so trace =>
    obtain ⟨remaining, d⟩ := so
    intro hno
    rw [hrun] at hflushed
    obtain ⟨phase, job, left, cursor, hremaining, hjob, hserve⟩ := hflushed
    refine ⟨phase, job, left, cursor, hremaining, hjob, ?_⟩
    rw [exec_flush, hexec, hserve, serve_noAnswer _ _ hno]
    rfl

end Sys2Proof.Machine
end

section
/-! ## A FLUSH that succeeds, and one that fails

While every answer is OK the pseudocode sends one whole frame after another (`txn_okFrame`) and so takes
the groups one after another (`flushGroups_append`). The obligations put the end of the FLUSH behind that. -/

namespace Sys2Proof.Machine

/-! ### Runs of the pseudocode put together -/

@[simp] theorem Ran.after_nil {σ α : Type} (run : Ran σ α) : run.after [] = run := by
  cases run <;> rfl

theorem Ran.after_after {σ α : Type} (run : Ran σ α) (before middle : List (BusReq × BusOutcome)) :
    (run.after middle).after before = run.after (before ++ middle) := by
  cases run <;> simp only [Ran.after, List.append_assoc]

/-! ### Transactions answered OK -/

theorem sendRequests_of_ok (qs : List BusReq) (os : List BusOutcome) :
    sendRequests qs (List.replicate (qs.length + 1) .ok ++ os)
      = .done .ok (qs.map (fun q => (q, .ok)) ++ [(.deassert, .ok)]) os := by
  induction qs with
  | nil => rfl
  | cons q qs ih =>
    rw [List.length_cons, List.replicate_succ, List.cons_append, sendRequests, ih]
    rfl

theorem okFrame_length (seq : List Byte) : (okFrame seq).length = seq.length + 2 := by
  simp [okFrame]

/-- Answered OK throughout, `Txn(seq)` completes its frame and returns OK (R173). -/
theorem txn_okFrame (seq : List Byte) (os : List BusOutcome) :
    txn seq (List.replicate (okFrame seq).length .ok ++ os) = .done .ok (okFrame seq) os := by
  have hrun := sendRequests_of_ok (.assert :: seq.map .byte) os
  rw [List.length_cons, List.length_map, ← okFrame_length] at hrun
  simpa [txn, okFrame, Function.comp_def] using hrun

/-! ### Groups answered OK -/

/-- The frames of update transactions whose requests all completed OK. -/
def State.groupFrames (s : State) (groups : List (List Nat)) : List (BusReq × BusOutcome) :=
  groups.flatMap fun g => okFrame (s.updateBytes g)

theorem clearRows_append (d : BitVec Config.dirtyBits) (xs ys : List Nat) :
    clearRows d (xs ++ ys) = clearRows (clearRows d xs) ys := List.foldl_append

theorem flushGroups_nil_of_done {s : State} {d : BitVec Config.dirtyBits} {os rest : List BusOutcome}
    {o : BusOutcome} {trace : List (BusReq × BusOutcome)}
    (h : txn [s.nop0, s.nop1] os = .done o trace rest) :
    s.flushGroups [] d os = .done (if o = .ok then .ok else .bus, d) trace rest := by
  rw [State.flushGroups, h]

theorem flushGroups_cons_of_ok {s : State} {g : List Nat} {os rest : List BusOutcome}
    {trace : List (BusReq × BusOutcome)} (h : txn (s.updateBytes g) os = .done .ok trace rest)
    (groups : List (List Nat)) (d : BitVec Config.dirtyBits) :
    s.flushGroups (g :: groups) d os = (s.flushGroups groups (clearRows d g) rest).after trace := by
  rw [State.flushGroups, h]

theorem flushGroups_cons_of_err {s : State} {g : List Nat} {os rest : List BusOutcome}
    {trace : List (BusReq × BusOutcome)} (h : txn (s.updateBytes g) os = .done .err trace rest)
    (groups : List (List Nat)) (d : BitVec Config.dirtyBits) :
    s.flushGroups (g :: groups) d os = .done (.bus, d) trace rest := by
  rw [State.flushGroups, h]

/-- While the answers are OK the groups are sent and their flags cleared, one group after another (R185,
R188). -/
theorem flushGroups_append (s : State) (sent later : List (List Nat)) (d : BitVec Config.dirtyBits)
    (os : List BusOutcome) :
    s.flushGroups (sent ++ later) d (List.replicate (s.groupFrames sent).length .ok ++ os)
      = (s.flushGroups later (clearRows d sent.flatten) os).after (s.groupFrames sent) := by
  induction sent generalizing d with
  | nil => exact (Ran.after_nil _).symm
  | cons g sent ih =>
    have hframes : s.groupFrames (g :: sent) = okFrame (s.updateBytes g) ++ s.groupFrames sent :=
      List.flatMap_cons
    rw [hframes, List.length_append, List.replicate_add, List.append_assoc, List.cons_append,
      flushGroups_cons_of_ok (txn_okFrame _ _), ih, Ran.after_after, List.flatten_cons, clearRows_append]

/-- With every group sent, only the refresh is left (R185). -/
theorem flushGroups_of_all_sent (s : State) (groups : List (List Nat)) (d : BitVec Config.dirtyBits)
    (os : List BusOutcome) :
    s.flushGroups groups d (List.replicate (s.groupFrames groups).length .ok ++ os)
      = (s.flushGroups [] (clearRows d groups.flatten) os).after (s.groupFrames groups) := by
  have hrun := flushGroups_append s groups [] d os
  rwa [List.append_nil] at hrun

/-! ### The number of requests -/

theorem updateBytes_length (s : State) {rows : List Nat} (h : rows ≠ []) :
    (s.updateBytes rows).length
      = 1 + rows.length * (1 + s.params.rowBytes) + (rows.length - 1) * s.rowLen.toNat
        + s.endLen.toNat := by
  obtain ⟨m, hm⟩ := Nat.exists_eq_succ_of_ne_zero (mt List.length_eq_zero_iff.1 h)
  rw [← updateSeq_bytes s rows h, List.length_map, updateByteCount s rows m hm, hm]
  rfl

/-- The bound on the requests of a FLUSH counts its frames and the refresh frame (R246). -/
theorem flushRequests_eq (s : State) {groups : List (List Nat)} (h : ∀ g ∈ groups, g ≠ []) :
    s.flushRequests groups = (s.groupFrames groups).length + 4 := by
  rw [State.flushRequests, State.groupFrames, List.length_flatMap]
  congr 2
  refine List.map_congr_left fun g hg => ?_
  rw [okFrame_length, updateBytes_length s (h g hg)]
  omega

/-! ### The flags of the dirty rows -/

/-- With the flags of the dirty rows cleared none is set, since none is set from HEIGHT on (R37). -/
theorem clearRows_dirtyRows {s : State} (h : s.StorageInv) : clearRows s.dirty s.dirtyRows = 0 := by
  refine BitVec.eq_of_getLsbD_eq fun r _ => Eq.trans ?_ BitVec.getLsbD_zero.symm
  rw [getLsbD_clearRows, Bool.and_eq_false_iff, decide_eq_false_iff_not,
    not_not, mem_dirtyRows]
  by_cases hr : r < s.params.height
  · cases hd : s.dirty.getLsbD r
    · exact .inl rfl
    · exact .inr ⟨hr, hd⟩
  · exact .inl (h.dirtyLt r (Nat.le_of_not_lt hr))

theorem dirtyRows_of_dirty_eq_zero {s : State} (h : s.dirty = 0) : s.dirtyRows = [] := by
  simp [State.dirtyRows, State.isDirty, h]

/-- Once every group is sent, no row is dirty (R188). -/
theorem clearRows_groups {s : State} (h : s.StorageInv) :
    clearRows s.dirty (runs s.dirtyRows s.coalesce).flatten = 0 := by
  rw [runs_flatten, clearRows_dirtyRows h]

/-! ### The end of the FLUSH -/

/-- FLUSH leaves what its pseudocode returns. -/
theorem exec_flush_of_done {s : State} {os rest : List BusOutcome} {env : List Event} {code : ErrCode}
    {d : BitVec Config.dirtyBits} {trace : List (BusReq × BusOutcome)} (henv : s.env = answers os ++ env)
    (hrun : s.flushGroups (runs s.dirtyRows s.coalesce) s.dirty os = .done (code, d) trace rest) :
    exec .flush s = .next { s with
      dirty := d, err := code, eng := .idle,
      phase := .idle, csOpen := false, pending := none, job := .none, left := [], failed := false,
      cursor := ⟨[], [], []⟩, env := answers rest ++ env, busLog := trace.reverse ++ s.busLog } := by
  have hflush := flushFollowsPseudocode s os env henv
  rw [hrun] at hflush
  exact hflush

/-- Answered OK throughout, FLUSH sends every group and the refresh. -/
theorem exec_flush_of_ok {s : State} (h : s.StorageInv) {env : List Event}
    (henv : s.env = answers (List.replicate (s.flushRequests (runs s.dirtyRows s.coalesce)) .ok) ++ env) :
    exec .flush s = .next { s with
      dirty := 0, err := .ok, eng := .idle,
      phase := .idle, csOpen := false, pending := none, job := .none, left := [], failed := false,
      cursor := ⟨[], [], []⟩, env := env,
      busLog := (s.groupFrames (runs s.dirtyRows s.coalesce) ++ okFrame [s.nop0, s.nop1]).reverse
        ++ s.busLog } := by
  rw [flushRequests_eq s fun g hg => consecutive_ne_nil (runs_consecutive _ _ g hg),
    List.replicate_add] at henv
  have hrefresh : s.flushGroups [] 0 (List.replicate 4 .ok)
      = .done (.ok, 0) (okFrame [s.nop0, s.nop1]) [] :=
    flushGroups_nil_of_done (txn_okFrame [s.nop0, s.nop1] [])
  refine exec_flush_of_done (rest := []) henv ?_
  rw [flushGroups_of_all_sent, clearRows_groups h, hrefresh]
  rfl

/-- Settles O49: the frames of all groups, then the refresh frame, which is all there is when no row is
dirty. -/
theorem flushSucceeds : Obligations.FlushSucceeds := by
  intro s env h
  refine ⟨exec_flush_of_ok h, fun hclean henv => ?_⟩
  have hgroups : runs s.dirtyRows s.coalesce = [] := by
    rw [dirtyRows_of_dirty_eq_zero hclean]
    cases s.coalesce <;> rfl
  have hflush := exec_flush_of_ok h (env := env) (by rw [hgroups]; exact henv)
  rw [hgroups] at hflush
  exact hflush

/-- Settles O50: the groups before the failed transaction are sent as in a FLUSH that succeeds, and the
pseudocode ends with the failure. -/
theorem flushFailureKeepsRows : Obligations.FlushFailureKeepsRows := by
  intro s env os trace h
  refine ⟨fun sent g later hgroups hfails henv => ?_, fun hfails henv => ?_⟩
  · refine exec_flush_of_done (rest := []) henv ?_
    refine (congrArg (s.flushGroups · s.dirty _) hgroups).trans ?_
    refine (flushGroups_append s sent (g :: later) s.dirty os).trans ?_
    rw [flushGroups_cons_of_err hfails]
    rfl
  · refine exec_flush_of_done (rest := []) henv ?_
    refine (flushGroups_of_all_sent s _ s.dirty os).trans ?_
    rw [flushGroups_nil_of_done hfails, clearRows_groups h]
    rfl

end Sys2Proof.Machine
end

section
/-! ## Answers in later steps, and none at all

Serving reads its events from its argument only (`serve_withEnv`), so that serving two lists of answers
one after the other is serving them together (`serve_append`). Where no answer comes, a waiting block only
takes host accesses and turns. -/

namespace Sys2Proof.Machine

/-! ### Serving does not look at the state's own list of events -/

/-- `s` with other events to come. -/
def State.withEnv (s : State) (events : List Event) : State := { s with env := events }

section
variable (s : State) (events : List Event)

theorem presentNext_withEnv : (s.withEnv events).presentNext = s.presentNext.withEnv events := by
  unfold State.presentNext
  rw [show (s.withEnv events).left = s.left from rfl]
  split <;> rfl

theorem nextGroup_withEnv : (s.withEnv events).nextGroup = s.nextGroup.withEnv events := by
  have hbytes (rows : List Nat) : (s.withEnv events).updateSeq rows = s.updateSeq rows :=
    updateSeq_congr (s := s.withEnv events) (t := s) ⟨rfl, rfl, rfl, rfl, rfl, rfl⟩ rows
  cases hlater : s.cursor.later with
  | nil =>
    rw [nextGroup_of_nil hlater, nextGroup_of_nil (s := s.withEnv events) hlater]
    rfl
  | cons rows later =>
    rw [nextGroup_of_cons hlater, nextGroup_of_cons (s := s.withEnv events) hlater, hbytes]
    rfl

theorem afterTxn_withEnv (job : Job) (o : BusOutcome) :
    (s.withEnv events).afterTxn job o = (s.afterTxn job o).withEnv events := by
  cases job with
  | none => rfl
  | clear => cases o <;> rfl
  | update =>
    cases o with
    | ok => exact nextGroup_withEnv s.groupSent events
    | err => rfl
  | refresh => cases o <;> rfl

theorem onOutcome_withEnv {q : BusReq} (hp : s.pending = some q) (o : BusOutcome) :
    (s.withEnv events).onOutcome o = (s.onOutcome o).withEnv events := by
  have hp' : (s.withEnv events).pending = some q := hp
  by_cases hq : q = .deassert
  · subst hq
    rw [onOutcome_deassert s o hp, onOutcome_deassert _ o hp']
    exact afterTxn_withEnv (s.logBus .deassert o).closeTxn events _ _
  · cases o with
    | ok =>
      rw [onOutcome_ok s q hp hq, onOutcome_ok _ q hp' hq]
      exact presentNext_withEnv (s.logBus q .ok) events
    | err =>
      rw [onOutcome_err s q hp hq, onOutcome_err _ q hp' hq]
      rfl

theorem serve_withEnv (env : List Event) : State.serve env (s.withEnv events) = State.serve env s := by
  induction env generalizing s with
  | nil => rfl
  | cons e env ih =>
    cases hp : s.pending with
    | none =>
      rw [serve_quiet s _ hp, serve_quiet (s.withEnv events) _ hp]
      rfl
    | some q =>
      cases e with
      | busDone o =>
        have hne : s.pending ≠ none := by rw [hp]; exact Option.some_ne_none q
        rw [serve_answer s o env hne, serve_answer (s.withEnv events) o env hne,
          onOutcome_withEnv s events hp, ih]
      | _ => rfl

end

/-! ### Answers one list after the other -/

theorem answers_append (os os' : List BusOutcome) : answers (os ++ os') = answers os ++ answers os' :=
  List.map_append

/-- Serving that has used up its answers and waits goes on with what comes next (R170, R172). -/
theorem serve_append (s : State) (os : List BusOutcome) (env : List Event)
    (h : (State.serve (answers os) s).pending ≠ none) :
    State.serve (answers os ++ env) s = State.serve env (State.serve (answers os) s) := by
  induction os generalizing s with
  | nil => exact (serve_withEnv s [] env).symm
  | cons o os ih =>
    have hp : s.pending ≠ none := by
      intro hquiet
      rw [serve_quiet s _ hquiet] at h
      exact h hquiet
    change (State.serve (.busDone o :: answers os) s).pending ≠ none at h
    change State.serve (.busDone o :: (answers os ++ env)) s
      = State.serve env (State.serve (.busDone o :: answers os) s)
    rw [serve_answer s o _ hp] at h ⊢
    rw [serve_answer s o _ hp, ih _ h]

/-- An answer to a waiting block is served, with those that follow it (R170). -/
theorem step_answered (s : State) {os : List BusOutcome} (hos : os ≠ []) (hp : s.pending ≠ none)
    (env : List Event) :
    step { s with env := answers os ++ env } = .next (State.serve (answers os ++ env) s) := by
  obtain ⟨o, os, rfl⟩ := List.exists_cons_of_ne_nil hos
  obtain ⟨q, hq⟩ := Option.ne_none_iff_exists'.1 hp
  have hmove : State.nextMove { s with env := answers (o :: os) ++ env }
      = .done (State.drain { s with env := answers (o :: os) ++ env }) := by
    change State.answerMove { s with env := answers (o :: os) ++ env } = _
    rcases answerMove_cases { s with env := answers (o :: os) ++ env }
      with ⟨-, -, hnone, -⟩ | ⟨-, hnone, -⟩ | ⟨-, hserved⟩
    · exact absurd hnone hp
    · exact absurd hnone hp
    · exact hserved
  rw [step_of_done hmove]
  exact congrArg _ (serve_withEnv s _ _)

/-- What waits after serving `start`, answered again, is served as if all answers had been there. -/
theorem step_serve_answered {start t : State} {os os' : List BusOutcome} (hos' : os' ≠ [])
    (ht : t.pending ≠ none) (hserved : State.serve (answers os) start = t) (env : List Event) :
    step { t with env := answers os' ++ env }
      = .next (State.serve (answers (os ++ os') ++ env) start) := by
  subst hserved
  rw [step_answered _ hos' ht env, answers_append, List.append_assoc, serve_append start os _ ht]

/-- CLEAR and FLUSH serve the events at hand from a start that does not depend on them. -/
theorem exec_serves {i : Instr} (hi : i = .clear ∨ i = .flush) (s : State) :
    ∃ start, ∀ env, exec i { s with env := env } = .next (State.serve env start) := by
  rcases hi with rfl | rfl
  · exact ⟨s.beginClear, fun env => congrArg Host.Outcome.next (serve_withEnv s.beginClear env env)⟩
  · refine ⟨s.beginFlush, fun env => ?_⟩
    have hbegin : State.beginFlush { s with env := env } = s.beginFlush.withEnv env :=
      nextGroup_withEnv { s with cursor := ⟨[], [], runs s.dirtyRows s.coalesce⟩ } env
    rw [exec_flush, execFlush, hbegin]
    exact congrArg Host.Outcome.next (serve_withEnv s.beginFlush env env)

/-- Settles O47: the command and the later step both serve from a start, which takes up the answers that
come after. -/
theorem answersMayComeLater : Obligations.AnswersMayComeLater := by
  intro s t os os' env hos' ht
  refine ⟨fun i hi hexec => ?_, fun hp hos hstep => ?_⟩
  · obtain ⟨start, hstart⟩ := exec_serves hi s
    rw [hstart] at hexec ⊢
    exact step_serve_answered hos' ht (Host.Outcome.next.inj hexec) env
  · have hserved := step_answered s hos hp []
    rw [List.append_nil, hstep] at hserved
    rw [step_answered s (List.append_ne_nil_of_left_ne_nil hos os') hp env]
    exact step_serve_answered hos' ht (Host.Outcome.next.inj hserved).symm env

/-! ### No answer -/

/-- A request is presented only while a command runs (R49, R84). -/
theorem busy_of_pending {s : State} (h : s.ChannelInv) (hp : s.pending ≠ none) : s.busy = true := by
  cases heng : s.eng with
  | exec w => simp only [State.busy, heng]
  | idle =>
    have hcommand : s.command = none := by simp only [State.command, heng]
    obtain ⟨-, -, ⟨-, hrun, -⟩ | ⟨-, hrun⟩⟩ := h.framed hp
    · cases hcommand.symm.trans hrun
    · cases hcommand.symm.trans hrun

/-- A waiting block without a reset or an answer keeps everything but OVR and the model's own fields
(R172, R240, R241). -/
theorem step_unanswered {s t : State} (hbusy : s.busy = true) (hp : s.pending ≠ none)
    (hstep : step s = .next t) (hreset : s.env.head? ≠ some .reset) (hno : noAnswerNext s.env) :
    t = { s with env := s.env.tail, ovr := t.ovr, hostLog := t.hostLog, freeCount := t.freeCount } := by
  cases step_cases hstep with
  | @hostRead a env henv =>
    obtain ⟨w, n, hread⟩ := hostRead_eq { s with env := env } a
    rw [hread, henv]
    rfl
  | @hostWrite a w env henv =>
    have hwrite := hostWrite_eq_of_busy (s := { s with env := env }) hbusy a w
    rw [hwrite, henv]
    rfl
  | reset henv => exact absurd (by rw [henv]; rfl) hreset
  | rests henv =>
    rcases henv with ⟨henv, rfl⟩ | henv <;> rw [henv] <;> rfl
  | dropped _ _ hquiet => exact absurd hquiet hp
  | @answered o env henv => exact absurd (by rw [henv]; rfl) (hno o)
  | rejects hturn =>
    obtain ⟨-, hquiet, -⟩ := hturn
    exact absurd hquiet hp
  | executes hturn =>
    obtain ⟨-, hquiet, -⟩ := hturn
    exact absurd hquiet hp

theorem step_reset {s : State} {env : List Event} (h : s.env = .reset :: env) :
    step s = .next (State.blockReset { s with env := env }) :=
  step_of_done (by simp only [State.nextMove, h])

/-- Settles O10: a waiting block is busy and stays as it is; a reset ends its command. -/
theorem unansweredRequestHangs : Obligations.UnansweredRequestHangs := by
  intro s t h hp hstep
  have hbusy := busy_of_pending h.channel hp
  refine ⟨fun hreset hno => ?_, fun hreset => ?_⟩
  · have hkept := step_unanswered hbusy hp hstep hreset hno
    exact ⟨by rw [hkept]; exact hbusy, hkept⟩
  · obtain ⟨env, henv⟩ := List.head?_eq_some_iff.1 hreset
    rw [step_reset henv] at hstep
    cases hstep
    exact ⟨rfl, rfl⟩

end Sys2Proof.Machine
end

section
/-! ## Every step answers next

A checked command ends with its effect or with its error (`checked_answers_next`), so every command answers a
next state (`exec_answers_next`); the other moves of a step do by their definition. -/

namespace Sys2Proof.Machine

/-- A command's checks end in its effect or in its error (R113, R114). -/
theorem checked_answers_next (s : State) (code : ErrCode) (effect : State → State) :
    ∃ t, s.checked code effect = .next t := by
  by_cases hc : code = .ok
  · exact ⟨_, if_pos hc⟩
  · exact ⟨_, checked_error s code effect hc⟩

/-- Every command has a meaning, and none faults (R214, log entry 18). -/
theorem exec_answers_next (i : Instr) (s : State) : ∃ t, exec i s = .next t := by
  cases i with
  | nop | clear | flush | quant | xform => exact ⟨_, rfl⟩
  | point | hline | vline | fill | gla =>
    simp only [exec, execPoint, execHline, execVline, execFill, execGla, checked_answers_next]
  | blit1 => exact checked_answers_next s _ _
  | blit8 srclsb =>
    cases srclsb with
    | true => exact ⟨_, rfl⟩
    | false => exact checked_answers_next s _ _

/-- Every accepted word is rejected or executed (R90, R96, R97). -/
theorem runCommand_answers_next (w : Cmd) (s : State) : ∃ t, runCommand w s = .next t := by
  cases hdec : decode w with
  | error e => exact ⟨_, runCommand_of_error hdec s⟩
  | ok i =>
    rw [runCommand, hdec]
    exact exec_answers_next i s

/-- Settles O9: a move is done, or starts an accepted word, which answers next. -/
theorem everyStepAnswersNext : Obligations.EveryStepAnswersNext := by
  intro s
  cases hmove : s.nextMove with
  | done t => exact ⟨t, step_of_done hmove⟩
  | start w u =>
    rw [step_of_start hmove]
    exact runCommand_answers_next w u

end Sys2Proof.Machine
end

section
/-! ## The idle block and the code of the last command

While BUSY = 0 there is no command to begin, so the engine's turn changes nothing. A running command has ERR = 0
in every good state, so only its end can record another code; and of the host's writes only an acceptance
touches ERR (`accepts_of_hostWrite_err_ne`). -/

namespace Sys2Proof.Machine

/-- BUSY is 0 only while the engine is IDLE (R49). -/
theorem eng_of_not_busy {s : State} (h : s.busy = false) : s.eng = .idle := by
  cases heng : s.eng with
  | idle => rfl
  | exec w => simp [State.busy, heng] at h

/-- An idle engine's move changes nothing (R222). -/
theorem engineMove_of_not_busy {s : State} (h : s.busy = false) : s.engineMove = .done s := by
  rcases engineMove_cases s with ⟨w, heng, -⟩ | ⟨-, hrests⟩
  · cases (eng_of_not_busy h).symm.trans heng
  · exact hrests

/-- An answer that finds the block idle without a request is dropped (log entry 3). -/
theorem answerMove_of_not_busy {s : State} (h : s.busy = false) (hp : s.pending = none) :
    s.answerMove = .done { s with env := s.env.tail } := by
  rcases answerMove_cases s with ⟨w, heng, -⟩ | ⟨-, -, hdropped⟩ | ⟨hwaits, -⟩
  · cases (eng_of_not_busy h).symm.trans heng
  · exact hdropped
  · exact absurd hp hwaits

/-- Settles O59: the moves of an idle block. -/
theorem idleBlockKeepsState : Obligations.IdleBlockKeepsState := by
  intro s hidle
  refine ⟨fun henv => step_of_done ?_, fun env => ⟨fun henv => step_of_done ?_,
    fun o hp henv => step_of_done ?_⟩⟩
  · simp only [State.nextMove, henv, engineMove_of_not_busy hidle]
  · simp only [State.nextMove, henv]
    exact engineMove_of_not_busy hidle
  · simp only [State.nextMove, henv, answerMove_of_not_busy hidle hp, List.tail_cons]

/-- CMD_HI is the register at 0x014, and nothing else is (R25). -/
theorem offset_of_target_cmdHi {a : HostAddr} (h : target a = .cmdHi) : a.toNat / 4 * 4 = 0x014 := by
  rw [target_eq, targetAt] at h
  split at h
  · unfold registerTarget at h
    split at h <;> cases h
    omega
  · repeat' split at h
    all_goals cases h

/-- Of the host's stores only an acceptance touches ERR (R27, R90). -/
theorem writeTarget_err {tgt : Target} (h : tgt ≠ .cmdHi) (s : State) (w : Word) :
    (s.writeTarget w tgt).err = s.err := by
  cases tgt with
  | cmdHi => exact absurd rfl h
  | _ => rfl

/-- A host write that changes ERR is an acceptance: a write to CMD_HI that is not dropped, which sets ERR to 0
(R90, R240). -/
theorem accepts_of_hostWrite_err_ne {s : State} {a : HostAddr} {w : Word}
    (h : (s.hostWrite a w).err ≠ s.err) :
    target a = .cmdHi ∧ s.busy = false ∧ (s.hostWrite a w).err = .ok := by
  unfold State.hostWrite at h ⊢
  split at h
  · exact absurd rfl h
  · rename_i hkept
    have htarget : target a = .cmdHi := by
      by_contra hother
      exact h (writeTarget_err hother s w)
    rw [htarget] at hkept ⊢
    have hidle : s.busy = false := by simpa [Target.guarded] using hkept
    exact ⟨rfl, hidle, by rw [hidle]; rfl⟩

/-- A step that changes ERR of an idle block is a reset or an acceptance. -/
theorem step_err_of_not_busy {s t : State} (h : s.ChannelInv) (hidle : s.busy = false)
    (hstep : step s = .next t) (hne : t.err ≠ s.err) :
    resetNext s ∨ ∃ a w env, s.env = .hostWrite a w :: env ∧ target a = .cmdHi ∧ t.err = .ok := by
  have heng := eng_of_not_busy hidle
  cases step_cases hstep with
  | @hostRead a env =>
    obtain ⟨w, n, hread⟩ := hostRead_eq { s with env := env } a
    rw [hread] at hne
    exact absurd rfl hne
  | @hostWrite a w env henv =>
    obtain ⟨htarget, -, hok⟩ := accepts_of_hostWrite_err_ne (s := { s with env := env }) hne
    exact .inr ⟨a, w, env, henv, htarget, hok⟩
  | @reset env henv => exact .inl ⟨env, henv⟩
  | rests | dropped => exact absurd rfl hne
  | answered _ hp => exact absurd (pending_none_of_idle h hidle) hp
  | rejects hturn | executes hturn =>
    obtain ⟨hexec, -⟩ := hturn
    cases heng.symm.trans hexec

/-- Settles O58: ERR is 0 while a command runs, before the step and after it; and the steps of an idle block. -/
theorem errorCodeKept : Obligations.ErrorCodeKept := by
  intro s t h hstep hne
  cases hbusy : s.busy with
  | true =>
    have hended : t.busy = false := by
      by_contra hruns
      have hok : t.err = .ok := (step_inv h hstep).channel.busyErr (by simpa using hruns)
      exact hne (hok.trans (h.channel.busyErr hbusy).symm)
    exact .inr (.inl ⟨rfl, hended⟩)
  | false =>
    rcases step_err_of_not_busy h.channel hbusy hstep hne with hreset | ⟨a, w, env, henv, htarget, hok⟩
    · exact .inl hreset
    · exact .inr (.inr ⟨a, w, env, henv, offset_of_target_cmdHi htarget, rfl, hok⟩)

end Sys2Proof.Machine
end

section
/-! ## Guarded writes while BUSY = 1, and reset

The guarded targets by their addresses (`target_guarded`), the writes that the block drops, and what the
reset state holds for every choice of parameters (`resetOf_registers`, `resetOf_opc`). -/

namespace Sys2Proof.Machine

/-! ### Guarded writes -/

/-- The guarded ranges of the address map: eight registers and the two windows (R25, R240). -/
theorem target_guarded {a : HostAddr}
    (h : a.toNat / 4 * 4 ∈ [0x004, 0x010, 0x014, 0x018, 0x01C, 0x020, 0x024, 0x028] ∨
      0x400 ≤ a.toNat ∧ a.toNat < 0x800 ∨ 0x1000 ≤ a.toNat ∧ a.toNat < 0x2000) :
    (target a).guarded = true := by
  have hregister : ∀ o ∈ [0x004, 0x010, 0x014, 0x018, 0x01C, 0x020, 0x024, 0x028],
      o < 0x040 ∧ (registerTarget (o / 4)).guarded = true := by decide
  rcases h with ho | ⟨h1, h2⟩ | ⟨h1, h2⟩
  · obtain ⟨hlt, hguarded⟩ := hregister _ ho
    rw [target_of_register rfl hlt, hguarded]
  · rw [target_pal h1 h2]; rfl
  · rw [target_src h1 h2]; rfl

/-- A guarded write that finds the block busy is dropped (R25, R240); `step_hostWrite_kept` is the other
case. -/
theorem step_hostWrite_dropped {s : State} {a : HostAddr} {w : Word} {env : List Event}
    (henv : s.env = .hostWrite a w :: env) (hbusy : s.busy = true) (hguarded : (target a).guarded = true) :
    step s = .next (State.markOverrun { s with env := env }) := by
  have hdrop : (State.busy { s with env := env } && (target a).guarded) = true := by
    rw [hguarded, Bool.and_true]
    exact hbusy
  rw [step_hostWrite henv, State.hostWrite, if_pos hdrop]

/-- Settles O11: such a write has a guarded target. -/
theorem guardedWriteDropped : Obligations.GuardedWriteDropped :=
  fun _ _ _ _ henv hbusy ha => step_hostWrite_dropped henv hbusy (target_guarded ha)

/-! ### The reset state -/

/-- After reset the block is not busy, with no error and no overrun (R231). -/
theorem resetOf_status (p : Config.Params) : (State.resetOf p).status = 0x00000000 := by
  simp [State.status, State.busy, State.resetOf, ErrCode.code]

/-- After reset the trailer is one byte after a row and two after the last (R231). -/
theorem resetOf_trail (p : Config.Params) : (State.resetOf p).trail = 0x00000021 := by
  simp [State.trail, State.resetOf]

/-- The rows of R231's table that do not depend on the parameters. -/
theorem resetOf_registers (p : Config.Params) :
    (State.resetOf p).readTarget .ctrl = 0x00000001 ∧
    (State.resetOf p).readTarget .status = 0x00000000 ∧
    (State.resetOf p).readTarget .result = 0x00000000 ∧
    (State.resetOf p).readTarget .cmdLo = 0x00000000 ∧
    (State.resetOf p).readTarget .srcLen = 0x00000000 ∧
    (State.resetOf p).readTarget .palLen = 0x00000000 ∧
    (State.resetOf p).readTarget .nopb = 0x00000000 ∧
    (State.resetOf p).readTarget .trail = 0x00000021 :=
  ⟨rfl, resetOf_status p, rfl, rfl, rfl, rfl, rfl, resetOf_trail p⟩

/-- OPC resets to the two parameters RST_OPC_CLEAR and RST_OPC_UPDATE (R31, R231). -/
theorem resetOf_opc (p : Config.Params) :
    (State.resetOf p).opc = 0x00#16 ++ p.rstOpcClear ++ p.rstOpcUpdate := rfl

/-- After reset no row is dirty (R232). -/
theorem resetOf_isDirty (p : Config.Params) (r : Nat) : (State.resetOf p).isDirty r = false :=
  BitVec.getLsbD_zero

/-- The ID word of this hardware (R36): 16 bytes per row, 128 rows. -/
theorem idWord_thisHardware : idWord Config.thisHardware = 0x01008010 :=
  BitVec.eq_of_toNat_eq (idWord_toNat (by decide))

/-- The OPC word of this hardware after reset (R8, R31). -/
theorem reset_opc : State.reset.opc = 0x00002080 := resetOf_opc Config.thisHardware

/-- Settles O18: the rows of the table at this hardware's parameters; FB lists no byte. -/
theorem resetValues : Obligations.ResetValues := by
  obtain ⟨hctrl, hstatus, hresult, hcmdLo, hsrcLen, hpalLen, hnopb, htrail⟩ :=
    resetOf_registers Config.thisHardware
  exact ⟨⟨by decide, rfl, rfl, rfl⟩, idWord_thisHardware, hctrl, hstatus, hresult, hcmdLo, hsrcLen,
    hpalLen, reset_opc, hnopb, htrail, fbRead_nil, resetOf_isDirty Config.thisHardware, rfl, rfl, rfl, rfl,
    fun p => ⟨rfl, resetOf_opc p⟩⟩

/-! ### A reset event -/

/-- Settles O19: the step of a reset event, at the same parameters. -/
theorem resetRestoresBlock : Obligations.ResetRestoresBlock :=
  fun _ _ henv => step_reset henv

end Sys2Proof.Machine
end
